-- ==== Sys2Proof/Word.lean ====
section
/-! DEFINITION. The words of the engine (00_scope.md R6, 10_state.md R23, R24, 30_encoding.md R70). -/

namespace Sys2Proof

/-- A 32-bit word: a command word, or one register of the host map (30_encoding.md R70, 20_memory.md R50). -/
abbrev Word := BitVec 32

/-- One half of a word pair: the negative or the positive bit-vector of 64 trits (10_state.md R24). -/
abbrev TritBits := BitVec 64

/-- A scalar register, 128 bits in two's complement (10_state.md R23). -/
abbrev Scalar := BitVec 128

/-- A byte of the codec's stream (20_memory.md R64). -/
abbrev Byte := BitVec 8

end Sys2Proof
end

