-- ==== Sys2Proof/Syntax.lean ====
section
/-! DEFINITION. The command set: operand types and one constructor per row of the opcode map (30_encoding.md R78). -/

namespace Sys2Proof

/-- A register number of any of the three files, 0 to 15: a 4-bit field of the command word (30_encoding.md R71). -/
abbrev RegNum := Fin 16

/-- Number of a scalar register X0 to X15 (10_state.md R23). -/
abbrev XReg := RegNum

/-- Number of a word-pair register P0 to P15 (10_state.md R24). -/
abbrev PReg := RegNum

/-- Number of a trit-array register T0 to T15 (10_state.md R25). -/
abbrev TReg := RegNum

/-- The width modifier w = F[0] of a fixed-width command (30_encoding.md R73). -/
inductive Width where
  /-- F[0] = 0, assembler suffix .32 -/
  | w32
  /-- F[0] = 1, assembler suffix .64 -/
  | w64
  deriving DecidableEq, Repr

/-- The native-width modifier n = F[2:1] of a conversion command; the value 3 names no width (30_encoding.md R74). -/
inductive NativeWidth where
  /-- F[2:1] = 0, assembler suffix .i32 -/
  | n32
  /-- F[2:1] = 1, assembler suffix .i64 -/
  | n64
  /-- F[2:1] = 2, assembler suffix .i128 -/
  | n128
  deriving DecidableEq, Repr

/-- W, the number of trits a fixed-width command works on (30_encoding.md R73). -/
def Width.trits : Width → Nat
  | .w32 => 32
  | .w64 => 64

/-- N, the number of bits of a native integer (30_encoding.md R74). -/
def NativeWidth.bits : NativeWidth → Nat
  | .n32 => 32
  | .n64 => 64
  | .n128 => 128

/-- The commands, one constructor per row of the opcode map (30_encoding.md R78). The operands stand in assembler
order: the modifiers w and n first, then the fields D, A, B, C the row uses (30_encoding.md R82). -/
inductive Instr where
  -- register access (40_register_access.md)
  /-- `NOP`, OP 0x00 (R101). -/
  | nop
  /-- `XLI Xd, imm16`, OP 0x01 (R102). -/
  | xli (d : XReg) (imm : BitVec 16)
  /-- `WPACK Pd, Xa, Xb`, OP 0x02 (R103). -/
  | wpack (d : PReg) (a : XReg) (b : XReg)
  /-- `WRDN Xd, Pa`, OP 0x03 (R104). -/
  | wrdn (d : XReg) (a : PReg)
  /-- `WRDP Xd, Pa`, OP 0x04 (R105). -/
  | wrdp (d : XReg) (a : PReg)
  /-- `TALLOC Td, Xa`, OP 0x05 (R106). -/
  | talloc (d : TReg) (a : XReg)
  /-- `TWRW Td, Xa, Pb`, OP 0x06 (R107). -/
  | twrw (d : TReg) (a : XReg) (b : PReg)
  /-- `TRDW Pd, Ta, Xb`, OP 0x07 (R108). -/
  | trdw (d : PReg) (a : TReg) (b : XReg)
  /-- `TLEN Xd, Ta`, OP 0x08 (R109). -/
  | tlen (d : XReg) (a : TReg)
  /-- `TNW Xd, Ta`, OP 0x09 (R110). -/
  | tnw (d : XReg) (a : TReg)
  /-- `TMOV Td, Ta`, OP 0x0A (R111). -/
  | tmov (d : TReg) (a : TReg)
  /-- `TFROMW.w Td, Pa`, OP 0x0B (R112). -/
  | tfromw (w : Width) (d : TReg) (a : PReg)
  /-- `XMOV Xd, Xa`, OP 0x0C (R113). -/
  | xmov (d : XReg) (a : XReg)
  /-- `PMOV Pd, Pa`, OP 0x0D (R114). -/
  | pmov (d : PReg) (a : PReg)
  -- dual-bitvector trit access (41_dual_bitvector.md)
  /-- `WGET.w Xd, Pa, Xb`, OP 0x10 (R130). -/
  | wget (w : Width) (d : XReg) (a : PReg) (b : XReg)
  /-- `WSET.w Pd, Xa, Xb`, OP 0x11 (R131). -/
  | wset (w : Width) (d : PReg) (a : XReg) (b : XReg)
  /-- `TGET Xd, Ta, Xb`, OP 0x12 (R132). -/
  | tget (d : XReg) (a : TReg) (b : XReg)
  /-- `TSET Td, Xa, Xb`, OP 0x13 (R133). -/
  | tset (d : TReg) (a : XReg) (b : XReg)
  /-- `WDIG Pd, Xa`, OP 0x14 (R134). -/
  | wdig (d : PReg) (a : XReg)
  /-- `WNEG.w Pd, Pa`, OP 0x15 (R135). -/
  | wneg (w : Width) (d : PReg) (a : PReg)
  /-- `TNEG Td, Ta`, OP 0x16 (R136). -/
  | tneg (d : TReg) (a : TReg)
  -- fixed-width arithmetic (42_fixed_width.md)
  /-- `WADD.w Pd, Pa, Pb`, OP 0x20 (R154). -/
  | wadd (w : Width) (d : PReg) (a : PReg) (b : PReg)
  /-- `WSUB.w Pd, Pa, Pb`, OP 0x21 (R155). -/
  | wsub (w : Width) (d : PReg) (a : PReg) (b : PReg)
  /-- `WADDC.w Pd, Pa, Pb`, OP 0x22 (R156). -/
  | waddc (w : Width) (d : PReg) (a : PReg) (b : PReg)
  /-- `WMUL.w Pd, Pa, Pb`, OP 0x23 (R160). -/
  | wmul (w : Width) (d : PReg) (a : PReg) (b : PReg)
  /-- `WSHL.w Pd, Pa, Xb`, OP 0x24 (R162). -/
  | wshl (w : Width) (d : PReg) (a : PReg) (b : XReg)
  /-- `WSHR.w Pd, Pa, Xb`, OP 0x25 (R163). -/
  | wshr (w : Width) (d : PReg) (a : PReg) (b : XReg)
  /-- `WTOINT.w.n Xd, Pa`, OP 0x26 (R166). -/
  | wtoint (w : Width) (n : NativeWidth) (d : XReg) (a : PReg)
  /-- `WFROMINT.w.n Pd, Xa`, OP 0x27 (R167). -/
  | wfromint (w : Width) (n : NativeWidth) (d : PReg) (a : XReg)
  /-- `WCNT.w Xd, Pa`, OP 0x28 (R168). -/
  | wcnt (w : Width) (d : XReg) (a : PReg)
  /-- `CFRD Xd`, OP 0x29 (R157). -/
  | cfrd (d : XReg)
  /-- `CFWR Xa`, OP 0x2A (R158). -/
  | cfwr (a : XReg)
  -- arbitrary-precision arithmetic (43_arbitrary_precision.md)
  /-- `TADD Td, Ta, Tb`, OP 0x30 (R191). -/
  | tadd (d : TReg) (a : TReg) (b : TReg)
  /-- `TSUB Td, Ta, Tb`, OP 0x31 (R192). -/
  | tsub (d : TReg) (a : TReg) (b : TReg)
  /-- `TMUL Td, Ta, Tb`, OP 0x32 (R196). -/
  | tmul (d : TReg) (a : TReg) (b : TReg)
  /-- `TSHL Td, Ta, Xb`, OP 0x33 (R198). -/
  | tshl (d : TReg) (a : TReg) (b : XReg)
  /-- `TSHR Td, Ta, Xb`, OP 0x34 (R199). -/
  | tshr (d : TReg) (a : TReg) (b : XReg)
  /-- `TTRIM Td, Ta`, OP 0x35 (R200). -/
  | ttrim (d : TReg) (a : TReg)
  /-- `TISZ Xd, Ta`, OP 0x36 (R201). -/
  | tisz (d : XReg) (a : TReg)
  /-- `TCNT Xd, Ta`, OP 0x37 (R202). -/
  | tcnt (d : XReg) (a : TReg)
  /-- `TTOINT.n Xd, Ta`, OP 0x38 (R203). -/
  | ttoint (n : NativeWidth) (d : XReg) (a : TReg)
  /-- `TFROMINT.n Td, Xa`, OP 0x39 (R204). -/
  | tfromint (n : NativeWidth) (d : TReg) (a : XReg)
  -- range splicer (44_range_splicer.md)
  /-- `TSPLICE Td, Ta, Xb, Xc`, OP 0x40 (R230). -/
  | tsplice (d : TReg) (a : TReg) (b : XReg) (c : XReg)
  -- stream codec (45_stream_codec.md)
  /-- `ENCSYM Xa`, OP 0x50 (R252). -/
  | encsym (a : XReg)
  /-- `ENCEND`, OP 0x51 (R253). -/
  | encend
  /-- `ENCHDR`, OP 0x52 (R254). -/
  | enchdr
  /-- `ENCRST`, OP 0x53 (R255). -/
  | encrst
  /-- `DECBYTE Xa`, OP 0x54 (R260). -/
  | decbyte (a : XReg)
  /-- `DECEND`, OP 0x55 (R261). -/
  | decend
  /-- `DECRST`, OP 0x56 (R262). -/
  | decrst
  /-- `BPOP Xd`, OP 0x57 (R263). -/
  | bpop (d : XReg)
  /-- `SPOP Xd`, OP 0x58 (R264). -/
  | spop (d : XReg)
  /-- `BCNT Xd`, OP 0x59 (R265). -/
  | bcnt (d : XReg)
  /-- `SCNT Xd`, OP 0x5A (R266). -/
  | scnt (d : XReg)
  -- trit-wise tables (46_tritwise_tables.md)
  /-- `TMAP1 Td, Ta, Tb`, OP 0x60 (R240). -/
  | tmap1 (d : TReg) (a : TReg) (b : TReg)
  /-- `TMAP2 Td, Ta, Tb, Tc`, OP 0x61 (R241). -/
  | tmap2 (d : TReg) (a : TReg) (b : TReg) (c : TReg)
  deriving DecidableEq, Repr

end Sys2Proof
end

