-- ==== Sys2Proof/WellFormed.lean ====
section
/-! DEFINITION. When a command word is well formed: the opcode map's match and mask columns and the three checks of
30_encoding.md R79, in its order. Every TERM of `Instr` is well formed by its type (a register number is below 16, a
width is one of the legal ones), so the checks stand on the word; `Sys2Proof.decode` answers exactly on the words
they pass. -/

namespace Sys2Proof

/-- One row of the opcode map: the mnemonic, the fixed bits and their mask, and whether the row has the modifier n
(30_encoding.md R75, R78). -/
structure OpRow where
  mnemonic : String
  fixedBits : Word
  mask : Word
  hasN : Bool
  deriving DecidableEq, Repr

/-- The rows of R78 for the register access commands (40_register_access.md). -/
def registerAccessRows : List OpRow := [
  ⟨"NOP", 0x00000000, 0xFFFFFFFF, false⟩,
  ⟨"XLI", 0x01000000, 0xFF0F0000, false⟩,
  ⟨"WPACK", 0x02000000, 0xFF000FFF, false⟩,
  ⟨"WRDN", 0x03000000, 0xFF00FFFF, false⟩,
  ⟨"WRDP", 0x04000000, 0xFF00FFFF, false⟩,
  ⟨"TALLOC", 0x05000000, 0xFF00FFFF, false⟩,
  ⟨"TWRW", 0x06000000, 0xFF000FFF, false⟩,
  ⟨"TRDW", 0x07000000, 0xFF000FFF, false⟩,
  ⟨"TLEN", 0x08000000, 0xFF00FFFF, false⟩,
  ⟨"TNW", 0x09000000, 0xFF00FFFF, false⟩,
  ⟨"TMOV", 0x0A000000, 0xFF00FFFF, false⟩,
  ⟨"TFROMW", 0x0B000000, 0xFF00FFFE, false⟩,
  ⟨"XMOV", 0x0C000000, 0xFF00FFFF, false⟩,
  ⟨"PMOV", 0x0D000000, 0xFF00FFFF, false⟩]

/-- The rows of R78 for the dual-bitvector trit access commands (41_dual_bitvector.md). -/
def dualBitvectorRows : List OpRow := [
  ⟨"WGET", 0x10000000, 0xFF000FFE, false⟩,
  ⟨"WSET", 0x11000000, 0xFF000FFE, false⟩,
  ⟨"TGET", 0x12000000, 0xFF000FFF, false⟩,
  ⟨"TSET", 0x13000000, 0xFF000FFF, false⟩,
  ⟨"WDIG", 0x14000000, 0xFF00FFFF, false⟩,
  ⟨"WNEG", 0x15000000, 0xFF00FFFE, false⟩,
  ⟨"TNEG", 0x16000000, 0xFF00FFFF, false⟩]

/-- The rows of R78 for the fixed-width arithmetic commands (42_fixed_width.md). -/
def fixedWidthRows : List OpRow := [
  ⟨"WADD", 0x20000000, 0xFF000FFE, false⟩,
  ⟨"WSUB", 0x21000000, 0xFF000FFE, false⟩,
  ⟨"WADDC", 0x22000000, 0xFF000FFE, false⟩,
  ⟨"WMUL", 0x23000000, 0xFF000FFE, false⟩,
  ⟨"WSHL", 0x24000000, 0xFF000FFE, false⟩,
  ⟨"WSHR", 0x25000000, 0xFF000FFE, false⟩,
  ⟨"WTOINT", 0x26000000, 0xFF00FFF8, true⟩,
  ⟨"WFROMINT", 0x27000000, 0xFF00FFF8, true⟩,
  ⟨"WCNT", 0x28000000, 0xFF00FFFE, false⟩,
  ⟨"CFRD", 0x29000000, 0xFF0FFFFF, false⟩,
  ⟨"CFWR", 0x2A000000, 0xFFF0FFFF, false⟩]

/-- The rows of R78 for the arbitrary-precision arithmetic commands (43_arbitrary_precision.md). -/
def arbitraryRows : List OpRow := [
  ⟨"TADD", 0x30000000, 0xFF000FFF, false⟩,
  ⟨"TSUB", 0x31000000, 0xFF000FFF, false⟩,
  ⟨"TMUL", 0x32000000, 0xFF000FFF, false⟩,
  ⟨"TSHL", 0x33000000, 0xFF000FFF, false⟩,
  ⟨"TSHR", 0x34000000, 0xFF000FFF, false⟩,
  ⟨"TTRIM", 0x35000000, 0xFF00FFFF, false⟩,
  ⟨"TISZ", 0x36000000, 0xFF00FFFF, false⟩,
  ⟨"TCNT", 0x37000000, 0xFF00FFFF, false⟩,
  ⟨"TTOINT", 0x38000000, 0xFF00FFF9, true⟩,
  ⟨"TFROMINT", 0x39000000, 0xFF00FFF9, true⟩]

/-- The rows of R78 for the range splicer commands (44_range_splicer.md). -/
def spliceRows : List OpRow := [
  ⟨"TSPLICE", 0x40000000, 0xFF0000FF, false⟩]

/-- The rows of R78 for the stream codec commands (45_stream_codec.md). -/
def codecRows : List OpRow := [
  ⟨"ENCSYM", 0x50000000, 0xFFF0FFFF, false⟩,
  ⟨"ENCEND", 0x51000000, 0xFFFFFFFF, false⟩,
  ⟨"ENCHDR", 0x52000000, 0xFFFFFFFF, false⟩,
  ⟨"ENCRST", 0x53000000, 0xFFFFFFFF, false⟩,
  ⟨"DECBYTE", 0x54000000, 0xFFF0FFFF, false⟩,
  ⟨"DECEND", 0x55000000, 0xFFFFFFFF, false⟩,
  ⟨"DECRST", 0x56000000, 0xFFFFFFFF, false⟩,
  ⟨"BPOP", 0x57000000, 0xFF0FFFFF, false⟩,
  ⟨"SPOP", 0x58000000, 0xFF0FFFFF, false⟩,
  ⟨"BCNT", 0x59000000, 0xFF0FFFFF, false⟩,
  ⟨"SCNT", 0x5A000000, 0xFF0FFFFF, false⟩]

/-- The rows of R78 for the trit-wise tables commands (46_tritwise_tables.md). -/
def tableMapRows : List OpRow := [
  ⟨"TMAP1", 0x60000000, 0xFF000FFF, false⟩,
  ⟨"TMAP2", 0x61000000, 0xFF0000FF, false⟩]

/-- The complete opcode map (30_encoding.md R78). -/
def opcodeMap : List OpRow :=
  registerAccessRows ++ dualBitvectorRows ++ fixedWidthRows ++ arbitraryRows ++ spliceRows ++ codecRows ++ tableMapRows

/-- A word selects a row when its fixed bits are the row's (30_encoding.md R75). -/
def OpRow.selects (r : OpRow) (w : Word) : Bool := (w &&& r.mask) == r.fixedBits

/-- The OP field, bits 31:24 (30_encoding.md R71). -/
def opField (w : Word) : BitVec 8 := w.extractLsb' 24 8

/-- The native-width field n, bits 2:1 (30_encoding.md R74). -/
def nField (w : Word) : BitVec 2 := w.extractLsb' 1 2

/-- The row that has a word's OP value, if any (30_encoding.md R81). -/
def rowOfOp (w : Word) : Option OpRow := opcodeMap.find? fun r => opField r.fixedBits == opField w

/-- Why a command word is illegal, in the order the checks are made (30_encoding.md R79). -/
inductive Illegality where
  /-- (a) no row has the OP value -/
  | undefinedOp
  /-- (b) a must-be-zero bit is set -/
  | mustBeZero
  /-- (c) a conversion command with n = 3 -/
  | nativeWidth3
  deriving DecidableEq, Repr

/-- The first of the three checks of 30_encoding.md R79 a word fails, if any. -/
def illegality (w : Word) : Option Illegality :=
  match rowOfOp w with
  | none => some .undefinedOp
  | some r =>
    if !r.selects w then some .mustBeZero
    else if r.hasN && nField w == 3 then some .nativeWidth3
    else none

/-- A legal command word: one row of R78 with legal modifiers (30_encoding.md R80). -/
def wordWellFormed (w : Word) : Bool := (illegality w).isNone

end Sys2Proof
end

