-- ==== Sys2Proof/Decode.lean ====
section
/-! DEFINITION. The decoder, total on every 32-bit word (30_encoding.md R81), and the encoder, both written from the
field layout of R71, R72 and the rows of R78. A command is one word and is not fetched from a memory (R70,
20_memory.md R62), so there is no byte layer below it. -/

namespace Sys2Proof

/-- The fields of a command word in format R (30_encoding.md R71). In format I, IMM16 is B, C and F together (R72). -/
structure Fields where
  op : BitVec 8
  d : BitVec 4
  a : BitVec 4
  b : BitVec 4
  c : BitVec 4
  f : BitVec 8
  deriving DecidableEq, Repr

/-- Cut a word into its fields (30_encoding.md R71). -/
def splitWord (w : Word) : Fields :=
  ⟨w.extractLsb' 24 8, w.extractLsb' 20 4, w.extractLsb' 16 4, w.extractLsb' 12 4, w.extractLsb' 8 4, w.extractLsb' 0 8⟩

/-- Put fields together into a word (30_encoding.md R71). -/
def packFields (x : Fields) : Word := x.op ++ x.d ++ x.a ++ x.b ++ x.c ++ x.f

/-- A register number read from its 4-bit field (30_encoding.md R76). -/
def regOfField (v : BitVec 4) : RegNum := v.toFin

/-- The 4-bit field of a register number. -/
def fieldOfReg (r : RegNum) : BitVec 4 := BitVec.ofFin r

/-- IMM16, bits 15:0, from the fields (30_encoding.md R72). -/
def immOfFields (x : Fields) : BitVec 16 := x.b ++ x.c ++ x.f

/-- W from bit F[0] (30_encoding.md R73). -/
def widthOfBit (b : Bool) : Width := if b then .w64 else .w32

/-- F[0] of a width (30_encoding.md R73). -/
def bitOfWidth : Width → BitVec 1
  | .w32 => 0
  | .w64 => 1

/-- N from the field F[2:1]; the value 3 is illegal (30_encoding.md R74). -/
def nativeOfField (v : BitVec 2) : Option NativeWidth :=
  match v.toNat with
  | 0 => some .n32
  | 1 => some .n64
  | 2 => some .n128
  | _ => none

/-- F[2:1] of a native width (30_encoding.md R74). -/
def fieldOfNative : NativeWidth → BitVec 2
  | .n32 => 0
  | .n64 => 1
  | .n128 => 2

/-- W of a command that has the modifier w (30_encoding.md R73). -/
def Fields.width (x : Fields) : Width := widthOfBit (x.f.getLsbD 0)

/-- F when only the modifier w may be set: bits 7:1 are zero (30_encoding.md R75). -/
def Fields.onlyW (x : Fields) : Bool := x.f.extractLsb' 1 7 == 0

/-- F when only w and n may be set: bits 7:3 are zero (30_encoding.md R75). -/
def Fields.onlyWN (x : Fields) : Bool := x.f.extractLsb' 3 5 == 0

/-- F when only n may be set: bits 7:3 and bit 0 are zero (30_encoding.md R75). -/
def Fields.onlyN (x : Fields) : Bool := x.onlyWN && !x.f.getLsbD 0

/-- The command, if the must-be-zero bits are zero (30_encoding.md R79 (b)). -/
def ifLegal (zeros : Bool) (i : Instr) : Option Instr := if zeros then some i else none

/-- The command of a conversion row: must-be-zero bits, then n (30_encoding.md R79 (b), (c)). -/
def ifLegalN (zeros : Bool) (x : Fields) (i : NativeWidth → Instr) : Option Instr :=
  if zeros then (nativeOfField (x.f.extractLsb' 1 2)).map i else none

/-- The command that a word's fields encode, `none` for an illegal word (30_encoding.md R78, R79, R81). -/
def decodeFields (x : Fields) : Option Instr :=
  match x.op.toNat with
  | 0x00 => ifLegal (x.d == 0 && x.a == 0 && x.b == 0 && x.c == 0 && x.f == 0) .nop
  | 0x01 => ifLegal (x.a == 0) (.xli (regOfField x.d) (immOfFields x))
  | 0x02 => ifLegal (x.c == 0 && x.f == 0) (.wpack (regOfField x.d) (regOfField x.a) (regOfField x.b))
  | 0x03 => ifLegal (x.b == 0 && x.c == 0 && x.f == 0) (.wrdn (regOfField x.d) (regOfField x.a))
  | 0x04 => ifLegal (x.b == 0 && x.c == 0 && x.f == 0) (.wrdp (regOfField x.d) (regOfField x.a))
  | 0x05 => ifLegal (x.b == 0 && x.c == 0 && x.f == 0) (.talloc (regOfField x.d) (regOfField x.a))
  | 0x06 => ifLegal (x.c == 0 && x.f == 0) (.twrw (regOfField x.d) (regOfField x.a) (regOfField x.b))
  | 0x07 => ifLegal (x.c == 0 && x.f == 0) (.trdw (regOfField x.d) (regOfField x.a) (regOfField x.b))
  | 0x08 => ifLegal (x.b == 0 && x.c == 0 && x.f == 0) (.tlen (regOfField x.d) (regOfField x.a))
  | 0x09 => ifLegal (x.b == 0 && x.c == 0 && x.f == 0) (.tnw (regOfField x.d) (regOfField x.a))
  | 0x0A => ifLegal (x.b == 0 && x.c == 0 && x.f == 0) (.tmov (regOfField x.d) (regOfField x.a))
  | 0x0B => ifLegal (x.b == 0 && x.c == 0 && x.onlyW) (.tfromw x.width (regOfField x.d) (regOfField x.a))
  | 0x0C => ifLegal (x.b == 0 && x.c == 0 && x.f == 0) (.xmov (regOfField x.d) (regOfField x.a))
  | 0x0D => ifLegal (x.b == 0 && x.c == 0 && x.f == 0) (.pmov (regOfField x.d) (regOfField x.a))
  | 0x10 => ifLegal (x.c == 0 && x.onlyW) (.wget x.width (regOfField x.d) (regOfField x.a) (regOfField x.b))
  | 0x11 => ifLegal (x.c == 0 && x.onlyW) (.wset x.width (regOfField x.d) (regOfField x.a) (regOfField x.b))
  | 0x12 => ifLegal (x.c == 0 && x.f == 0) (.tget (regOfField x.d) (regOfField x.a) (regOfField x.b))
  | 0x13 => ifLegal (x.c == 0 && x.f == 0) (.tset (regOfField x.d) (regOfField x.a) (regOfField x.b))
  | 0x14 => ifLegal (x.b == 0 && x.c == 0 && x.f == 0) (.wdig (regOfField x.d) (regOfField x.a))
  | 0x15 => ifLegal (x.b == 0 && x.c == 0 && x.onlyW) (.wneg x.width (regOfField x.d) (regOfField x.a))
  | 0x16 => ifLegal (x.b == 0 && x.c == 0 && x.f == 0) (.tneg (regOfField x.d) (regOfField x.a))
  | 0x20 => ifLegal (x.c == 0 && x.onlyW) (.wadd x.width (regOfField x.d) (regOfField x.a) (regOfField x.b))
  | 0x21 => ifLegal (x.c == 0 && x.onlyW) (.wsub x.width (regOfField x.d) (regOfField x.a) (regOfField x.b))
  | 0x22 => ifLegal (x.c == 0 && x.onlyW) (.waddc x.width (regOfField x.d) (regOfField x.a) (regOfField x.b))
  | 0x23 => ifLegal (x.c == 0 && x.onlyW) (.wmul x.width (regOfField x.d) (regOfField x.a) (regOfField x.b))
  | 0x24 => ifLegal (x.c == 0 && x.onlyW) (.wshl x.width (regOfField x.d) (regOfField x.a) (regOfField x.b))
  | 0x25 => ifLegal (x.c == 0 && x.onlyW) (.wshr x.width (regOfField x.d) (regOfField x.a) (regOfField x.b))
  | 0x26 => ifLegalN (x.b == 0 && x.c == 0 && x.onlyWN) x fun n => .wtoint x.width n (regOfField x.d) (regOfField x.a)
  | 0x27 => ifLegalN (x.b == 0 && x.c == 0 && x.onlyWN) x fun n => .wfromint x.width n (regOfField x.d) (regOfField x.a)
  | 0x28 => ifLegal (x.b == 0 && x.c == 0 && x.onlyW) (.wcnt x.width (regOfField x.d) (regOfField x.a))
  | 0x29 => ifLegal (x.a == 0 && x.b == 0 && x.c == 0 && x.f == 0) (.cfrd (regOfField x.d))
  | 0x2A => ifLegal (x.d == 0 && x.b == 0 && x.c == 0 && x.f == 0) (.cfwr (regOfField x.a))
  | 0x30 => ifLegal (x.c == 0 && x.f == 0) (.tadd (regOfField x.d) (regOfField x.a) (regOfField x.b))
  | 0x31 => ifLegal (x.c == 0 && x.f == 0) (.tsub (regOfField x.d) (regOfField x.a) (regOfField x.b))
  | 0x32 => ifLegal (x.c == 0 && x.f == 0) (.tmul (regOfField x.d) (regOfField x.a) (regOfField x.b))
  | 0x33 => ifLegal (x.c == 0 && x.f == 0) (.tshl (regOfField x.d) (regOfField x.a) (regOfField x.b))
  | 0x34 => ifLegal (x.c == 0 && x.f == 0) (.tshr (regOfField x.d) (regOfField x.a) (regOfField x.b))
  | 0x35 => ifLegal (x.b == 0 && x.c == 0 && x.f == 0) (.ttrim (regOfField x.d) (regOfField x.a))
  | 0x36 => ifLegal (x.b == 0 && x.c == 0 && x.f == 0) (.tisz (regOfField x.d) (regOfField x.a))
  | 0x37 => ifLegal (x.b == 0 && x.c == 0 && x.f == 0) (.tcnt (regOfField x.d) (regOfField x.a))
  | 0x38 => ifLegalN (x.b == 0 && x.c == 0 && x.onlyN) x fun n => .ttoint n (regOfField x.d) (regOfField x.a)
  | 0x39 => ifLegalN (x.b == 0 && x.c == 0 && x.onlyN) x fun n => .tfromint n (regOfField x.d) (regOfField x.a)
  | 0x40 => ifLegal (x.f == 0) (.tsplice (regOfField x.d) (regOfField x.a) (regOfField x.b) (regOfField x.c))
  | 0x50 => ifLegal (x.d == 0 && x.b == 0 && x.c == 0 && x.f == 0) (.encsym (regOfField x.a))
  | 0x51 => ifLegal (x.d == 0 && x.a == 0 && x.b == 0 && x.c == 0 && x.f == 0) .encend
  | 0x52 => ifLegal (x.d == 0 && x.a == 0 && x.b == 0 && x.c == 0 && x.f == 0) .enchdr
  | 0x53 => ifLegal (x.d == 0 && x.a == 0 && x.b == 0 && x.c == 0 && x.f == 0) .encrst
  | 0x54 => ifLegal (x.d == 0 && x.b == 0 && x.c == 0 && x.f == 0) (.decbyte (regOfField x.a))
  | 0x55 => ifLegal (x.d == 0 && x.a == 0 && x.b == 0 && x.c == 0 && x.f == 0) .decend
  | 0x56 => ifLegal (x.d == 0 && x.a == 0 && x.b == 0 && x.c == 0 && x.f == 0) .decrst
  | 0x57 => ifLegal (x.a == 0 && x.b == 0 && x.c == 0 && x.f == 0) (.bpop (regOfField x.d))
  | 0x58 => ifLegal (x.a == 0 && x.b == 0 && x.c == 0 && x.f == 0) (.spop (regOfField x.d))
  | 0x59 => ifLegal (x.a == 0 && x.b == 0 && x.c == 0 && x.f == 0) (.bcnt (regOfField x.d))
  | 0x5A => ifLegal (x.a == 0 && x.b == 0 && x.c == 0 && x.f == 0) (.scnt (regOfField x.d))
  | 0x60 => ifLegal (x.c == 0 && x.f == 0) (.tmap1 (regOfField x.d) (regOfField x.a) (regOfField x.b))
  | 0x61 => ifLegal (x.f == 0) (.tmap2 (regOfField x.d) (regOfField x.a) (regOfField x.b) (regOfField x.c))
  | _ => none

/-- The decoder (30_encoding.md R81): `none` stands for E_ILLEGAL. -/
def decode (w : Word) : Option Instr := decodeFields (splitWord w)

/-- F with only the modifier w (30_encoding.md R73). -/
def fOfW (w : Width) : BitVec 8 := (0 : BitVec 7) ++ bitOfWidth w

/-- F with only the modifier n (30_encoding.md R74). -/
def fOfN (n : NativeWidth) : BitVec 8 := (0 : BitVec 5) ++ fieldOfNative n ++ (0 : BitVec 1)

/-- F with the modifiers w and n (30_encoding.md R73, R74). -/
def fOfWN (w : Width) (n : NativeWidth) : BitVec 8 := (0 : BitVec 5) ++ fieldOfNative n ++ bitOfWidth w

/-- The fields of a command's word (30_encoding.md R75, R78). -/
def encodeFields : Instr → Fields
  | .nop => ⟨0x00, 0, 0, 0, 0, 0⟩
  | .xli d imm => ⟨0x01, fieldOfReg d, 0, imm.extractLsb' 12 4, imm.extractLsb' 8 4, imm.extractLsb' 0 8⟩
  | .wpack d a b => ⟨0x02, fieldOfReg d, fieldOfReg a, fieldOfReg b, 0, 0⟩
  | .wrdn d a => ⟨0x03, fieldOfReg d, fieldOfReg a, 0, 0, 0⟩
  | .wrdp d a => ⟨0x04, fieldOfReg d, fieldOfReg a, 0, 0, 0⟩
  | .talloc d a => ⟨0x05, fieldOfReg d, fieldOfReg a, 0, 0, 0⟩
  | .twrw d a b => ⟨0x06, fieldOfReg d, fieldOfReg a, fieldOfReg b, 0, 0⟩
  | .trdw d a b => ⟨0x07, fieldOfReg d, fieldOfReg a, fieldOfReg b, 0, 0⟩
  | .tlen d a => ⟨0x08, fieldOfReg d, fieldOfReg a, 0, 0, 0⟩
  | .tnw d a => ⟨0x09, fieldOfReg d, fieldOfReg a, 0, 0, 0⟩
  | .tmov d a => ⟨0x0A, fieldOfReg d, fieldOfReg a, 0, 0, 0⟩
  | .tfromw w d a => ⟨0x0B, fieldOfReg d, fieldOfReg a, 0, 0, fOfW w⟩
  | .xmov d a => ⟨0x0C, fieldOfReg d, fieldOfReg a, 0, 0, 0⟩
  | .pmov d a => ⟨0x0D, fieldOfReg d, fieldOfReg a, 0, 0, 0⟩
  | .wget w d a b => ⟨0x10, fieldOfReg d, fieldOfReg a, fieldOfReg b, 0, fOfW w⟩
  | .wset w d a b => ⟨0x11, fieldOfReg d, fieldOfReg a, fieldOfReg b, 0, fOfW w⟩
  | .tget d a b => ⟨0x12, fieldOfReg d, fieldOfReg a, fieldOfReg b, 0, 0⟩
  | .tset d a b => ⟨0x13, fieldOfReg d, fieldOfReg a, fieldOfReg b, 0, 0⟩
  | .wdig d a => ⟨0x14, fieldOfReg d, fieldOfReg a, 0, 0, 0⟩
  | .wneg w d a => ⟨0x15, fieldOfReg d, fieldOfReg a, 0, 0, fOfW w⟩
  | .tneg d a => ⟨0x16, fieldOfReg d, fieldOfReg a, 0, 0, 0⟩
  | .wadd w d a b => ⟨0x20, fieldOfReg d, fieldOfReg a, fieldOfReg b, 0, fOfW w⟩
  | .wsub w d a b => ⟨0x21, fieldOfReg d, fieldOfReg a, fieldOfReg b, 0, fOfW w⟩
  | .waddc w d a b => ⟨0x22, fieldOfReg d, fieldOfReg a, fieldOfReg b, 0, fOfW w⟩
  | .wmul w d a b => ⟨0x23, fieldOfReg d, fieldOfReg a, fieldOfReg b, 0, fOfW w⟩
  | .wshl w d a b => ⟨0x24, fieldOfReg d, fieldOfReg a, fieldOfReg b, 0, fOfW w⟩
  | .wshr w d a b => ⟨0x25, fieldOfReg d, fieldOfReg a, fieldOfReg b, 0, fOfW w⟩
  | .wtoint w n d a => ⟨0x26, fieldOfReg d, fieldOfReg a, 0, 0, fOfWN w n⟩
  | .wfromint w n d a => ⟨0x27, fieldOfReg d, fieldOfReg a, 0, 0, fOfWN w n⟩
  | .wcnt w d a => ⟨0x28, fieldOfReg d, fieldOfReg a, 0, 0, fOfW w⟩
  | .cfrd d => ⟨0x29, fieldOfReg d, 0, 0, 0, 0⟩
  | .cfwr a => ⟨0x2A, 0, fieldOfReg a, 0, 0, 0⟩
  | .tadd d a b => ⟨0x30, fieldOfReg d, fieldOfReg a, fieldOfReg b, 0, 0⟩
  | .tsub d a b => ⟨0x31, fieldOfReg d, fieldOfReg a, fieldOfReg b, 0, 0⟩
  | .tmul d a b => ⟨0x32, fieldOfReg d, fieldOfReg a, fieldOfReg b, 0, 0⟩
  | .tshl d a b => ⟨0x33, fieldOfReg d, fieldOfReg a, fieldOfReg b, 0, 0⟩
  | .tshr d a b => ⟨0x34, fieldOfReg d, fieldOfReg a, fieldOfReg b, 0, 0⟩
  | .ttrim d a => ⟨0x35, fieldOfReg d, fieldOfReg a, 0, 0, 0⟩
  | .tisz d a => ⟨0x36, fieldOfReg d, fieldOfReg a, 0, 0, 0⟩
  | .tcnt d a => ⟨0x37, fieldOfReg d, fieldOfReg a, 0, 0, 0⟩
  | .ttoint n d a => ⟨0x38, fieldOfReg d, fieldOfReg a, 0, 0, fOfN n⟩
  | .tfromint n d a => ⟨0x39, fieldOfReg d, fieldOfReg a, 0, 0, fOfN n⟩
  | .tsplice d a b c => ⟨0x40, fieldOfReg d, fieldOfReg a, fieldOfReg b, fieldOfReg c, 0⟩
  | .encsym a => ⟨0x50, 0, fieldOfReg a, 0, 0, 0⟩
  | .encend => ⟨0x51, 0, 0, 0, 0, 0⟩
  | .enchdr => ⟨0x52, 0, 0, 0, 0, 0⟩
  | .encrst => ⟨0x53, 0, 0, 0, 0, 0⟩
  | .decbyte a => ⟨0x54, 0, fieldOfReg a, 0, 0, 0⟩
  | .decend => ⟨0x55, 0, 0, 0, 0, 0⟩
  | .decrst => ⟨0x56, 0, 0, 0, 0, 0⟩
  | .bpop d => ⟨0x57, fieldOfReg d, 0, 0, 0, 0⟩
  | .spop d => ⟨0x58, fieldOfReg d, 0, 0, 0, 0⟩
  | .bcnt d => ⟨0x59, fieldOfReg d, 0, 0, 0, 0⟩
  | .scnt d => ⟨0x5A, fieldOfReg d, 0, 0, 0, 0⟩
  | .tmap1 d a b => ⟨0x60, fieldOfReg d, fieldOfReg a, fieldOfReg b, 0, 0⟩
  | .tmap2 d a b c => ⟨0x61, fieldOfReg d, fieldOfReg a, fieldOfReg b, fieldOfReg c, 0⟩

/-- The encoder: the one word of a command (30_encoding.md R78, R82). -/
def encode (i : Instr) : Word := packFields (encodeFields i)

/-- The command the decoder reads from a word given as a number, bit 0 its least significant bit. Every row of the
table has one 32-bit word (30_encoding.md R70); more bits than that are no command word. -/
def decodeTableWord (nbits w : Nat) : Option Instr :=
  if nbits ≤ 32 then decode (BitVec.ofNat 32 (w % 2 ^ nbits)) else none

end Sys2Proof
end

