-- ==== Sys2Proof/Config.lean ====
section
/-! DEFINITION. The parameters the spec leaves OPEN (00_scope.md R5, 20_memory.md R57). A machine's parameters stand in
State (`State.params`), where no step writes them, so that every statement about every state is a statement about
every value of them (log entry 3). The spec leaves no value free (93_implementation_defined.md), so nothing here is
opaque. -/

namespace Sys2Proof

/-- The parameters of one machine (00_scope.md R5). MUL_SPARSE_FIXED and MUL_SPARSE_ARB are timing only and change no
result (10_state.md R41), so they are not here. -/
structure Params where
  /-- MAX_WORDS, the most word pairs a trit array may have (R5, 43_arbitrary_precision.md R205) -/
  maxWords : Nat
  /-- MAX_SHIFT, the ceiling of an arbitrary-precision left shift in trits (R5, 43_arbitrary_precision.md R198) -/
  maxShift : Nat
  /-- FIFO_DEPTH, the most entries of the byte FIFO and of the symbol FIFO (R5, 10_state.md R39) -/
  fifoDepth : Nat
  /-- HOST_BASE, where the host register map lies in the host's own address space (20_memory.md R57) -/
  hostBase : Nat
  deriving DecidableEq, Repr

/-- The defaults of R5. R57 gives HOST_BASE no default; 0 is a DESIGN CHOICE (log entry 3, unsafe only for a statement
that rests on the value). -/
def Params.default : Params := ⟨32768, 2 ^ 20, 16, 0⟩

/-- The ranges R5 gives: MAX_WORDS is at least 2 and FIFO_DEPTH is 2 to 255. -/
def Params.legal (p : Params) : Bool :=
  decide (2 ≤ p.maxWords) && decide (2 ≤ p.fifoDepth) && decide (p.fifoDepth ≤ 255)

end Sys2Proof
end

