-- ==== Sys2Proof/Machine/State.lean ====
section
/-! DEFINITION. The engine's architectural state (10_state.md R20 to R42), the host port's pending events, and the
reset state. -/

namespace Sys2Proof.Machine

/-- A word pair: 64 trits, one bit of each in `neg` and in `pos`, trit i in bit i (10_state.md R21, R24). -/
structure WordPair where
  neg : TritBits
  pos : TritBits
  deriving DecidableEq, Repr

/-- The word pair of 64 zero trits. -/
def WordPair.zero : WordPair := ⟨0, 0⟩

/-- A trit array (n, L, words): `len` is the logical trit count L, `words` are the n word pairs, word 0 first
(10_state.md R25). The word count n is the length of the list. -/
structure TritArray where
  len : Nat
  words : List WordPair
  deriving DecidableEq, Repr

/-- The word count n of a trit array (10_state.md R25). -/
def TritArray.wordCount (a : TritArray) : Nat := a.words.length

/-- EMPTY: zero words, length 0 (00_scope.md R9). -/
def TritArray.empty : TritArray := ⟨0, []⟩

/-- Z1: one word, length 0, the zero form of the shifts (00_scope.md R9, 10_state.md R27). -/
def TritArray.z1 : TritArray := ⟨0, [WordPair.zero]⟩

/-- The carry trit CF, held as the two bits CF.N and CF.P (10_state.md R30). -/
structure CarryTrit where
  n : Bool
  p : Bool
  deriving DecidableEq, Repr

/-- The fault record: STATUS.FAULT, STATUS.ECODE and ECMD (10_state.md R32, R33). -/
structure FaultRecord where
  fault : Bool
  ecode : BitVec 8
  ecmd : Word
  deriving DecidableEq, Repr

/-- The fault record when no fault is recorded (10_state.md R32, R33, R42). -/
def FaultRecord.clear : FaultRecord := ⟨false, 0, 0⟩

/-- The encoder: EOFF and EACC at the widths of the ENCST fields, and the byte FIFO BF, oldest byte first
(10_state.md R35, R39). -/
structure Encoder where
  off : BitVec 3
  acc : BitVec 8
  fifo : List Byte
  deriving DecidableEq, Repr

/-- The decoder: DOFF and DPEND at the widths of the DECST fields, and the symbol FIFO SF, oldest symbol first
(10_state.md R36, R39). -/
structure Decoder where
  off : BitVec 2
  pend : BitVec 8
  fifo : List Int
  deriving DecidableEq, Repr

/-- One thing the world outside does to the engine. Addresses are byte addresses of the host's own address space, in
which the register map lies at HOST_BASE (20_memory.md R50, R57); `width` is in bits, `data` is the 32 bits a write
carries (70_reset_and_hazards.md R335). -/
inductive HostEvent where
  /-- a host write access (20_memory.md R52, R54, R55) -/
  | write (addr width : Nat) (data : Word)
  /-- a host read access (20_memory.md R52, R55) -/
  | read (addr width : Nat)
  /-- the platform asserts the reset input (70_reset_and_hazards.md R330) -/
  | assertReset
  /-- the platform releases the reset input (70_reset_and_hazards.md R330) -/
  | releaseReset
  deriving DecidableEq, Repr

/-- The whole state. The fields from `x` to `dec` are the engine's (10_state.md R42); `params`, `port`, `rdata` and
`resetAsserted` are the model's own (log entries 1 to 4). -/
structure State where
  /-- the machine's parameters, never written by a step (log entry 3) -/
  params : Params
  /-- X0 to X15 (10_state.md R23) -/
  x : Vector Scalar 16
  /-- P0 to P15 (10_state.md R24) -/
  p : Vector WordPair 16
  /-- T0 to T15 (10_state.md R25) -/
  t : Vector TritArray 16
  /-- CF (10_state.md R30) -/
  cf : CarryTrit
  /-- STATUS and ECMD (10_state.md R32, R33) -/
  faultRec : FaultRecord
  /-- CFG.F0F, the offset-0 flush policy (10_state.md R37) -/
  f0f : Bool
  /-- EOFF, EACC and the byte FIFO (10_state.md R35, R39) -/
  enc : Encoder
  /-- DOFF, DPEND and the symbol FIFO (10_state.md R36, R39) -/
  dec : Decoder
  /-- what the last host read returned (log entry 2) -/
  rdata : Word
  /-- the level of the reset input (70_reset_and_hazards.md R330, log entry 4) -/
  resetAsserted : Bool
  /-- the events to come, the next one first (log entry 1) -/
  port : List HostEvent
  deriving DecidableEq, Repr

/-- Why the machine would stop with a fault: never. The spec's faults are recorded in STATUS and ECMD and the machine
goes on (60_exceptions.md R302), so the type has no constructor, and no step can end in one. -/
inductive Fault where
  deriving DecidableEq, Repr

/-- Why the machine would refuse. -/
inductive Refusal where
  /-- Raised only by an arm of `exec` for a command that has no meaning yet; no arm raises it. Safe: the model stops
  where the hardware goes on. -/
  | notModelled (mnemonic : String)
  deriving DecidableEq, Repr

/-- The outcome of a step of this machine. -/
abbrev Outcome := Host.Outcome State Fault Refusal

/-- The fault codes of the engine (60_exceptions.md R300). -/
inductive ErrorCode where
  /-- E_ILLEGAL, not a legal encoding -/
  | illegal
  /-- E_BOUNDS, an index or a splice range out of bounds -/
  | bounds
  /-- E_ARGRANGE, a negative length -/
  | argRange
  /-- E_TABLE, a lookup table of the wrong shape -/
  | table
  /-- E_SHIFT, a left shift beyond MAX_SHIFT -/
  | shift
  /-- E_DOMAIN, an operand outside its domain -/
  | domain
  /-- E_OVERFLOW, a conversion that does not fit -/
  | overflow
  /-- E_CAPACITY, a result of more than MAX_WORDS word pairs -/
  | capacity
  /-- E_INVALID, a position set in both vectors -/
  | invalid
  /-- E_CODEC, a byte the decoder cannot decode -/
  | codec
  /-- E_FIFO_FULL, a push into a full FIFO -/
  | fifoFull
  /-- E_FIFO_EMPTY, a pop from an empty FIFO -/
  | fifoEmpty
  /-- E_STATE, ENCHDR with the encoder offset not 0 -/
  | state
  deriving DecidableEq, Repr

/-- The engine right after reset (10_state.md R42), with the default parameters, no event waiting, and the reset input
released. -/
def State.reset : State where
  params := Params.default
  x := Vector.replicate 16 0
  p := Vector.replicate 16 WordPair.zero
  t := Vector.replicate 16 TritArray.empty
  cf := ⟨false, false⟩
  faultRec := FaultRecord.clear
  f0f := false
  enc := ⟨0, 0, []⟩
  dec := ⟨0, 0, []⟩
  rdata := 0
  resetAsserted := false
  port := []

end Sys2Proof.Machine
end

