-- ==== Sys2Proof/Machine/Trits.lean ====
section
/-! DEFINITION. Trits, their values and the number system: the value functions of 00_scope.md R7 to R9, and the
operations on word pairs and trit arrays that several commands share. -/

namespace Sys2Proof.Machine

/-- The canonical trit read: bit i of the positive vector minus bit i of the negative one, the one formula every read
of a trit goes through (00_scope.md R7, 41_dual_bitvector.md R137). -/
def trit (neg pos : TritBits) (i : Nat) : Int :=
  ((pos.getLsbD i).toNat : Int) - ((neg.getLsbD i).toNat : Int)

/-- The value of the trits f 0, …, f (k-1), position 0 the least significant: the sum of f i * 3^i (00_scope.md R8). -/
def tritSum (f : Nat → Int) : Nat → Int
  | 0 => 0
  | k + 1 => tritSum f k + f k * ((3 ^ k : Nat) : Int)

/-- 3^k as an integer. -/
def pow3 (k : Nat) : Int := ((3 ^ k : Nat) : Int)

/-- H_k = (3^k - 1) / 2, the largest k-trit value (00_scope.md R8). -/
def tritMax (k : Nat) : Int := (((3 ^ k - 1) / 2 : Nat) : Int)

/-- bres_k(v), the balanced residue of v modulo 3^k, in [-H_k, H_k] (00_scope.md R8). -/
def balancedResidue (k : Nat) (v : Int) : Int := (v + tritMax k) % pow3 k - tritMax k

/-- The least significant balanced digit of v, in -1, 0, +1 (00_scope.md R8: r = v mod 3, and r = 2 is the digit -1). -/
def lowDigit (v : Int) : Int := if v % 3 = 2 then -1 else v % 3

/-- v without its least significant balanced digit: (v - digit) / 3 (00_scope.md R8). -/
def dropDigit (v : Int) : Int := (v - lowDigit v) / 3

/-- bt_k(v) as two numbers of k bits, the negative vector and the positive one (00_scope.md R8, the digit algorithm). -/
def balancedBits : Nat → Int → Nat × Nat
  | 0, _ => (0, 0)
  | k + 1, v =>
    let high := balancedBits k (dropDigit v)
    ((if lowDigit v = -1 then 1 else 0) + 2 * high.1, (if lowDigit v = 1 then 1 else 0) + 2 * high.2)

/-- bt_k(v) in a word pair, for k at most 64; positions from k on are 0 (00_scope.md R8, R11). -/
def balancedPair (k : Nat) (v : Int) : WordPair :=
  ⟨BitVec.ofNat 64 (balancedBits k v).1, BitVec.ofNat 64 (balancedBits k v).2⟩

/-- The lowest k of the 64 positions, the source's mask (10_state.md R26, 40_register_access.md R107). -/
def lowMask (k : Nat) : TritBits := BitVec.ofNat 64 (2 ^ min k 64 - 1)

/-- Keep the lowest k trits of a word pair and clear the others. -/
def WordPair.keepLow (a : WordPair) (k : Nat) : WordPair := ⟨a.neg &&& lowMask k, a.pos &&& lowMask k⟩

/-- Trit i of a word pair (00_scope.md R7). -/
def WordPair.trit (a : WordPair) (i : Nat) : Int := Machine.trit a.neg a.pos i

/-- val of the lowest k trits of a word pair (00_scope.md R8). -/
def WordPair.val (a : WordPair) (k : Nat) : Int := tritSum a.trit k

/-- The negated word pair: the two vectors swapped (41_dual_bitvector.md R135, R136). -/
def WordPair.swap (a : WordPair) : WordPair := ⟨a.pos, a.neg⟩

/-- Write the trit v, one of -1, 0, +1, at position k: clear both bits, then set the one of v
(41_dual_bitvector.md R131, R133). -/
def WordPair.setTrit (a : WordPair) (k : Nat) (v : Int) : WordPair :=
  let bit : TritBits := 1#64 <<< k
  ⟨(a.neg &&& ~~~bit) ||| (if v = -1 then bit else 0), (a.pos &&& ~~~bit) ||| (if v = 1 then bit else 0)⟩

/-- The number with bit i set exactly when b i, for i below k. -/
def bitsOf (b : Nat → Bool) : Nat → Nat
  | 0 => 0
  | k + 1 => bitsOf b k + (if b k then 2 ^ k else 0)

/-- The word pair whose trit i is f i, for i below 64. -/
def pairOfTrits (f : Nat → Int) : WordPair :=
  ⟨BitVec.ofNat 64 (bitsOf (fun i => f i == -1) 64), BitVec.ofNat 64 (bitsOf (fun i => f i == 1) 64)⟩

/-- The number of set bits of a word (00_scope.md R10). -/
def popcount (w : TritBits) : Nat := (List.range 64).countP fun i => w.getLsbD i

/-- The number of leading zero bits of a 64-bit word, 64 for the word 0 (00_scope.md R10). -/
def lzc64 (w : TritBits) : Nat := if w = 0 then 64 else 63 - w.toNat.log2

/-- ceil(L / 64), the word pairs that L trits take (00_scope.md R9, 10_state.md R28). -/
def wordsFor (len : Nat) : Nat := (len + 63) / 64

/-- Word pair j of a trit array, (0, 0) above its top word: "missing words read as (0, 0)" (43_arbitrary_precision.md
R191). -/
def TritArray.word (a : TritArray) (j : Nat) : WordPair := a.words.getD j WordPair.zero

/-- trit(T, i): 0 above the top word (00_scope.md R10). -/
def TritArray.trit (a : TritArray) (i : Nat) : Int := (a.word (i / 64)).trit (i % 64)

/-- The value of a list of word pairs, word 0 the least significant: the sum of val(word j) * 3^(64j) (00_scope.md R9). -/
def wordsVal : List WordPair → Int
  | [] => 0
  | w :: ws => w.val 64 + pow3 64 * wordsVal ws

/-- tval(T) (00_scope.md R9, 10_state.md R29). -/
def TritArray.tval (a : TritArray) : Int := wordsVal a.words

/-- The trits [0, n) of an array of length `len` that has trit i at position i: n = ceil(len / 64) words, every position
from `len` on 0 (the masking invariant, 10_state.md R26). -/
def arrayOfTrits (len : Nat) (f : Nat → Int) : TritArray :=
  ⟨len, (List.range (wordsFor len)).map fun j => pairOfTrits fun k => if 64 * j + k < len then f (64 * j + k) else 0⟩

/-- The words of the balanced form of v, word 0 first: each takes the low 64 trits of what is left, until nothing is
(00_scope.md R9). The first argument bounds the recursion. -/
def balancedWordsWithin : Nat → Int → List WordPair
  | 0, _ => []
  | fuel + 1, v =>
    if v = 0 then []
    else
      balancedPair 64 (balancedResidue 64 v) :: balancedWordsWithin fuel ((v - balancedResidue 64 v) / pow3 64)

/-- The words of v, without trailing all-zero words; none for 0. Every word taken at least halves what is left, so
log2 |v| + 1 rounds are enough. -/
def balancedWords (v : Int) : List WordPair := balancedWordsWithin (v.natAbs.log2 + 1) v

/-- The length of an array whose top word is not all zero, n * 64 - lzc(neg[n-1] | pos[n-1]), and 0 without words: one
more than the index of the top nonzero trit (00_scope.md R9, 10_state.md R27). -/
def lengthOfWords (ws : List WordPair) : Nat :=
  match ws.getLast? with
  | none => 0
  | some top => 64 * ws.length - lzc64 (top.neg ||| top.pos)

/-- canon(v), the form every arithmetic result takes: EMPTY for 0, else the words of v and the length of the length
invariant (00_scope.md R9, 10_state.md R27). -/
def canon (v : Int) : TritArray := ⟨lengthOfWords (balancedWords v), balancedWords v⟩

/-- canon(v) when v is nonzero and Z1 when it is zero, the form of a shift result (10_state.md R27,
43_arbitrary_precision.md R190). -/
def canonOrZ1 (v : Int) : TritArray := if v = 0 then TritArray.z1 else canon v

/-- The nonzero trits of a trit array (43_arbitrary_precision.md R202). -/
def TritArray.nonzeroTrits (a : TritArray) : Nat := (a.words.map fun w => popcount (w.neg ||| w.pos)).sum

/-- The addition of two W-trit values and a carry trit: the carry out is the unique c with the remainder in [-H_W, H_W]
(42_fixed_width.md R152). Answers the W-trit result and c. -/
def addWithCarry (k : Nat) (a b : WordPair) (cin : Int) : WordPair × Int :=
  let s := a.val k + b.val k + cin
  let c := if tritMax k < s then 1 else if s < -tritMax k then -1 else 0
  (balancedPair k (s - c * pow3 k), c)

/-- mul_W(a, b): the product, wrapped to W trits (42_fixed_width.md R159). -/
def mulWrapped (k : Nat) (a b : WordPair) : WordPair := balancedPair k (balancedResidue k (a.val k * b.val k))

/-- Shift left by an amount k that is not negative: shl_W for k at least 0 (42_fixed_width.md R161). -/
def WordPair.shiftUp (a : WordPair) (width k : Nat) : WordPair :=
  if width ≤ k then WordPair.zero
  else ⟨((a.neg &&& lowMask width) <<< k) &&& lowMask width, ((a.pos &&& lowMask width) <<< k) &&& lowMask width⟩

/-- Shift right by an amount k that is not negative: shr_W for k at least 0 (42_fixed_width.md R161). -/
def WordPair.shiftDown (a : WordPair) (width k : Nat) : WordPair :=
  if width ≤ k then WordPair.zero else ⟨(a.neg &&& lowMask width) >>> k, (a.pos &&& lowMask width) >>> k⟩

/-- shl_W: a negative amount shifts the other way (42_fixed_width.md R161). -/
def WordPair.shl (a : WordPair) (width : Nat) (k : Int) : WordPair :=
  if k < 0 then a.shiftDown width (-k).toNat else a.shiftUp width k.toNat

/-- shr_W: a negative amount shifts the other way (42_fixed_width.md R161). -/
def WordPair.shr (a : WordPair) (width : Nat) (k : Int) : WordPair :=
  if k < 0 then a.shiftUp width (-k).toNat else a.shiftDown width k.toNat

/-- tshl(T, k) for k at least 0 (43_arbitrary_precision.md R197). -/
def TritArray.shiftUp (a : TritArray) (k : Nat) : TritArray := canonOrZ1 (a.tval * pow3 k)

/-- tshr(T, k) for k at least 0: the trits below k are dropped (43_arbitrary_precision.md R197). -/
def TritArray.shiftDown (a : TritArray) (k : Nat) : TritArray :=
  canonOrZ1 (tritSum (fun i => a.trit (k + i)) (64 * a.wordCount - k))

end Sys2Proof.Machine
end

