-- ==== Sys2Proof/Machine/Ops.lean ====
section
/-! DEFINITION. The named operations over the registers, the fault mechanism and the FIFOs. Every meaning reads and
writes State through these. -/

namespace Sys2Proof.Machine

/-- Read X[r] (10_state.md R23). -/
def State.getX (s : State) (r : XReg) : Scalar := s.x.get r

/-- Read P[r] (10_state.md R24). -/
def State.getP (s : State) (r : PReg) : WordPair := s.p.get r

/-- Read T[r] (10_state.md R25). -/
def State.getT (s : State) (r : TReg) : TritArray := s.t.get r

/-- X[r] <- v; no scalar register is hardwired (10_state.md R23). -/
def State.setX (s : State) (r : XReg) (v : Scalar) : State := { s with x := s.x.set r v }

/-- P[r] <- v (10_state.md R24). -/
def State.setP (s : State) (r : PReg) (v : WordPair) : State := { s with p := s.p.set r v }

/-- T[r] <- v; the other T registers keep their words (10_state.md R25). -/
def State.setT (s : State) (r : TReg) (v : TritArray) : State := { s with t := s.t.set r v }

/-- CF <- c (10_state.md R30). -/
def State.setCF (s : State) (c : CarryTrit) : State := { s with cf := c }

/-- Replace the encoder side of the codec (10_state.md R39). -/
def State.setEnc (s : State) (e : Encoder) : State := { s with enc := e }

/-- Replace the decoder side of the codec (10_state.md R39). -/
def State.setDec (s : State) (d : Decoder) : State := { s with dec := d }

/-- Replace the fault record (10_state.md R32, R33). -/
def State.setFaultRec (s : State) (r : FaultRecord) : State := { s with faultRec := r }

/-- CFG.F0F <- b (10_state.md R37). -/
def State.setF0f (s : State) (b : Bool) : State := { s with f0f := b }

/-- An integer result: its 128-bit two's-complement form (10_state.md R23). -/
def scalarOfInt (v : Int) : Scalar := BitVec.ofInt 128 v

/-- Write an integer result to X[r] (10_state.md R23). -/
def State.setXInt (s : State) (r : XReg) (v : Int) : State := s.setX r (scalarOfInt v)

/-- The value STATUS.ECODE takes for a fault (60_exceptions.md R300). -/
def ErrorCode.code : ErrorCode → BitVec 8
  | .illegal => 1
  | .bounds => 2
  | .argRange => 3
  | .table => 4
  | .shift => 5
  | .domain => 6
  | .overflow => 7
  | .capacity => 8
  | .invalid => 9
  | .codec => 10
  | .fifoFull => 11
  | .fifoEmpty => 12
  | .state => 13

/-- Taking a fault, the engine's exception entry: STATUS.FAULT, STATUS.ECODE and ECMD are written and nothing else
(60_exceptions.md R302). -/
def State.raise (s : State) (e : ErrorCode) (cmd : Word) : State := s.setFaultRec ⟨true, e.code, cmd⟩

/-- Clearing the fault record, the engine's "trap return" (60_exceptions.md R305). -/
def State.clearFault (s : State) : State := s.setFaultRec FaultRecord.clear

/-- The command i raises fault e: none of its own writes happen, and ECMD is its command word (60_exceptions.md R302),
which is encode i, since every command has exactly one word (30_encoding.md R80, log entry 9). -/
def State.fail (s : State) (i : Instr) (e : ErrorCode) : Outcome := .next (s.raise e (encode i))

/-- Write a T register after the capacity check, the last check of every command that can grow one: E_CAPACITY when the
result has more than MAX_WORDS word pairs (43_arbitrary_precision.md R205). -/
def State.writeT (s : State) (i : Instr) (d : TReg) (r : TritArray) : Outcome :=
  if s.params.maxWords < r.wordCount then s.fail i .capacity else .next (s.setT d r)

/-- Whether `extra` more entries fit a FIFO that holds `held` (10_state.md R39; log entry 7). -/
def State.fifoHasRoom (s : State) (held extra : Nat) : Bool := decide (held + extra ≤ s.params.fifoDepth)

end Sys2Proof.Machine
end

