-- ==== Sys2Proof/Machine/Operands.lean ====
section
/-! DEFINITION. The operand forms: how a command reads its registers and its immediate (30_encoding.md R76, R77,
00_scope.md R10, R11). -/

namespace Sys2Proof.Machine

/-- sx(r), the integer a scalar operand denotes: all 128 bits, signed (00_scope.md R10, 10_state.md R23). -/
def State.sx (s : State) (r : XReg) : Int := (s.getX r).toInt

/-- X[r][63:0], a raw bit-vector operand (40_register_access.md R103). -/
def State.lowHalf (s : State) (r : XReg) : TritBits := (s.getX r).setWidth 64

/-- sint_N(X[r]): the low N bits, signed (00_scope.md R6, 42_fixed_width.md R167). -/
def State.sintN (s : State) (n : NativeWidth) (r : XReg) : Int := ((s.getX r).setWidth n.bits).toInt

/-- wv_W(P[r]): the low W trits of a word-pair operand (00_scope.md R11, 42_fixed_width.md R150). -/
def State.view (s : State) (w : Width) (r : PReg) : WordPair := (s.getP r).keepLow w.trits

/-- pval_W(P[r]) (00_scope.md R11). -/
def State.pval (s : State) (w : Width) (r : PReg) : Int := (s.getP r).val w.trits

/-- sext_128(IMM16), the one immediate form (30_encoding.md R77). -/
def immValue (imm : BitVec 16) : Scalar := imm.signExtend 128

/-- Whether v fits an N-bit signed integer: -2^(N-1) <= v < 2^(N-1) (42_fixed_width.md R166, 43_arbitrary_precision.md
R203). -/
def fitsNative (n : NativeWidth) (v : Int) : Bool :=
  decide (-((2 ^ (n.bits - 1) : Nat) : Int) ≤ v) && decide (v < ((2 ^ (n.bits - 1) : Nat) : Int))

/-- Whether v has a W-trit representation: -H_W <= v <= H_W (42_fixed_width.md R167). -/
def fitsTrits (w : Width) (v : Int) : Bool := decide (-tritMax w.trits ≤ v) && decide (v ≤ tritMax w.trits)

/-- Whether v is a trit value (41_dual_bitvector.md R131, R133, 42_fixed_width.md R158). -/
def isTrit (v : Int) : Bool := v == -1 || v == 0 || v == 1

/-- Whether i lies in [0, n) (41_dual_bitvector.md R130 to R133, 40_register_access.md R107, R108). -/
def inBounds (i : Int) (n : Nat) : Bool := decide (0 ≤ i) && decide (i < n)

end Sys2Proof.Machine
end

