-- ==== Sys2Proof/Machine/Flags.lean ====
section
/-! DEFINITION. The engine's one flag, the carry trit CF; there is no zero, sign or overflow flag (10_state.md R30, R31). -/

namespace Sys2Proof.Machine

/-- The value of CF: CF.P - CF.N (10_state.md R30). -/
def CarryTrit.value (c : CarryTrit) : Int := (c.p.toNat : Int) - (c.n.toNat : Int)

/-- The two bits of a carry trit: CF.P = 1 iff c = +1, CF.N = 1 iff c = -1 (42_fixed_width.md R156, R158). -/
def carryOf (c : Int) : CarryTrit := ⟨c == -1, c == 1⟩

end Sys2Proof.Machine
end

