-- ==== Sys2Proof/Machine/Arbitrary.lean ====
section
/-! DEFINITION. Arbitrary-precision arithmetic on trit arrays (43_arbitrary_precision.md). A source is read by its value,
results are exact, and CF is neither read nor written (R190). -/

namespace Sys2Proof.Machine

/-- TADD Td, Ta, Tb: the sum; E_CAPACITY (R191). -/
def execTadd (d a b : TReg) (s : State) : Outcome :=
  s.writeT (.tadd d a b) d (canon ((s.getT a).tval + (s.getT b).tval))

/-- TSUB Td, Ta, Tb: the difference; E_CAPACITY (R192). -/
def execTsub (d a b : TReg) (s : State) : Outcome :=
  s.writeT (.tsub d a b) d (canon ((s.getT a).tval - (s.getT b).tval))

/-- TMUL Td, Ta, Tb: the product; E_CAPACITY (R195, R196). -/
def execTmul (d a b : TReg) (s : State) : Outcome :=
  s.writeT (.tmul d a b) d (canon ((s.getT a).tval * (s.getT b).tval))

/-- TSHL Td, Ta, Xb: shift left by the signed amount sx(b); E_SHIFT beyond MAX_SHIFT, whatever the value, then
E_CAPACITY; a negative amount shifts right, without a ceiling (R198). -/
def execTshl (d a : TReg) (b : XReg) (s : State) : Outcome :=
  if 0 ≤ s.sx b then
    if (s.params.maxShift : Int) < s.sx b then s.fail (.tshl d a b) .shift
    else s.writeT (.tshl d a b) d ((s.getT a).shiftUp (s.sx b).toNat)
  else s.writeT (.tshl d a b) d ((s.getT a).shiftDown (-s.sx b).toNat)

/-- TSHR Td, Ta, Xb: shift right by the signed amount sx(b); a negative amount is a left shift and has its ceiling,
E_SHIFT, then E_CAPACITY (R199). -/
def execTshr (d a : TReg) (b : XReg) (s : State) : Outcome :=
  if 0 ≤ s.sx b then s.writeT (.tshr d a b) d ((s.getT a).shiftDown (s.sx b).toNat)
  else if (s.params.maxShift : Int) < -s.sx b then s.fail (.tshr d a b) .shift
  else s.writeT (.tshr d a b) d ((s.getT a).shiftUp (-s.sx b).toNat)

/-- TTRIM Td, Ta: the canonical form of the value (R200). -/
def execTtrim (d a : TReg) (s : State) : Outcome := .next (s.setT d (canon (s.getT a).tval))

/-- TISZ Xd, Ta: 1 when the value is 0, else 0 (R201). -/
def execTisz (d : XReg) (a : TReg) (s : State) : Outcome :=
  .next (s.setXInt d (if (s.getT a).tval = 0 then 1 else 0))

/-- TCNT Xd, Ta: the nonzero trits (R202). -/
def execTcnt (d : XReg) (a : TReg) (s : State) : Outcome := .next (s.setXInt d (s.getT a).nonzeroTrits)

/-- TTOINT.n Xd, Ta: the value; E_OVERFLOW when it does not fit N bits (R203). -/
def execTtoint (n : NativeWidth) (d : XReg) (a : TReg) (s : State) : Outcome :=
  if !fitsNative n (s.getT a).tval then s.fail (.ttoint n d a) .overflow
  else .next (s.setXInt d (s.getT a).tval)

/-- TFROMINT.n Td, Xa: the low N bits of X[a], signed; at most 81 trits, so no capacity check (R204). -/
def execTfromint (n : NativeWidth) (d : TReg) (a : XReg) (s : State) : Outcome :=
  .next (s.setT d (canon (s.sintN n a)))

end Sys2Proof.Machine
end

