-- ==== Sys2Proof/Machine/Codec.lean ====
section
/-! DEFINITION. The binary trit codec: the step functions of 45_stream_codec.md section 1 and 3 on numbers, and the codec
commands. -/

namespace Sys2Proof.Machine

/-- One encoder step: fold the biased symbol u into p pending digits of value acc; at p at least 2 a data byte comes out
(R251). Answers the new offset, the new accumulator and the bytes. -/
def encStep (p acc u : Nat) : Nat × Nat × List Nat :=
  let t := acc + u * 3 ^ p
  if 5 ≤ p + 3 then (p - 2, t / 243, [t % 243]) else (p + 3, t, [])

/-- The byte that closes a partial group: none at offset 0, a data byte at 3 and 4, a terminator at 1 and 2 (R253). -/
def encFlush (p acc : Nat) : List Nat := if p = 0 then [] else if 3 ≤ p then [acc] else [255 - acc]

/-- The symbols of k digits of value t, three digits each, and the digits left over: the loop of R256. The first argument
bounds its rounds. -/
def takeSymbols : Nat → Nat → Nat → Nat × Nat × List Int
  | 0, k, t => (k, t, [])
  | fuel + 1, k, t =>
    if 3 ≤ k then
      let rest := takeSymbols fuel (k - 3) (t / 27)
      (rest.1, rest.2.1, (((t % 27 : Nat) : Int) - 13) :: rest.2.2)
    else (k, t, [])

/-- A data byte b at decoder offset q: the new offset, the new pending digits and the symbols (R256). Five more digits on
at most three held make at most two symbols. -/
def decData (q pend b : Nat) : Nat × Nat × List Int := takeSymbols 3 (q + 5) (pend + b * 3 ^ q)

/-- A terminator byte b at decoder offset q: nothing or E_CODEC at offset 0, else the last symbol, or E_CODEC for a value
the encoder cannot emit there (R258). -/
def decTerminator (f0f : Bool) (q pend b : Nat) : Except ErrorCode (Nat × Nat × List Int) :=
  let t := 255 - b
  if q = 0 then if f0f then .error .codec else .ok (0, 0, [])
  else if 3 ^ (3 - q) ≤ t then .error .codec
  else .ok (0, 0, [((pend + t * 3 ^ q : Nat) : Int) - 13])

/-- One byte through the decoder by its class: data below 243, 243 unassigned, 244 and 245 markers, terminators above
(R256 to R260, R267). -/
def decByte (f0f : Bool) (q pend b : Nat) : Except ErrorCode (Nat × Nat × List Int) :=
  if b < 243 then .ok (decData q pend b)
  else if b = 243 then .error .codec
  else if b ≤ 245 then .ok (0, 0, [])
  else decTerminator f0f q pend b

/-- Push bytes in order and set the encoder's offset and accumulator (R252 to R254). -/
def State.encPush (s : State) (p acc : Nat) (out : List Nat) : State :=
  s.setEnc ⟨BitVec.ofNat 3 p, BitVec.ofNat 8 acc, s.enc.fifo ++ out.map (BitVec.ofNat 8)⟩

/-- Push symbols in order and set the decoder's offset and pending digits (R260). -/
def State.decPush (s : State) (q pend : Nat) (out : List Int) : State :=
  s.setDec ⟨BitVec.ofNat 2 q, BitVec.ofNat 8 pend, s.dec.fifo ++ out⟩

/-- ENCSYM Xa: encode the symbol sx(a); E_DOMAIN, then E_FIFO_FULL when a byte comes out and has no room (R252). -/
def execEncsym (a : XReg) (s : State) : Outcome :=
  if s.sx a < -13 ∨ 13 < s.sx a then s.fail (.encsym a) .domain
  else
    let r := encStep s.enc.off.toNat s.enc.acc.toNat (s.sx a + 13).toNat
    if r.2.2 ≠ [] ∧ ¬s.fifoHasRoom s.enc.fifo.length r.2.2.length then s.fail (.encsym a) .fifoFull
    else .next (s.encPush r.1 r.2.1 r.2.2)

/-- ENCEND: flush the partial group, whatever the accumulator holds; E_FIFO_FULL (R253). -/
def execEncend (s : State) : Outcome :=
  let out := encFlush s.enc.off.toNat s.enc.acc.toNat
  if out ≠ [] ∧ ¬s.fifoHasRoom s.enc.fifo.length out.length then s.fail .encend .fifoFull
  else .next (s.encPush 0 0 out)

/-- ENCHDR: push 245, 244; E_STATE inside a group, then E_FIFO_FULL (R254). -/
def execEnchdr (s : State) : Outcome :=
  if s.enc.off ≠ 0 then s.fail .enchdr .state
  else if ¬s.fifoHasRoom s.enc.fifo.length 2 then s.fail .enchdr .fifoFull
  else .next (s.setEnc { s.enc with fifo := s.enc.fifo ++ [245, 244] })

/-- ENCRST: discard the pending digits and the unread bytes (R255). -/
def execEncrst (s : State) : Outcome := .next (s.setEnc ⟨0, 0, []⟩)

/-- DECBYTE Xa: decode the byte sx(a); E_DOMAIN, then E_CODEC, then E_FIFO_FULL when the symbols have no room (R260). -/
def execDecbyte (a : XReg) (s : State) : Outcome :=
  if s.sx a < 0 ∨ 255 < s.sx a then s.fail (.decbyte a) .domain
  else
    match decByte s.f0f s.dec.off.toNat s.dec.pend.toNat (s.sx a).toNat with
    | .error e => s.fail (.decbyte a) e
    | .ok r =>
      if ¬s.fifoHasRoom s.dec.fifo.length r.2.2.length then s.fail (.decbyte a) .fifoFull
      else .next (s.decPush r.1 r.2.1 r.2.2)

/-- DECEND: discard the pending digits; no symbol is pushed (R261). -/
def execDecend (s : State) : Outcome := .next (s.setDec { s.dec with off := 0, pend := 0 })

/-- DECRST: discard the pending digits and the unread symbols (R262). -/
def execDecrst (s : State) : Outcome := .next (s.setDec ⟨0, 0, []⟩)

/-- BPOP Xd: take the oldest byte, zero-extended; E_FIFO_EMPTY (R263). -/
def execBpop (d : XReg) (s : State) : Outcome :=
  match s.enc.fifo with
  | [] => s.fail (.bpop d) .fifoEmpty
  | b :: rest => .next ((s.setX d (b.setWidth 128)).setEnc { s.enc with fifo := rest })

/-- SPOP Xd: take the oldest symbol, sign-extended; E_FIFO_EMPTY (R264). -/
def execSpop (d : XReg) (s : State) : Outcome :=
  match s.dec.fifo with
  | [] => s.fail (.spop d) .fifoEmpty
  | v :: rest => .next ((s.setXInt d v).setDec { s.dec with fifo := rest })

/-- BCNT Xd: the number of bytes in BF (R265). -/
def execBcnt (d : XReg) (s : State) : Outcome := .next (s.setXInt d s.enc.fifo.length)

/-- SCNT Xd: the number of symbols in SF (R266). -/
def execScnt (d : XReg) (s : State) : Outcome := .next (s.setXInt d s.dec.fifo.length)

end Sys2Proof.Machine
end

