-- ==== Sys2Proof/Machine/DualBitvector.lean ====
section
/-! DEFINITION. The dual-bitvector commands: trit access, digit_to_bits and negation (41_dual_bitvector.md). -/

namespace Sys2Proof.Machine

/-- WGET.w Xd, Pa, Xb: trit sx(b) of a word pair; E_BOUNDS outside [0, W) (R130). -/
def execWget (w : Width) (d : XReg) (a : PReg) (b : XReg) (s : State) : Outcome :=
  if !inBounds (s.sx b) w.trits then s.fail (.wget w d a b) .bounds
  else .next (s.setXInt d ((s.getP a).trit (s.sx b).toNat))

/-- WSET.w Pd, Xa, Xb: write trit sx(a) of the W-trit view; E_BOUNDS, then E_DOMAIN (R131). -/
def execWset (w : Width) (d : PReg) (a b : XReg) (s : State) : Outcome :=
  if !inBounds (s.sx a) w.trits then s.fail (.wset w d a b) .bounds
  else if !isTrit (s.sx b) then s.fail (.wset w d a b) .domain
  else .next (s.setP d ((s.view w d).setTrit (s.sx a).toNat (s.sx b)))

/-- TGET Xd, Ta, Xb: trit sx(b) of an array; E_BOUNDS outside [0, L) (R132). -/
def execTget (d : XReg) (a : TReg) (b : XReg) (s : State) : Outcome :=
  if !inBounds (s.sx b) (s.getT a).len then s.fail (.tget d a b) .bounds
  else .next (s.setXInt d ((s.getT a).trit (s.sx b).toNat))

/-- TSET Td, Xa, Xb: write trit sx(a) of an array, n and L unchanged; E_BOUNDS, then E_DOMAIN (R133). -/
def execTset (d : TReg) (a b : XReg) (s : State) : Outcome :=
  if !inBounds (s.sx a) (s.getT d).len then s.fail (.tset d a b) .bounds
  else if !isTrit (s.sx b) then s.fail (.tset d a b) .domain
  else
    .next (s.setT d { s.getT d with
      words := (s.getT d).words.set ((s.sx a).toNat / 64)
        (((s.getT d).word ((s.sx a).toNat / 64)).setTrit ((s.sx a).toNat % 64) (s.sx b)) })

/-- WDIG Pd, Xa: digit_to_bits, the six-trit pattern of a value in [-364, 364]; E_DOMAIN outside (R134). -/
def execWdig (d : PReg) (a : XReg) (s : State) : Outcome :=
  if s.sx a < -364 ∨ 364 < s.sx a then s.fail (.wdig d a) .domain
  else .next (s.setP d (balancedPair 6 (s.sx a)))

/-- WNEG.w Pd, Pa: the two vectors of the W-trit view swapped (R135). -/
def execWneg (w : Width) (d a : PReg) (s : State) : Outcome := .next (s.setP d (s.view w a).swap)

/-- TNEG Td, Ta: the two vectors of every word swapped, n and L kept (R136). -/
def execTneg (d a : TReg) (s : State) : Outcome :=
  .next (s.setT d { s.getT a with words := (s.getT a).words.map WordPair.swap })

end Sys2Proof.Machine
end

