-- ==== Sys2Proof/Machine/FixedWidth.lean ====
section
/-! DEFINITION. Fixed-width arithmetic on word pairs (42_fixed_width.md). Only the low W bits of each source half are
read, and bits 63:W of a result are zero (R150). -/

namespace Sys2Proof.Machine

/-- WADD.w Pd, Pa, Pb: the sum, wrapped; the carry is lost and CF unchanged (R154). -/
def execWadd (w : Width) (d a b : PReg) (s : State) : Outcome :=
  .next (s.setP d (addWithCarry w.trits (s.getP a) (s.getP b) 0).1)

/-- WSUB.w Pd, Pa, Pb: add with the vectors of the subtrahend swapped (R155). -/
def execWsub (w : Width) (d a b : PReg) (s : State) : Outcome :=
  .next (s.setP d (addWithCarry w.trits (s.getP a) (s.view w b).swap 0).1)

/-- WADDC.w Pd, Pa, Pb: add with CF in, and CF written with the carry out, also when it is 0 (R156). -/
def execWaddc (w : Width) (d a b : PReg) (s : State) : Outcome :=
  let r := addWithCarry w.trits (s.getP a) (s.getP b) s.cf.value
  .next ((s.setP d r.1).setCF (carryOf r.2))

/-- CFRD Xd: the carry trit as an integer (R157). -/
def execCfrd (d : XReg) (s : State) : Outcome := .next (s.setXInt d s.cf.value)

/-- CFWR Xa: write the carry trit; E_DOMAIN for a value that is no trit (R158). -/
def execCfwr (a : XReg) (s : State) : Outcome :=
  if !isTrit (s.sx a) then s.fail (.cfwr a) .domain else .next (s.setCF (carryOf (s.sx a)))

/-- WMUL.w Pd, Pa, Pb: the product, wrapped (R159, R160). -/
def execWmul (w : Width) (d a b : PReg) (s : State) : Outcome :=
  .next (s.setP d (mulWrapped w.trits (s.getP a) (s.getP b)))

/-- WSHL.w Pd, Pa, Xb: shift left by the signed amount sx(b) (R161, R162). -/
def execWshl (w : Width) (d a : PReg) (b : XReg) (s : State) : Outcome :=
  .next (s.setP d ((s.getP a).shl w.trits (s.sx b)))

/-- WSHR.w Pd, Pa, Xb: shift right by the signed amount sx(b) (R161, R163). -/
def execWshr (w : Width) (d a : PReg) (b : XReg) (s : State) : Outcome :=
  .next (s.setP d ((s.getP a).shr w.trits (s.sx b)))

/-- WTOINT.w.n Xd, Pa: the value of the pair; E_OVERFLOW when it does not fit N bits (R166). -/
def execWtoint (w : Width) (n : NativeWidth) (d : XReg) (a : PReg) (s : State) : Outcome :=
  if !fitsNative n (s.pval w a) then s.fail (.wtoint w n d a) .overflow
  else .next (s.setXInt d (s.pval w a))

/-- WFROMINT.w.n Pd, Xa: the W trits of the low N bits of X[a], signed; E_OVERFLOW when there are none (R167). -/
def execWfromint (w : Width) (n : NativeWidth) (d : PReg) (a : XReg) (s : State) : Outcome :=
  if !fitsTrits w (s.sintN n a) then s.fail (.wfromint w n d a) .overflow
  else .next (s.setP d (balancedPair w.trits (s.sintN n a)))

/-- WCNT.w Xd, Pa: the nonzero trits of the W-trit view (R168). -/
def execWcnt (w : Width) (d : XReg) (a : PReg) (s : State) : Outcome :=
  .next (s.setXInt d (popcount ((s.view w a).neg ||| (s.view w a).pos)))

end Sys2Proof.Machine
end

