-- ==== Sys2Proof/Machine/RegisterAccess.lean ====
section
/-! DEFINITION. The register access commands (40_register_access.md). Sources are read before the destination is written
(R100): every meaning computes its result from the state it is given. -/

namespace Sys2Proof.Machine

/-- NOP has no effect (R101). -/
def execNop (s : State) : Outcome := .next s

/-- XLI Xd, imm16: X[d] <- sext_128(imm16) (R102). -/
def execXli (d : XReg) (imm : BitVec 16) (s : State) : Outcome := .next (s.setX d (immValue imm))

/-- WPACK Pd, Xa, Xb: E_INVALID when some bit is set in both vectors (R103). -/
def execWpack (d : PReg) (a b : XReg) (s : State) : Outcome :=
  if s.lowHalf a &&& s.lowHalf b ≠ 0 then s.fail (.wpack d a b) .invalid
  else .next (s.setP d ⟨s.lowHalf a, s.lowHalf b⟩)

/-- WRDN Xd, Pa: the negative vector, zero-extended (R104). -/
def execWrdn (d : XReg) (a : PReg) (s : State) : Outcome := .next (s.setX d ((s.getP a).neg.setWidth 128))

/-- WRDP Xd, Pa: the positive vector, zero-extended (R105). -/
def execWrdp (d : XReg) (a : PReg) (s : State) : Outcome := .next (s.setX d ((s.getP a).pos.setWidth 128))

/-- TALLOC Td, Xa: an all-zero array of length sx(a); E_ARGRANGE, then E_CAPACITY (R106). -/
def execTalloc (d : TReg) (a : XReg) (s : State) : Outcome :=
  if s.sx a < 0 then s.fail (.talloc d a) .argRange
  else if s.params.maxWords < wordsFor (s.sx a).toNat then s.fail (.talloc d a) .capacity
  else .next (s.setT d ⟨(s.sx a).toNat, List.replicate (wordsFor (s.sx a).toNat) WordPair.zero⟩)

/-- TWRW Td, Xa, Pb: write word sx(a) under the mask of the L - 64j valid positions; E_BOUNDS outside [0, n) (R107). -/
def execTwrw (d : TReg) (a : XReg) (b : PReg) (s : State) : Outcome :=
  if !inBounds (s.sx a) (s.getT d).wordCount then s.fail (.twrw d a b) .bounds
  else
    .next (s.setT d { s.getT d with
      words := (s.getT d).words.set (s.sx a).toNat ((s.getP b).keepLow ((s.getT d).len - 64 * (s.sx a).toNat)) })

/-- TRDW Pd, Ta, Xb: read word sx(b); E_BOUNDS outside [0, n) (R108). -/
def execTrdw (d : PReg) (a : TReg) (b : XReg) (s : State) : Outcome :=
  if !inBounds (s.sx b) (s.getT a).wordCount then s.fail (.trdw d a b) .bounds
  else .next (s.setP d ((s.getT a).word (s.sx b).toNat))

/-- TLEN Xd, Ta: the logical length L (R109). -/
def execTlen (d : XReg) (a : TReg) (s : State) : Outcome := .next (s.setXInt d (s.getT a).len)

/-- TNW Xd, Ta: the word count n (R110). -/
def execTnw (d : XReg) (a : TReg) (s : State) : Outcome := .next (s.setXInt d (s.getT a).wordCount)

/-- TMOV Td, Ta: copy n, L and all words (R111). -/
def execTmov (d a : TReg) (s : State) : Outcome := .next (s.setT d (s.getT a))

/-- TFROMW.w Td, Pa: an array of exactly W trits in one word, not trimmed (R112). -/
def execTfromw (w : Width) (d : TReg) (a : PReg) (s : State) : Outcome := .next (s.setT d ⟨w.trits, [s.view w a]⟩)

/-- XMOV Xd, Xa (R113). -/
def execXmov (d a : XReg) (s : State) : Outcome := .next (s.setX d (s.getX a))

/-- PMOV Pd, Pa: all 64 bits of both halves (R114). -/
def execPmov (d a : PReg) (s : State) : Outcome := .next (s.setP d (s.getP a))

end Sys2Proof.Machine
end

