-- ==== Sys2Proof/Machine/Splice.lean ====
section
/-! DEFINITION. The range splicer (44_range_splicer.md). -/

namespace Sys2Proof.Machine

/-- A bound of a splice: a negative one counts from the end (R231). -/
def resolveBound (x : Int) (len : Nat) : Int := if x < 0 then x + len else x

/-- TSPLICE Td, Ta, Xb, Xc: the trits [start, end), not trimmed; E_BOUNDS unless 0 <= start <= end <= L after both bounds
are resolved (R230, R231). -/
def execTsplice (d a : TReg) (b c : XReg) (s : State) : Outcome :=
  let len := (s.getT a).len
  let start := resolveBound (s.sx b) len
  let stop := resolveBound (s.sx c) len
  if ¬(0 ≤ start ∧ start ≤ stop ∧ stop ≤ len) then s.fail (.tsplice d a b c) .bounds
  else if stop - start = 0 then .next (s.setT d TritArray.empty)
  else .next (s.setT d (arrayOfTrits (stop - start).toNat fun i => (s.getT a).trit (start.toNat + i)))

end Sys2Proof.Machine
end

