-- ==== Sys2Proof/Machine/TableMap.lean ====
section
/-! DEFINITION. The trit-wise table commands (46_tritwise_tables.md). A table is a T register of exactly 3 or 9 trits,
entry k its trit k; its word count is not checked (R240, R242). -/

namespace Sys2Proof.Machine

/-- Trit i of a source that reads 0 at and above its length (46_tritwise_tables.md R241). -/
def TritArray.tritBelowLen (a : TritArray) (i : Nat) : Int := if i < a.len then a.trit i else 0

/-- TMAP1 Td, Ta, Tb: every trit through the unary table f, f[0] the image of -1; E_TABLE unless the table has 3 trits
(R240). -/
def execTmap1 (d a b : TReg) (s : State) : Outcome :=
  if (s.getT b).len ≠ 3 then s.fail (.tmap1 d a b) .table
  else .next (s.setT d (arrayOfTrits (s.getT a).len fun i => (s.getT b).trit ((s.getT a).trit i + 1).toNat))

/-- TMAP2 Td, Ta, Tb, Tc: the trits of both operands, position by position, through the row-major binary table g,
g[3 (x + 1) + (y + 1)] = f(x, y); E_TABLE unless the table has 9 trits (R241). -/
def execTmap2 (d a b c : TReg) (s : State) : Outcome :=
  if (s.getT c).len ≠ 9 then s.fail (.tmap2 d a b c) .table
  else
    .next (s.setT d (arrayOfTrits (max (s.getT a).len (s.getT b).len) fun i =>
      (s.getT c).trit (3 * ((s.getT a).tritBelowLen i + 1) + ((s.getT b).tritBelowLen i + 1)).toNat))

end Sys2Proof.Machine
end

