-- ==== Sys2Proof/Machine/Dispatch.lean ====
section
/-! DEFINITION. What each command does, one arm per constructor of Instr. -/

namespace Sys2Proof.Machine

def exec (i : Instr) (s : State) : Host.Outcome State Fault Refusal :=
  match i with
  | .nop => Sys2Proof.Machine.execNop s
  | .xli d imm => Sys2Proof.Machine.execXli d imm s
  | .wpack d a b => Sys2Proof.Machine.execWpack d a b s
  | .wrdn d a => Sys2Proof.Machine.execWrdn d a s
  | .wrdp d a => Sys2Proof.Machine.execWrdp d a s
  | .talloc d a => Sys2Proof.Machine.execTalloc d a s
  | .twrw d a b => Sys2Proof.Machine.execTwrw d a b s
  | .trdw d a b => Sys2Proof.Machine.execTrdw d a b s
  | .tlen d a => Sys2Proof.Machine.execTlen d a s
  | .tnw d a => Sys2Proof.Machine.execTnw d a s
  | .tmov d a => Sys2Proof.Machine.execTmov d a s
  | .tfromw w d a => Sys2Proof.Machine.execTfromw w d a s
  | .xmov d a => Sys2Proof.Machine.execXmov d a s
  | .pmov d a => Sys2Proof.Machine.execPmov d a s
  | .wget w d a b => Sys2Proof.Machine.execWget w d a b s
  | .wset w d a b => Sys2Proof.Machine.execWset w d a b s
  | .tget d a b => Sys2Proof.Machine.execTget d a b s
  | .tset d a b => Sys2Proof.Machine.execTset d a b s
  | .wdig d a => Sys2Proof.Machine.execWdig d a s
  | .wneg w d a => Sys2Proof.Machine.execWneg w d a s
  | .tneg d a => Sys2Proof.Machine.execTneg d a s
  | .wadd w d a b => Sys2Proof.Machine.execWadd w d a b s
  | .wsub w d a b => Sys2Proof.Machine.execWsub w d a b s
  | .waddc w d a b => Sys2Proof.Machine.execWaddc w d a b s
  | .wmul w d a b => Sys2Proof.Machine.execWmul w d a b s
  | .wshl w d a b => Sys2Proof.Machine.execWshl w d a b s
  | .wshr w d a b => Sys2Proof.Machine.execWshr w d a b s
  | .wtoint w n d a => Sys2Proof.Machine.execWtoint w n d a s
  | .wfromint w n d a => Sys2Proof.Machine.execWfromint w n d a s
  | .wcnt w d a => Sys2Proof.Machine.execWcnt w d a s
  | .cfrd d => Sys2Proof.Machine.execCfrd d s
  | .cfwr a => Sys2Proof.Machine.execCfwr a s
  | .tadd d a b => Sys2Proof.Machine.execTadd d a b s
  | .tsub d a b => Sys2Proof.Machine.execTsub d a b s
  | .tmul d a b => Sys2Proof.Machine.execTmul d a b s
  | .tshl d a b => Sys2Proof.Machine.execTshl d a b s
  | .tshr d a b => Sys2Proof.Machine.execTshr d a b s
  | .ttrim d a => Sys2Proof.Machine.execTtrim d a s
  | .tisz d a => Sys2Proof.Machine.execTisz d a s
  | .tcnt d a => Sys2Proof.Machine.execTcnt d a s
  | .ttoint n d a => Sys2Proof.Machine.execTtoint n d a s
  | .tfromint n d a => Sys2Proof.Machine.execTfromint n d a s
  | .tsplice d a b c => Sys2Proof.Machine.execTsplice d a b c s
  | .encsym a => Sys2Proof.Machine.execEncsym a s
  | .encend => Sys2Proof.Machine.execEncend s
  | .enchdr => Sys2Proof.Machine.execEnchdr s
  | .encrst => Sys2Proof.Machine.execEncrst s
  | .decbyte a => Sys2Proof.Machine.execDecbyte a s
  | .decend => Sys2Proof.Machine.execDecend s
  | .decrst => Sys2Proof.Machine.execDecrst s
  | .bpop d => Sys2Proof.Machine.execBpop d s
  | .spop d => Sys2Proof.Machine.execSpop d s
  | .bcnt d => Sys2Proof.Machine.execBcnt d s
  | .scnt d => Sys2Proof.Machine.execScnt d s
  | .tmap1 d a b => Sys2Proof.Machine.execTmap1 d a b s
  | .tmap2 d a b c => Sys2Proof.Machine.execTmap2 d a b c s

end Sys2Proof.Machine
end

