-- ==== Sys2Proof/Machine/HostMap.lean ====
section
/-! DEFINITION. The host register map: which register an access names, what a read returns and what a write to any register
but CMD does (20_memory.md, 10_state.md R32 to R38). -/

namespace Sys2Proof.Machine

/-- The registers of the host map (20_memory.md R50). -/
inductive MapReg where
  | cmd
  | status
  | ecmd
  | cf
  | encst
  | decst
  | cfg
  | fifolvl
  | reserved
  /-- word k of X_i -/
  | xWord (i : XReg) (k : Fin 4)
  deriving DecidableEq, Repr

/-- The register at a byte offset of the map, `none` at an offset that is no multiple of 4 or lies outside 0x000 to 0x1FF
(20_memory.md R50, R52). -/
def mapRegAt (off : Nat) : Option MapReg :=
  if off % 4 ≠ 0 ∨ 0x200 ≤ off then none
  else if 0x100 ≤ off then some (.xWord (Fin.ofNat 16 ((off - 0x100) / 16)) (Fin.ofNat 4 (off / 4)))
  else
    match off with
    | 0x000 => some .cmd
    | 0x004 => some .status
    | 0x008 => some .ecmd
    | 0x00C => some .cf
    | 0x010 => some .encst
    | 0x014 => some .decst
    | 0x018 => some .cfg
    | 0x01C => some .fifolvl
    | _ => some .reserved

/-- The register an access performs on, `none` for an access that is not performed: not 32 bits wide, not aligned or
outside the map, which lies at HOST_BASE (20_memory.md R52, R57; log entries 5 and 6). -/
def State.accessReg (s : State) (addr width : Nat) : Option MapReg :=
  if width = 32 ∧ s.params.hostBase ≤ addr then mapRegAt (addr - s.params.hostBase) else none

/-- STATUS as a word: FAULT in bit 0, ECODE in bits 15:8 (10_state.md R32). -/
def State.statusWord (s : State) : Word := 0#16 ++ s.faultRec.ecode ++ 0#7 ++ BitVec.ofBool s.faultRec.fault

/-- CF as a word: CF.P in bit 0, CF.N in bit 1 (10_state.md R34). -/
def State.cfWord (s : State) : Word := 0#30 ++ BitVec.ofBool s.cf.n ++ BitVec.ofBool s.cf.p

/-- ENCST as a word: EOFF in bits 2:0, EACC in bits 15:8 (10_state.md R35). -/
def State.encstWord (s : State) : Word := 0#16 ++ s.enc.acc ++ 0#5 ++ s.enc.off

/-- DECST as a word: DOFF in bits 1:0, DPEND in bits 15:8 (10_state.md R36). -/
def State.decstWord (s : State) : Word := 0#16 ++ s.dec.pend ++ 0#6 ++ s.dec.off

/-- CFG as a word: F0F in bit 0 (10_state.md R37). -/
def State.cfgWord (s : State) : Word := 0#31 ++ BitVec.ofBool s.f0f

/-- FIFOLVL as a word: bytes in bits 7:0, symbols in bits 15:8 (10_state.md R38). -/
def State.fifolvlWord (s : State) : Word :=
  0#16 ++ BitVec.ofNat 8 s.dec.fifo.length ++ BitVec.ofNat 8 s.enc.fifo.length

/-- Word k of a scalar, bits 32k+31 : 32k (20_memory.md R53). -/
def scalarWord (v : Scalar) (k : Fin 4) : Word := v.extractLsb' (32 * k.val) 32

/-- A scalar with word k replaced and its other bits kept (20_memory.md R54). -/
def setScalarWord (v : Scalar) (k : Fin 4) (data : Word) : Scalar :=
  (v &&& ~~~((BitVec.allOnes 32).setWidth 128 <<< (32 * k.val))) ||| (data.setWidth 128 <<< (32 * k.val))

/-- What a read of a register returns; CMD and the reserved addresses read 0 (20_memory.md R50). -/
def State.readReg (s : State) : MapReg → Word
  | .cmd => 0
  | .status => s.statusWord
  | .ecmd => s.faultRec.ecmd
  | .cf => s.cfWord
  | .encst => s.encstWord
  | .decst => s.decstWord
  | .cfg => s.cfgWord
  | .fifolvl => s.fifolvlWord
  | .reserved => 0
  | .xWord i k => scalarWord (s.getX i) k

/-- What a write of a register does. STATUS: bit 0 = 1 clears the fault record (10_state.md R32, 60_exceptions.md R305).
CFG: F0F from bit 0. The others but the X window ignore it (10_state.md R33 to R38, 20_memory.md R50). A write to CMD is
the command itself, in Machine/Port.lean, and writes nothing here. -/
def State.writeReg (s : State) (r : MapReg) (data : Word) : State :=
  match r with
  | .status => if data.getLsbD 0 then s.clearFault else s
  | .cfg => s.setF0f (data.getLsbD 0)
  | .xWord i k => s.setX i (setScalarWord (s.getX i) k data)
  | .cmd => s
  | .ecmd => s
  | .cf => s
  | .encst => s
  | .decst => s
  | .fifolvl => s
  | .reserved => s

/-- What a read access returns; one that is not performed returns 0 (20_memory.md R52). -/
def State.hostRead (s : State) (addr width : Nat) : Word :=
  match s.accessReg addr width with
  | some r => s.readReg r
  | none => 0

end Sys2Proof.Machine
end

