-- ==== Sys2Proof/Machine/Port.lean ====
section
/-! DEFINITION. The host port: what each event does to the engine (20_memory.md R55, R59, 60_exceptions.md R303,
70_reset_and_hazards.md R330). -/

namespace Sys2Proof.Machine

/-- A host write of the word w to CMD: ignored while FAULT = 1, E_ILLEGAL for an illegal word, else the command
(20_memory.md R55, 60_exceptions.md R303, 30_encoding.md R79). -/
def State.command (s : State) (w : Word) : Outcome :=
  if s.faultRec.fault then .next s
  else
    match decode w with
    | none => .next (s.raise .illegal w)
    | some i => exec i s

/-- The reset event: the engine's state takes its reset values whatever it was (70_reset_and_hazards.md R330); the
parameters, the host's events and its last answer are not the engine's (log entry 4). -/
def State.applyReset (s : State) : State :=
  { State.reset with params := s.params, rdata := s.rdata, port := s.port, resetAsserted := true }

/-- One event of the port. An access made while reset is asserted is not performed (70_reset_and_hazards.md R330). -/
def State.perform (s : State) (e : HostEvent) : Outcome :=
  match e with
  | .assertReset => .next s.applyReset
  | .releaseReset => .next { s with resetAsserted := false }
  | .read addr width =>
    if s.resetAsserted then .next s else .next { s with rdata := s.hostRead addr width }
  | .write addr width data =>
    if s.resetAsserted then .next s
    else
      match s.accessReg addr width with
      | none => .next s
      | some .cmd => s.command data
      | some r => .next (s.writeReg r data)

/-- Take the next event from the port and perform it; with none waiting the engine is idle and keeps all state
(60_exceptions.md R314, 20_memory.md R59). -/
def State.nextEvent (s : State) : Outcome :=
  match s.port with
  | [] => .next s
  | e :: rest => State.perform { s with port := rest } e

/-- The event that is a host write of a word to CMD (20_memory.md R50, R55). -/
def State.cmdWrite (s : State) (w : Word) : HostEvent := .write s.params.hostBase 32 w

end Sys2Proof.Machine
end

