-- ==== Sys2Proof/Machine/Step.lean ====
section
/-! DEFINITION. One step of the machine: the next event of the host port (10_state.md R20). The engine has no program
counter and fetches nothing (10_state.md R40). -/

namespace Sys2Proof.Machine

/-- One step: the engine performs the next event completely (10_state.md R20, 20_memory.md R59). -/
def step (s : State) : Outcome := s.nextEvent

/-- s about to receive a host write of the command word w to CMD as its next event. For that write to be executed no
fault may be recorded and the reset input must be released, so both are set so (60_exceptions.md R303,
70_reset_and_hazards.md R330; log entry 15). -/
def State.withFetchWord (s : State) (nbits w : Nat) : State :=
  { s.clearFault with
    resetAsserted := false
    port := s.cmdWrite (BitVec.ofNat 32 (w % 2 ^ nbits)) :: s.port }

end Sys2Proof.Machine
end

