-- ==== Sys2Proof/Machine/SourceAlgorithms.lean ====
section
/-! DEFINITION. The word-level algorithms of the source, which the spec calls informative: a model may use either form,
and the rules say they give the results of the arithmetic definitions (42_fixed_width.md R153, R159, 43_arbitrary_precision.md
R191, R194, 44_range_splicer.md R232). No meaning calls them; statements compare them with the meanings. -/

namespace Sys2Proof.Machine

/-- The state of the add loop: the running sum x, the pending carries y and the net carry out of the top position
(42_fixed_width.md R153). -/
structure AddLoop where
  x : WordPair
  y : WordPair
  carryTop : Int
  deriving DecidableEq, Repr

/-- One iteration of the add loop on the low `width` positions (42_fixed_width.md R153). -/
def AddLoop.iterate (width : Nat) (l : AddLoop) : AddLoop :=
  let bp := l.x.pos &&& l.y.pos
  let bn := l.x.neg &&& l.y.neg
  let rp := (l.x.pos &&& ~~~l.y.pos &&& ~~~l.y.neg) ||| (l.y.pos &&& ~~~l.x.pos &&& ~~~l.x.neg) ||| bn
  let rn := (l.x.neg &&& ~~~l.y.neg &&& ~~~l.y.pos) ||| (l.y.neg &&& ~~~l.x.neg &&& ~~~l.x.pos) ||| bp
  { x := ⟨rn, rp⟩
    y := ⟨(bn <<< 1) &&& lowMask width, (bp <<< 1) &&& lowMask width⟩
    carryTop := l.carryTop + (bp.getLsbD (width - 1)).toNat - (bn.getLsbD (width - 1)).toNat }

/-- Put the carry-in at bit 0 of the pending carries, after the first iteration (42_fixed_width.md R153). -/
def AddLoop.placeCarry (cin : Int) (l : AddLoop) : AddLoop :=
  { l with y := ⟨l.y.neg ||| (if cin = -1 then 1 else 0), l.y.pos ||| (if cin = 1 then 1 else 0)⟩ }

/-- n further iterations. -/
def AddLoop.run (width : Nat) : Nat → AddLoop → AddLoop
  | 0, l => l
  | n + 1, l => AddLoop.run width n (l.iterate width)

/-- The loop from the W-trit views of a and b: the first iteration, the carry-in, then `rounds` iterations
(42_fixed_width.md R153). -/
def addLoop (width rounds : Nat) (a b : WordPair) (cin : Int) : AddLoop :=
  AddLoop.run width rounds
    ((AddLoop.iterate width ⟨a.keepLow width, b.keepLow width, 0⟩).placeCarry cin)

/-- Remove trailing all-zero word pairs: the loop of 43_arbitrary_precision.md R194, on the words in reverse. -/
def dropZeroTop : List WordPair → List WordPair
  | [] => []
  | w :: ws => if w.neg ||| w.pos = 0 then dropZeroTop ws else w :: ws

/-- trim_len: the words without trailing all-zero pairs, EMPTY when none remain, else the length of the top word
(43_arbitrary_precision.md R194). -/
def trimLen (a : TritArray) : TritArray :=
  let ws := (dropZeroTop a.words.reverse).reverse
  ⟨lengthOfWords ws, ws⟩

/-- The word loop of addition from word j on, m words with the carry c in, then the carry as the top word
(43_arbitrary_precision.md R191). -/
def addWords (a b : TritArray) : Nat → Nat → Int → List WordPair
  | 0, _, c => [balancedPair 64 c]
  | m + 1, j, c =>
    let r := addWithCarry 64 (a.word j) (b.word j) c
    r.1 :: addWords a b m (j + 1) r.2

/-- The source's addition: one addc_64 a word, the final carry as a further word, then trim_len
(43_arbitrary_precision.md R191). -/
def addByWords (a b : TritArray) : TritArray :=
  trimLen ⟨0, addWords a b (max a.wordCount b.wordCount) 0 0⟩

/-- One vector of the two-word merge: the low part of one word and the high part of the next (44_range_splicer.md R232). -/
def mergeWords (low next : TritBits) (bit : Nat) : TritBits :=
  if bit = 0 then low else (low >>> bit) ||| (next <<< (64 - bit))

/-- The source's splice of `count` trits from position s: the two-word merge of each result word, and the mask of the
result's valid positions (44_range_splicer.md R232). A word past the top reads (0, 0), which leaves out the second term. -/
def spliceByWords (a : TritArray) (s count : Nat) : TritArray :=
  ⟨count, (List.range (wordsFor count)).map fun i =>
    let low := a.word (s / 64 + i)
    let next := a.word (s / 64 + i + 1)
    WordPair.keepLow ⟨mergeWords low.neg next.neg (s % 64), mergeWords low.pos next.pos (s % 64)⟩ (count - 64 * i)⟩

/-- The shift-and-add product of the low `width` trits: for each nonzero trit of b from position k down to 0 add a shifted
into place, negated for a -1 trit (42_fixed_width.md R159). -/
def mulByShifts (width : Nat) (a b : WordPair) : Nat → WordPair
  | 0 => WordPair.zero
  | k + 1 =>
    let rest := mulByShifts width a b k
    let copy := a.shiftUp width k
    if b.trit k = 1 then (addWithCarry width rest copy 0).1
    else if b.trit k = -1 then (addWithCarry width rest copy.swap 0).1
    else rest

end Sys2Proof.Machine
end

