-- ==== Sys2Proof/Safety.lean ====
section
/-! DEFINITION. What a good state is (the invariants of 10_state.md), what each command may change and which faults it may
raise (10_state.md R43, 60_exceptions.md R300), and the ways statements look at a result. -/

namespace Sys2Proof.Machine

/-- The validity invariant on a word pair: no position is set in both vectors (10_state.md R22). -/
abbrev WordPair.Valid (a : WordPair) : Prop := a.neg &&& a.pos = 0

/-- Nothing is set at position k or above (00_scope.md R11). -/
abbrev WordPair.ZeroFrom (a : WordPair) (k : Nat) : Prop :=
  ∀ i < 64, k ≤ i → a.neg.getLsbD i = false ∧ a.pos.getLsbD i = false

/-- CF.N and CF.P are never both set (10_state.md R30). -/
abbrev CarryTrit.Valid (c : CarryTrit) : Prop := ¬(c.n = true ∧ c.p = true)

/-- Every word pair of the array is valid (10_state.md R22). -/
abbrev TritArray.Valid (a : TritArray) : Prop := ∀ w ∈ a.words, w.Valid

/-- The masking invariant: every bit at a position at or above L is 0 in both vectors (10_state.md R26). -/
abbrev TritArray.Masked (a : TritArray) : Prop :=
  ∀ j < a.wordCount, ∀ b < 64, a.len ≤ 64 * j + b →
    (a.word j).neg.getLsbD b = false ∧ (a.word j).pos.getLsbD b = false

/-- The word-count invariant: n = ceil(L / 64), or the array is Z1 (10_state.md R28). -/
abbrev TritArray.CountOk (a : TritArray) : Prop := a.wordCount = wordsFor a.len ∨ a = TritArray.z1

/-- What holds of every T register (10_state.md R22, R26, R28). -/
structure TritArray.Wf (a : TritArray) : Prop where
  valid : a.Valid
  masked : a.Masked
  count : a.CountOk

/-- The length invariant: EMPTY, or a top word that is not all zero and the length it gives (10_state.md R27). -/
abbrev TritArray.Canonical (a : TritArray) : Prop :=
  a.len = lengthOfWords a.words ∧ (a.words.getLast?.all fun w => w.neg ||| w.pos != 0) = true

/-- The legal values of the fault record (10_state.md R32, R33). -/
abbrev FaultRecord.Legal (r : FaultRecord) : Prop :=
  (r.fault = false → r.ecode = 0 ∧ r.ecmd = 0) ∧ (r.fault = true → 1 ≤ r.ecode.toNat ∧ r.ecode.toNat ≤ 13)

/-- The legal values of EOFF and EACC (10_state.md R35). -/
abbrev Encoder.Legal (e : Encoder) : Prop := e.off.toNat ≤ 4 ∧ e.acc.toNat < 3 ^ e.off.toNat

/-- The bytes the encoder emits: never 243 or 246 (45_stream_codec.md R259, R267). -/
abbrev Encoder.BytesOk (e : Encoder) : Prop := ∀ b ∈ e.fifo, b ≠ 243 ∧ b ≠ 246

/-- The legal values of DOFF and DPEND (10_state.md R36). -/
abbrev Decoder.Legal (d : Decoder) : Prop := d.off.toNat ≤ 2 ∧ d.pend.toNat < 3 ^ d.off.toNat

/-- The symbols of SF lie in [-13, 13] (10_state.md R39). -/
abbrev Decoder.SymbolsOk (d : Decoder) : Prop := ∀ v ∈ d.fifo, -13 ≤ v ∧ v ≤ 13

/-- The invariant of the machine: what the spec says holds of the state at all times. -/
structure State.Inv (s : State) : Prop where
  /-- the parameters are in their ranges (00_scope.md R5) -/
  params : s.params.legal = true
  /-- R22 for the P registers -/
  pairs : ∀ r : PReg, (s.getP r).Valid
  /-- R22, R26, R28 for the T registers -/
  arrays : ∀ r : TReg, (s.getT r).Wf
  /-- no T register has more than MAX_WORDS word pairs (10_state.md R25) -/
  capacity : ∀ r : TReg, (s.getT r).wordCount ≤ s.params.maxWords
  /-- R30 -/
  carry : s.cf.Valid
  /-- R32, R33 -/
  record : s.faultRec.Legal
  /-- R35 -/
  encoder : s.enc.Legal
  /-- R259, R267 -/
  bytes : s.enc.BytesOk
  /-- R36 -/
  decoder : s.dec.Legal
  /-- R39 -/
  symbols : s.dec.SymbolsOk
  /-- neither FIFO holds more than FIFO_DEPTH entries (10_state.md R39) -/
  fifos : s.enc.fifo.length ≤ s.params.fifoDepth ∧ s.dec.fifo.length ≤ s.params.fifoDepth
  /-- while reset is asserted the engine is at its reset values (70_reset_and_hazards.md R330) -/
  reset : s.resetAsserted = true → s = s.applyReset

/-- v is the value of some array of at most MAX_WORDS word pairs (43_arbitrary_precision.md R205). -/
abbrev State.FitsCapacity (s : State) (v : Int) : Prop :=
  -tritMax (64 * s.params.maxWords) ≤ v ∧ v ≤ tritMax (64 * s.params.maxWords)

/-- What a command may write and which faults it may raise. -/
structure Footprint where
  /-- the X register it writes -/
  x : Option XReg := none
  /-- the P register it writes -/
  p : Option PReg := none
  /-- the T register it writes -/
  t : Option TReg := none
  /-- whether it writes CF -/
  carry : Bool := false
  /-- whether it writes the encoder side of the codec: EOFF, EACC or BF -/
  encoder : Bool := false
  /-- whether it writes the decoder side of the codec: DOFF, DPEND or SF -/
  decoder : Bool := false
  /-- the faults it may raise once it has decoded -/
  faults : List ErrorCode := []
  deriving DecidableEq, Repr

/-- The "written by" column of 10_state.md R43, command by command, and the "raised by" column of 60_exceptions.md R300,
without E_ILLEGAL, which decoding raises. -/
def footprint : Instr → Footprint
  | .nop => {}
  | .xli d _ => { x := some d }
  | .wpack d _ _ => { p := some d, faults := [.invalid] }
  | .wrdn d _ => { x := some d }
  | .wrdp d _ => { x := some d }
  | .talloc d _ => { t := some d, faults := [.argRange, .capacity] }
  | .twrw d _ _ => { t := some d, faults := [.bounds] }
  | .trdw d _ _ => { p := some d, faults := [.bounds] }
  | .tlen d _ => { x := some d }
  | .tnw d _ => { x := some d }
  | .tmov d _ => { t := some d }
  | .tfromw _ d _ => { t := some d }
  | .xmov d _ => { x := some d }
  | .pmov d _ => { p := some d }
  | .wget _ d _ _ => { x := some d, faults := [.bounds] }
  | .wset _ d _ _ => { p := some d, faults := [.bounds, .domain] }
  | .tget d _ _ => { x := some d, faults := [.bounds] }
  | .tset d _ _ => { t := some d, faults := [.bounds, .domain] }
  | .wdig d _ => { p := some d, faults := [.domain] }
  | .wneg _ d _ => { p := some d }
  | .tneg d _ => { t := some d }
  | .wadd _ d _ _ => { p := some d }
  | .wsub _ d _ _ => { p := some d }
  | .waddc _ d _ _ => { p := some d, carry := true }
  | .wmul _ d _ _ => { p := some d }
  | .wshl _ d _ _ => { p := some d }
  | .wshr _ d _ _ => { p := some d }
  | .wtoint _ _ d _ => { x := some d, faults := [.overflow] }
  | .wfromint _ _ d _ => { p := some d, faults := [.overflow] }
  | .wcnt _ d _ => { x := some d }
  | .cfrd d => { x := some d }
  | .cfwr _ => { carry := true, faults := [.domain] }
  | .tadd d _ _ => { t := some d, faults := [.capacity] }
  | .tsub d _ _ => { t := some d, faults := [.capacity] }
  | .tmul d _ _ => { t := some d, faults := [.capacity] }
  | .tshl d _ _ => { t := some d, faults := [.shift, .capacity] }
  | .tshr d _ _ => { t := some d, faults := [.shift, .capacity] }
  | .ttrim d _ => { t := some d }
  | .tisz d _ => { x := some d }
  | .tcnt d _ => { x := some d }
  | .ttoint _ d _ => { x := some d, faults := [.overflow] }
  | .tfromint _ d _ => { t := some d }
  | .tsplice d _ _ _ => { t := some d, faults := [.bounds] }
  | .encsym _ => { encoder := true, faults := [.domain, .fifoFull] }
  | .encend => { encoder := true, faults := [.fifoFull] }
  | .enchdr => { encoder := true, faults := [.state, .fifoFull] }
  | .encrst => { encoder := true }
  | .decbyte _ => { decoder := true, faults := [.domain, .codec, .fifoFull] }
  | .decend => { decoder := true }
  | .decrst => { decoder := true }
  | .bpop d => { x := some d, encoder := true, faults := [.fifoEmpty] }
  | .spop d => { x := some d, decoder := true, faults := [.fifoEmpty] }
  | .bcnt d => { x := some d }
  | .scnt d => { x := some d }
  | .tmap1 d _ _ => { t := some d, faults := [.table] }
  | .tmap2 d _ _ _ => { t := some d, faults := [.table] }

/-- t is s with X[d] = v and everything else as it was. -/
def XResult (s t : State) (d : XReg) (v : Scalar) : Prop :=
  t = { s with x := t.x } ∧ ∀ r, t.getX r = if r = d then v else s.getX r

/-- t is s but for P[d]. -/
def OnlyP (s t : State) (d : PReg) : Prop := t = { s with p := t.p } ∧ ∀ r, r ≠ d → t.getP r = s.getP r

/-- t is s but for T[d]. -/
def OnlyT (s t : State) (d : TReg) : Prop := t = { s with t := t.t } ∧ ∀ r, r ≠ d → t.getT r = s.getT r

/-- t is s but for P[d] and CF. -/
def OnlyPCF (s t : State) (d : PReg) : Prop :=
  t = { s with p := t.p, cf := t.cf } ∧ ∀ r, r ≠ d → t.getP r = s.getP r

/-- t is s but for the encoder side of the codec. -/
def OnlyEnc (s t : State) : Prop := t = { s with enc := t.enc }

/-- t is s but for the decoder side of the codec. -/
def OnlyDec (s t : State) : Prop := t = { s with dec := t.dec }

/-- The command ends in fault e with ECMD its word: the fault record is written and everything else is as it was
(60_exceptions.md R302). -/
def Faults (i : Instr) (s : State) (e : ErrorCode) : Prop :=
  exec i s = .next { s with faultRec := ⟨true, e.code, encode i⟩ }

/-- ENCSYM of each symbol in turn, each put into X0 first; `none` at the first command that raises a fault. -/
def encodeSymbols : List Int → State → Option State
  | [], s => some s
  | v :: rest, s =>
    match exec (.encsym 0) (s.setXInt 0 v) with
    | .next t => if t.faultRec.fault then none else encodeSymbols rest t
    | _ => none

/-- DECBYTE of each byte in turn, each put into X0 first; `none` at the first command that raises a fault. -/
def decodeBytes : List Byte → State → Option State
  | [], s => some s
  | b :: rest, s =>
    match exec (.decbyte 0) (s.setXInt 0 b.toNat) with
    | .next t => if t.faultRec.fault then none else decodeBytes rest t
    | _ => none

end Sys2Proof.Machine
end

