-- ==== Sys2Proof/Certificates/Slice0/Obligations.lean ====
section
/-! DEFINITION. The statements for the provers. Each docstring names the rules of spec/ it states or rests on. -/

open Sys2Proof Sys2Proof.Machine

/-! Encoding (30_encoding.md). -/

/-- Decoding a command's word gives the command back, whatever its operands (R71 to R81). -/
def Obligations.DecodeEncodeAgree : Prop := ∀ i : Instr, decode (encode i) = some i

/-- A command has one word only: a word that decodes is the word of what it decodes to (R80). -/
def Obligations.EncodeDecodeAgree : Prop := ∀ (w : Word) (i : Instr), decode w = some i → encode i = w

/-- The decoder takes exactly the words that match a row of the opcode map with legal modifiers, and no word matches two rows
(R75, R78, R80). -/
def Obligations.DecodesExactlyLegalWords : Prop :=
  (∀ w : Word, (∃ i, decode w = some i) ↔
    ∃ r ∈ opcodeMap, w &&& r.mask = r.fixedBits ∧ ¬(r.hasN = true ∧ nField w = 3)) ∧
  ∀ w : Word, ∀ r ∈ opcodeMap, ∀ q ∈ opcodeMap, w &&& r.mask = r.fixedBits → w &&& q.mask = q.fixedBits → r = q

/-- The four words that R82 spells out, and the word of NOP (R80, R82). -/
def Obligations.SampleWordsDecode : Prop :=
  decode 0x20123001 = some (.wadd .w64 1 2 3) ∧ decode 0x40123400 = some (.tsplice 1 2 3 4) ∧
    decode 0x0110FFFB = some (.xli 1 (-5)) ∧ decode 0x26120005 = some (.wtoint .w64 .n128 1 2) ∧
    decode 0x00000000 = some .nop

/-! The host port (20_memory.md, 60_exceptions.md, 70_reset_and_hazards.md). -/

/-- A step whose event is a host write of a legal word to CMD runs that command on the state without the event
(10_state.md R20, 20_memory.md R55). That the events stand in the state's port is the model's choice (log entry 1). -/
def Obligations.StepRunsDecodedCommand : Prop :=
  ∀ (s : State) (w : Word) (i : Instr) (rest : List HostEvent), s.port = s.cmdWrite w :: rest →
    s.resetAsserted = false → s.faultRec.fault = false → decode w = some i →
    step s = exec i { s with port := rest }

/-- The three classes of illegal words raise E_ILLEGAL, code 1, and change nothing else (30_encoding.md R79). -/
def Obligations.IllegalWordsFault : Prop :=
  ∀ (s : State) (w : Word) (rest : List HostEvent), s.port = s.cmdWrite w :: rest →
    s.resetAsserted = false → s.faultRec.fault = false →
    ((0x0E ≤ opField w ∧ opField w ≤ 0x0F ∨ 0x17 ≤ opField w ∧ opField w ≤ 0x1F ∨ 0x2B ≤ opField w ∧ opField w ≤ 0x2F ∨
        0x3A ≤ opField w ∧ opField w ≤ 0x3F ∨ 0x41 ≤ opField w ∧ opField w ≤ 0x4F ∨ 0x5B ≤ opField w ∧ opField w ≤ 0x5F ∨
        0x62 ≤ opField w) ∨
      (∃ r ∈ opcodeMap, opField r.fixedBits = opField w ∧ w &&& r.mask ≠ r.fixedBits) ∨
      ∃ r ∈ opcodeMap, opField r.fixedBits = opField w ∧ r.hasN = true ∧ nField w = 3) →
    step s = .next { s with port := rest, faultRec := ⟨true, 1, w⟩ }

/-- While a fault is recorded a host write to CMD changes nothing, whatever the word, and every other access works as usual:
reads, writes of X words and of CFG, and the clearing of the record (60_exceptions.md R303). -/
def Obligations.FaultedEngineIgnoresCommands : Prop :=
  (∀ (s : State) (w : Word) (rest : List HostEvent), s.port = s.cmdWrite w :: rest → s.faultRec.fault = true →
    step s = .next { s with port := rest }) ∧
  (∀ (s : State) (addr width : Nat) (rest : List HostEvent), s.port = .read addr width :: rest →
    s.resetAsserted = false → step s = .next { s with port := rest, rdata := s.hostRead addr width }) ∧
  (∀ (s : State) (r : XReg) (k : Fin 4) (data : Word) (rest : List HostEvent),
    s.port = .write (s.params.hostBase + 0x100 + 0x10 * r + 4 * k) 32 data :: rest → s.resetAsserted = false →
    step s = .next { (s.setX r (setScalarWord (s.getX r) k data)) with port := rest }) ∧
  (∀ (s : State) (data : Word) (rest : List HostEvent), s.port = .write (s.params.hostBase + 0x18) 32 data :: rest →
    s.resetAsserted = false → step s = .next { s with port := rest, f0f := data.getLsbD 0 }) ∧
  ∀ (s : State) (data : Word) (rest : List HostEvent), s.port = .write (s.params.hostBase + 4) 32 data :: rest →
    s.resetAsserted = false → data.getLsbD 0 = true → step s = .next { s with port := rest, faultRec := ⟨false, 0, 0⟩ }

/-- The engine's trap return: a STATUS write with bit 0 = 1 sets the whole record to 0 and nothing else, and the next
command runs; one with bit 0 = 0 has no effect (60_exceptions.md R305). -/
def Obligations.StatusWriteClearsRecord : Prop :=
  ∀ (s : State) (data : Word) (rest : List HostEvent), s.port = .write (s.params.hostBase + 4) 32 data :: rest →
    s.resetAsserted = false →
    (data.getLsbD 0 = true → step s = .next { s with port := rest, faultRec := ⟨false, 0, 0⟩ } ∧
      ∀ (w : Word) (i : Instr) (more : List HostEvent), rest = s.cmdWrite w :: more → decode w = some i →
        step { s with port := rest, faultRec := ⟨false, 0, 0⟩ } =
          exec i { s with port := more, faultRec := ⟨false, 0, 0⟩ }) ∧
    (data.getLsbD 0 = false → step s = .next { s with port := rest })

/-- A command that faulted left nothing behind: clearing the record gives the state before the command back, so that the
host can repair the cause and write the same word again (60_exceptions.md R304). -/
def Obligations.ClearAfterFaultRestoresState : Prop :=
  ∀ (s t : State) (w data : Word) (rest : List HostEvent),
    s.port = s.cmdWrite w :: .write (s.params.hostBase + 4) 32 data :: rest → s.resetAsserted = false →
    s.faultRec = FaultRecord.clear → data.getLsbD 0 = true → step s = .next t → t.faultRec.fault = true →
    step t = .next { s with port := rest }

/-- What a host read of each control register returns, field by field, with the reserved bits 0, and that a read changes
nothing else (10_state.md R32 to R38, 20_memory.md R50, R55). That the answer stands in `rdata` is the model's choice (log
entry 2). -/
def Obligations.ControlRegistersRead : Prop :=
  ∀ (s : State) (off : Nat) (rest : List HostEvent), s.port = .read (s.params.hostBase + off) 32 :: rest →
    s.resetAsserted = false →
    ∃ t, step s = .next t ∧ t = { s with port := rest, rdata := t.rdata } ∧
      (off = 0x000 → t.rdata = 0) ∧
      (off = 0x004 → t.rdata.getLsbD 0 = s.faultRec.fault ∧ t.rdata.extractLsb' 8 8 = s.faultRec.ecode ∧
        ∀ i : Nat, (1 ≤ i ∧ i ≤ 7) ∨ 16 ≤ i → t.rdata.getLsbD i = false) ∧
      (off = 0x008 → t.rdata = s.faultRec.ecmd) ∧
      (off = 0x00C → t.rdata.getLsbD 0 = s.cf.p ∧ t.rdata.getLsbD 1 = s.cf.n ∧ ∀ i : Nat, 2 ≤ i → t.rdata.getLsbD i = false) ∧
      (off = 0x010 → t.rdata.extractLsb' 0 3 = s.enc.off ∧ t.rdata.extractLsb' 8 8 = s.enc.acc ∧
        ∀ i : Nat, (3 ≤ i ∧ i ≤ 7) ∨ 16 ≤ i → t.rdata.getLsbD i = false) ∧
      (off = 0x014 → t.rdata.extractLsb' 0 2 = s.dec.off ∧ t.rdata.extractLsb' 8 8 = s.dec.pend ∧
        ∀ i : Nat, (2 ≤ i ∧ i ≤ 7) ∨ 16 ≤ i → t.rdata.getLsbD i = false) ∧
      (off = 0x018 → t.rdata.getLsbD 0 = s.f0f ∧ ∀ i : Nat, 1 ≤ i → t.rdata.getLsbD i = false) ∧
      (off = 0x01C → s.enc.fifo.length ≤ 255 → s.dec.fifo.length ≤ 255 →
        (t.rdata.extractLsb' 0 8).toNat = s.enc.fifo.length ∧ (t.rdata.extractLsb' 8 8).toNat = s.dec.fifo.length ∧
        ∀ i : Nat, 16 ≤ i → t.rdata.getLsbD i = false) ∧
      (0x020 ≤ off → off ≤ 0x0FC → off % 4 = 0 → t.rdata = 0)

/-- A host write of one X_i word changes those 32 bits and nothing else; a read returns them (20_memory.md R54). -/
def Obligations.XWordAccess : Prop :=
  ∀ (s : State) (r : XReg) (k : Fin 4) (data : Word) (rest : List HostEvent), s.resetAsserted = false →
    (s.port = .write (s.params.hostBase + 0x100 + 0x10 * r + 4 * k) 32 data :: rest →
      ∃ t, step s = .next t ∧ t = { s with port := rest, x := t.x } ∧ (∀ q, q ≠ r → t.getX q = s.getX q) ∧
        (t.getX r).extractLsb' (32 * k) 32 = data ∧
        ∀ i : Nat, i < 32 * k ∨ 32 * k + 32 ≤ i → (t.getX r).getLsbD i = (s.getX r).getLsbD i) ∧
    (s.port = .read (s.params.hostBase + 0x100 + 0x10 * r + 4 * k) 32 :: rest →
      step s = .next { s with port := rest, rdata := (s.getX r).extractLsb' (32 * k) 32 })

/-- A write of a read-only or reserved register is ignored (10_state.md R33 to R36, R38, 20_memory.md R50), and a write of
CFG sets F0F from bit 0 alone (10_state.md R37). -/
def Obligations.OtherRegisterWrites : Prop :=
  ∀ (s : State) (off : Nat) (data : Word) (rest : List HostEvent),
    s.port = .write (s.params.hostBase + off) 32 data :: rest → s.resetAsserted = false →
    (off ∈ [0x008, 0x00C, 0x010, 0x014, 0x01C] ∨ (0x020 ≤ off ∧ off ≤ 0x0FC ∧ off % 4 = 0) →
      step s = .next { s with port := rest }) ∧
    (off = 0x018 → step s = .next { s with port := rest, f0f := data.getLsbD 0 })

/-- An access of another width, at an address that is no multiple of 4, or outside the map, is not performed: a write
changes nothing and a read returns 0 (20_memory.md R52). That addresses count from HOST_BASE is log entry 5. -/
def Obligations.UnperformedAccess : Prop :=
  ∀ (s : State) (addr width : Nat) (data : Word) (rest : List HostEvent), s.resetAsserted = false →
    (width ≠ 32 ∨ addr < s.params.hostBase ∨ (addr - s.params.hostBase) % 4 ≠ 0 ∨ 0x1FF < addr - s.params.hostBase) →
    (s.port = .write addr width data :: rest → step s = .next { s with port := rest }) ∧
    (s.port = .read addr width :: rest → step s = .next { s with port := rest, rdata := 0 })

/-- The reset event puts every piece of the engine's state at its reset value whatever the state before, and an access
made while reset is asserted is not performed (70_reset_and_hazards.md R330). What stays of the model's own fields is log
entry 4. -/
def Obligations.ResetEvent : Prop :=
  (∀ (s : State) (rest : List HostEvent), s.port = .assertReset :: rest → ∃ t, step s = .next t ∧
    (∀ r, t.getX r = 0) ∧ (∀ r, t.getP r = ⟨0, 0⟩) ∧ (∀ r, t.getT r = ⟨0, []⟩) ∧ t.cf = ⟨false, false⟩ ∧
    t.faultRec = ⟨false, 0, 0⟩ ∧ t.f0f = false ∧ t.enc = ⟨0, 0, []⟩ ∧ t.dec = ⟨0, 0, []⟩ ∧
    t.resetAsserted = true ∧ t.params = s.params ∧ t.port = rest) ∧
  (∀ (s : State) (addr width : Nat) (data : Word) (rest : List HostEvent), s.resetAsserted = true →
    s.port = .write addr width data :: rest ∨ s.port = .read addr width :: rest →
    step s = .next { s with port := rest }) ∧
  ∀ (s : State) (rest : List HostEvent), s.port = .releaseReset :: rest →
    step s = .next { s with port := rest, resetAsserted := false }

/-- The value of every piece of state after reset (10_state.md R42). -/
def Obligations.ResetStateValues : Prop :=
  (∀ r, State.reset.getX r = 0) ∧ (∀ r, State.reset.getP r = ⟨0, 0⟩) ∧
    (∀ r, (State.reset.getT r).wordCount = 0 ∧ (State.reset.getT r).len = 0) ∧
    State.reset.cf.n = false ∧ State.reset.cf.p = false ∧ State.reset.statusWord = 0 ∧ State.reset.faultRec.ecmd = 0 ∧
    State.reset.cfgWord = 0 ∧ State.reset.enc.off = 0 ∧ State.reset.enc.acc = 0 ∧ State.reset.dec.off = 0 ∧
    State.reset.dec.pend = 0 ∧ State.reset.enc.fifo = [] ∧ State.reset.dec.fifo = [] ∧ State.reset.fifolvlWord = 0

/-- Every step goes on: no event ends a run, the event is taken from the port, and the parameters stay (10_state.md R20,
60_exceptions.md R302, R314). -/
def Obligations.EveryStepGoesOn : Prop :=
  ∀ s : State, ∃ t, step s = .next t ∧ t.port = s.port.tail ∧ t.params = s.params ∧ (s.port = [] → t = s)

/-! The machine as a whole. -/

/-- Every step keeps the invariants of the state: the validity, masking and word-count invariants, the capacity, the carry
trit, the fault record, the codec's legal values and the FIFO levels (10_state.md R22, R25, R26, R28, R30, R32, R33, R35,
R36, R39). -/
def Obligations.StepKeepsInvariant : Prop := ∀ s t : State, s.Inv → step s = .next t → t.Inv

/-- The invariants hold right after reset. -/
def Obligations.InvariantAtReset : Prop := State.reset.Inv

/-- The fault mechanism: what a host write to CMD does to the fault record is nothing, or FAULT, ECODE and ECMD are
written, ECMD with the command word, and nothing else changes (60_exceptions.md R302). -/
def Obligations.FaultMechanism : Prop :=
  ∀ (s t : State) (w : Word) (rest : List HostEvent), s.port = s.cmdWrite w :: rest → s.resetAsserted = false →
    step s = .next t →
    t.faultRec = s.faultRec ∨
      s.faultRec.fault = false ∧ ∃ e : ErrorCode, t = { s with port := rest, faultRec := ⟨true, e.code, w⟩ }

/-- A decoded command raises no fault but those that name it in the "raised by" column of R300, each with the code that
column gives it (60_exceptions.md R300, R302). -/
def Obligations.FaultsOfEachCommand : Prop :=
  (∀ (i : Instr) (s t : State), exec i s = .next t →
    t.faultRec = s.faultRec ∨ ∃ e ∈ (footprint i).faults, t = { s with faultRec := ⟨true, e.code, encode i⟩ }) ∧
  [ErrorCode.illegal, .bounds, .argRange, .table, .shift, .domain, .overflow, .capacity, .invalid, .codec, .fifoFull,
    .fifoEmpty, .state].map ErrorCode.code = [1, 2, 3, 4, 5, 6, 7, 8, 9, 10, 11, 12, 13]

/-- The frame of every command: it changes no register but its destination, CF only for WADDC and CFWR, a codec half only
for the commands of that half, and never CFG, the parameters or the port (10_state.md R43). -/
def Obligations.CommandFrame : Prop :=
  ∀ (i : Instr) (s t : State), exec i s = .next t →
    (∀ r, (footprint i).x ≠ some r → t.getX r = s.getX r) ∧ (∀ r, (footprint i).p ≠ some r → t.getP r = s.getP r) ∧
    (∀ r, (footprint i).t ≠ some r → t.getT r = s.getT r) ∧ ((footprint i).carry = false → t.cf = s.cf) ∧
    ((footprint i).encoder = false → t.enc = s.enc) ∧ ((footprint i).decoder = false → t.dec = s.dec) ∧
    t.f0f = s.f0f ∧ t.params = s.params ∧ t.rdata = s.rdata ∧ t.resetAsserted = s.resetAsserted ∧ t.port = s.port

/-- A command other than WADDC, CFRD and CFWR does the same whatever CF holds, and leaves it (10_state.md R30); one other than
DECBYTE does the same whatever CFG.F0F holds, and leaves it (R37). -/
def Obligations.WhoReadsCarryAndPolicy : Prop :=
  (∀ (i : Instr) (s t : State) (c : CarryTrit), (∀ w d a b, i ≠ .waddc w d a b) → (∀ d, i ≠ .cfrd d) →
    (∀ a, i ≠ .cfwr a) → exec i s = .next t → exec i (s.setCF c) = .next (t.setCF c)) ∧
  ∀ (i : Instr) (s t : State) (b : Bool), (∀ a, i ≠ .decbyte a) → exec i s = .next t →
    exec i (s.setF0f b) = .next (t.setF0f b)

/-! Register access (40_register_access.md). -/

/-- NOP changes nothing; XLI loads the sign-extended immediate; WRDN and WRDP read one vector zero-extended; XMOV, PMOV and
TMOV copy; TLEN and TNW read L and n (R101, R102, R104, R105, R109, R110, R111, R113, R114). -/
def Obligations.RegisterMoves : Prop :=
  ∀ s : State, exec .nop s = .next s ∧
  (∀ (d : XReg) (imm : BitVec 16), ∃ t, exec (.xli d imm) s = .next t ∧ XResult s t d (BitVec.ofInt 128 imm.toInt)) ∧
  (∀ (d : XReg) (a : PReg), ∃ t, exec (.wrdn d a) s = .next t ∧ XResult s t d (BitVec.ofNat 128 (s.getP a).neg.toNat)) ∧
  (∀ (d : XReg) (a : PReg), ∃ t, exec (.wrdp d a) s = .next t ∧ XResult s t d (BitVec.ofNat 128 (s.getP a).pos.toNat)) ∧
  (∀ d a : XReg, ∃ t, exec (.xmov d a) s = .next t ∧ XResult s t d (s.getX a)) ∧
  (∀ d a : PReg, ∃ t, exec (.pmov d a) s = .next t ∧ OnlyP s t d ∧ t.getP d = s.getP a) ∧
  (∀ d a : TReg, ∃ t, exec (.tmov d a) s = .next t ∧ OnlyT s t d ∧ t.getT d = s.getT a) ∧
  (∀ (d : XReg) (a : TReg), ∃ t, exec (.tlen d a) s = .next t ∧ XResult s t d (BitVec.ofNat 128 (s.getT a).len)) ∧
  ∀ (d : XReg) (a : TReg), ∃ t, exec (.tnw d a) s = .next t ∧
    XResult s t d (BitVec.ofNat 128 (s.getT a).words.length)

/-- WPACK takes the low 64 bits of its sources as the two vectors, and raises E_INVALID when one of the
64 positions is set in both (R103; that bits [127:64] never fault, also for a = b, is log entry 16). -/
def Obligations.WpackPacks : Prop :=
  ∀ (s : State) (d : PReg) (a b : XReg),
    ((∀ i < 64, ¬((s.getX a).getLsbD i = true ∧ (s.getX b).getLsbD i = true)) →
      ∃ t, exec (.wpack d a b) s = .next t ∧ OnlyP s t d ∧ (t.getP d).Valid ∧
        ∀ i < 64, (t.getP d).neg.getLsbD i = (s.getX a).getLsbD i ∧ (t.getP d).pos.getLsbD i = (s.getX b).getLsbD i) ∧
    ((∃ i < 64, (s.getX a).getLsbD i = true ∧ (s.getX b).getLsbD i = true) → Faults (.wpack d a b) s .invalid)

/-- TALLOC makes the all-zero array of length L = sx(a) with ceil(L / 64) words; a negative length raises E_ARGRANGE, one
that needs more than MAX_WORDS words E_CAPACITY (R106). -/
def Obligations.TallocAllocates : Prop :=
  ∀ (s : State) (d : TReg) (a : XReg),
    (0 ≤ s.sx a → s.sx a ≤ 64 * s.params.maxWords → ∃ t, exec (.talloc d a) s = .next t ∧ OnlyT s t d ∧
      ((t.getT d).len : Int) = s.sx a ∧ (t.getT d).Wf ∧ (t.getT d).wordCount = ((t.getT d).len + 63) / 64 ∧
      ∀ w ∈ (t.getT d).words, w = ⟨0, 0⟩) ∧
    (s.sx a < 0 → Faults (.talloc d a) s .argRange) ∧
    (64 * (s.params.maxWords : Int) < s.sx a → Faults (.talloc d a) s .capacity)

/-- TWRW writes word j = sx(a) under the mask of the positions below L, and leaves n, L and the other words; outside [0, n)
it raises E_BOUNDS (R107). -/
def Obligations.TwrwWritesUnderMask : Prop :=
  ∀ (s : State) (d : TReg) (a : XReg) (b : PReg),
    (∀ j : Nat, s.sx a = j → j < (s.getT d).wordCount → ∃ t, exec (.twrw d a b) s = .next t ∧ OnlyT s t d ∧
      (t.getT d).len = (s.getT d).len ∧ (t.getT d).wordCount = (s.getT d).wordCount ∧
      (∀ k : Nat, k ≠ j → (t.getT d).word k = (s.getT d).word k) ∧
      ∀ i < 64,
        ((t.getT d).word j).neg.getLsbD i = (decide (64 * j + i < (s.getT d).len) && (s.getP b).neg.getLsbD i) ∧
        ((t.getT d).word j).pos.getLsbD i = (decide (64 * j + i < (s.getT d).len) && (s.getP b).pos.getLsbD i)) ∧
    (s.sx a < 0 ∨ (s.getT d).wordCount ≤ s.sx a → Faults (.twrw d a b) s .bounds)

/-- The indexed reads: TRDW a word (R108), WGET a trit of a pair (41_dual_bitvector.md R130), TGET a trit of an array (R132),
and E_BOUNDS outside [0, n), [0, W) and [0, L). -/
def Obligations.IndexedReads : Prop :=
  (∀ (s : State) (d : PReg) (a : TReg) (b : XReg),
    (∀ j : Nat, s.sx b = j → j < (s.getT a).wordCount →
      ∃ t, exec (.trdw d a b) s = .next t ∧ OnlyP s t d ∧ (s.getT a).words[j]? = some (t.getP d)) ∧
    (s.sx b < 0 ∨ (s.getT a).wordCount ≤ s.sx b → Faults (.trdw d a b) s .bounds)) ∧
  (∀ (s : State) (w : Width) (d : XReg) (a : PReg) (b : XReg),
    (∀ i : Nat, s.sx b = i → i < w.trits → ∃ t, exec (.wget w d a b) s = .next t ∧
      XResult s t d (BitVec.ofInt 128 (((s.getP a).pos.getLsbD i).toNat - ((s.getP a).neg.getLsbD i).toNat))) ∧
    (s.sx b < 0 ∨ w.trits ≤ s.sx b → Faults (.wget w d a b) s .bounds)) ∧
  ∀ (s : State) (d : XReg) (a : TReg) (b : XReg),
    (∀ i : Nat, s.sx b = i → i < (s.getT a).len → ∃ t, exec (.tget d a b) s = .next t ∧
      XResult s t d (BitVec.ofInt 128 ((((s.getT a).word (i / 64)).pos.getLsbD (i % 64)).toNat -
        (((s.getT a).word (i / 64)).neg.getLsbD (i % 64)).toNat))) ∧
    (s.sx b < 0 ∨ (s.getT a).len ≤ s.sx b → Faults (.tget d a b) s .bounds)

/-- TFROMW makes an array of exactly W trits in one word, with the value of the W-trit view (R112). -/
def Obligations.TfromwKeepsWidth : Prop :=
  ∀ (s : State) (w : Width) (d : TReg) (a : PReg), ∃ t, exec (.tfromw w d a) s = .next t ∧ OnlyT s t d ∧ (t.getT d).len = w.trits ∧
    (t.getT d).wordCount = 1 ∧ (t.getT d).tval = s.pval w a ∧ (∀ i < w.trits, (t.getT d).trit i = (s.getP a).trit i) ∧
    ((s.getP a).Valid → (t.getT d).Wf)

/-! Trit access (41_dual_bitvector.md). -/

/-- WSET writes trit sx(a) of the W-trit view and clears the trits above it (R131); TSET writes trit sx(a) of an array and
nothing else of it: n, L and the other trits stay, and the value changes by the trit's weight (R133). For both, E_BOUNDS comes
before E_DOMAIN. -/
def Obligations.TritWrites : Prop :=
  (∀ (s : State) (w : Width) (d : PReg) (a b : XReg),
    (∀ i : Nat, s.sx a = i → i < w.trits → -1 ≤ s.sx b → s.sx b ≤ 1 → ∃ t, exec (.wset w d a b) s = .next t ∧ OnlyP s t d ∧
      (∀ k < 64, (t.getP d).trit k = if k = i then s.sx b else if k < w.trits then (s.getP d).trit k else 0) ∧
      (t.getP d).ZeroFrom w.trits ∧ ((s.getP d).Valid → (t.getP d).Valid)) ∧
    (s.sx a < 0 ∨ w.trits ≤ s.sx a → Faults (.wset w d a b) s .bounds) ∧
    (0 ≤ s.sx a → s.sx a < w.trits → s.sx b < -1 ∨ 1 < s.sx b → Faults (.wset w d a b) s .domain)) ∧
  ∀ (s : State) (d : TReg) (a b : XReg),
    (∀ i : Nat, (s.getT d).Wf → s.sx a = i → i < (s.getT d).len → -1 ≤ s.sx b → s.sx b ≤ 1 →
      ∃ t, exec (.tset d a b) s = .next t ∧ OnlyT s t d ∧ (t.getT d).len = (s.getT d).len ∧
        (t.getT d).wordCount = (s.getT d).wordCount ∧
        (∀ k : Nat, (t.getT d).trit k = if k = i then s.sx b else (s.getT d).trit k) ∧ (t.getT d).Wf ∧
        (t.getT d).tval = (s.getT d).tval + (s.sx b - (s.getT d).trit i) * pow3 i) ∧
    (s.sx a < 0 ∨ (s.getT d).len ≤ s.sx a → Faults (.tset d a b) s .bounds) ∧
    (0 ≤ s.sx a → s.sx a < (s.getT d).len → s.sx b < -1 ∨ 1 < s.sx b → Faults (.tset d a b) s .domain)

/-- WDIG writes the six-trit pattern of a value in [-364, 364], the same at both widths, and raises E_DOMAIN outside
(R134). -/
def Obligations.WdigMakesDigits : Prop :=
  ∀ (s : State) (d : PReg) (a : XReg),
    (-364 ≤ s.sx a → s.sx a ≤ 364 → ∃ t, exec (.wdig d a) s = .next t ∧ OnlyP s t d ∧ (t.getP d).Valid ∧
      (t.getP d).ZeroFrom 6 ∧ (t.getP d).val 6 = s.sx a ∧ t.pval .w32 d = s.sx a ∧ t.pval .w64 d = s.sx a) ∧
    (s.sx a < -364 ∨ 364 < s.sx a → Faults (.wdig d a) s .domain)

/-- Negation is exact: WNEG negates the value of the W-trit view (R135), TNEG every trit and the value of an array, with n
and L kept (R136). -/
def Obligations.NegationIsExact : Prop :=
  (∀ (s : State) (w : Width) (d a : PReg), ∃ t, exec (.wneg w d a) s = .next t ∧ OnlyP s t d ∧ t.pval w d = -s.pval w a ∧
    (t.getP d).ZeroFrom w.trits ∧ ((s.getP a).Valid → (t.getP d).Valid)) ∧
  ∀ (s : State) (d a : TReg), ∃ t, exec (.tneg d a) s = .next t ∧ OnlyT s t d ∧ (t.getT d).tval = -(s.getT a).tval ∧
    (t.getT d).len = (s.getT a).len ∧ (t.getT d).wordCount = (s.getT a).wordCount ∧
    (∀ i : Nat, (t.getT d).trit i = -(s.getT a).trit i) ∧ ((s.getT a).Canonical → (t.getT d).Canonical)

/-! Fixed-width arithmetic (42_fixed_width.md). -/

/-- The wrap law: WADD, WSUB and WMUL write the low W trits of the exact result, with nothing above position W-1, and leave
CF; WADDC adds the carry trit in and keeps in CF the carry out, a valid carry trit that makes the sum exact (R151, with the
commands of R152, R154 to R156, R159 and R160). -/
def Obligations.FixedWidthWraps : Prop :=
  ∀ (s : State) (w : Width) (d a b : PReg),
    (∃ t, exec (.wadd w d a b) s = .next t ∧ OnlyP s t d ∧ (t.getP d).Valid ∧ (t.getP d).ZeroFrom w.trits ∧
      t.pval w d = balancedResidue w.trits (s.pval w a + s.pval w b)) ∧
    (∃ t, exec (.wsub w d a b) s = .next t ∧ OnlyP s t d ∧ (t.getP d).Valid ∧ (t.getP d).ZeroFrom w.trits ∧
      t.pval w d = balancedResidue w.trits (s.pval w a - s.pval w b)) ∧
    (∃ t, exec (.wmul w d a b) s = .next t ∧ OnlyP s t d ∧ (t.getP d).Valid ∧ (t.getP d).ZeroFrom w.trits ∧
      t.pval w d = balancedResidue w.trits (s.pval w a * s.pval w b)) ∧
    ∃ t, exec (.waddc w d a b) s = .next t ∧ OnlyPCF s t d ∧ (t.getP d).Valid ∧ (t.getP d).ZeroFrom w.trits ∧
      t.pval w d = balancedResidue w.trits (s.pval w a + s.pval w b + s.cf.value) ∧ t.cf.Valid ∧
      t.pval w d + t.cf.value * pow3 w.trits = s.pval w a + s.pval w b + s.cf.value

/-- Two WADDC.64 chained through CF add two 128-trit numbers exactly (R156). -/
def Obligations.WaddcChains : Prop :=
  ∀ (s t u : State) (d0 a0 b0 d1 a1 b1 : PReg), d0 ≠ a1 → d0 ≠ b1 → d0 ≠ d1 →
    exec (.waddc .w64 d0 a0 b0) s = .next t → exec (.waddc .w64 d1 a1 b1) t = .next u →
    u.pval .w64 d0 + u.pval .w64 d1 * pow3 64 + u.cf.value * pow3 128 =
      (s.pval .w64 a0 + s.pval .w64 a1 * pow3 64) + (s.pval .w64 b0 + s.pval .w64 b1 * pow3 64) + s.cf.value

/-- Subtracting what was added gives the W-trit view of the first operand back, also when the sum wrapped (R155). -/
def Obligations.WsubUndoesWadd : Prop :=
  ∀ (s t : State) (w : Width) (d a b e : PReg), (s.getP a).Valid → d ≠ b → exec (.wadd w d a b) s = .next t →
    ∃ u, exec (.wsub w e d b) t = .next u ∧ u.getP e = (s.getP a).keepLow w.trits

/-- The carry trit: CFRD reads it as an integer (R157); CFWR writes one of -1, 0, +1, and raises E_DOMAIN for another value
(R158). -/
def Obligations.CarryAccess : Prop :=
  (∀ (s : State) (d : XReg), ∃ t, exec (.cfrd d) s = .next t ∧
    XResult s t d (BitVec.ofInt 128 ((s.cf.p.toNat : Int) - (s.cf.n.toNat : Int)))) ∧
  ∀ (s : State) (a : XReg),
    (s.sx a = -1 ∨ s.sx a = 0 ∨ s.sx a = 1 →
      exec (.cfwr a) s = .next { s with cf := ⟨decide (s.sx a = -1), decide (s.sx a = 1)⟩ }) ∧
    (s.sx a < -1 ∨ 1 < s.sx a → Faults (.cfwr a) s .domain)

/-- The fixed-width shifts, trit by trit: WSHL moves position j to j + k and WSHR to j - k for the signed amount k, a trit
that leaves [0, W) is dropped and a 0 comes in, for any 128-bit k (R161, R162, R163). -/
def Obligations.FixedWidthShiftsMoveTrits : Prop :=
  ∀ (s : State) (w : Width) (d a : PReg) (b : XReg),
    (∃ t, exec (.wshl w d a b) s = .next t ∧ OnlyP s t d ∧ (t.getP d).ZeroFrom w.trits ∧
      ((s.getP a).Valid → (t.getP d).Valid) ∧
      ∀ i < w.trits, (t.getP d).trit i =
        if 0 ≤ (i : Int) - s.sx b ∧ (i : Int) - s.sx b < w.trits then (s.getP a).trit ((i : Int) - s.sx b).toNat else 0) ∧
    ∃ t, exec (.wshr w d a b) s = .next t ∧ OnlyP s t d ∧ (t.getP d).ZeroFrom w.trits ∧
      ((s.getP a).Valid → (t.getP d).Valid) ∧
      ∀ i < w.trits, (t.getP d).trit i =
        if 0 ≤ (i : Int) + s.sx b ∧ (i : Int) + s.sx b < w.trits then (s.getP a).trit ((i : Int) + s.sx b).toNat else 0

/-- The shift value laws: for 0 <= k < W a left shift multiplies by 3^k and wraps, and a right shift gives the integer nearest
to the value over 3^k, never a tie (R164). -/
def Obligations.FixedWidthShiftValues : Prop :=
  ∀ (s : State) (w : Width) (d a : PReg) (b : XReg) (k : Nat), s.sx b = k → k < w.trits →
    (∃ t, exec (.wshl w d a b) s = .next t ∧ t.pval w d = balancedResidue w.trits (s.pval w a * pow3 k)) ∧
    ∃ t, exec (.wshr w d a b) s = .next t ∧ 2 * |t.pval w d * pow3 k - s.pval w a| < pow3 k

/-- WTOINT gives the value of the pair when it fits N bits, else E_OVERFLOW (R166). -/
def Obligations.WtointConverts : Prop :=
  ∀ (s : State) (w : Width) (n : NativeWidth) (d : XReg) (a : PReg),
    (-(2 ^ (n.bits - 1)) ≤ s.pval w a → s.pval w a < 2 ^ (n.bits - 1) → ∃ t, exec (.wtoint w n d a) s = .next t ∧
      XResult s t d (BitVec.ofInt 128 (s.pval w a)) ∧ (t.getX d).toInt = s.pval w a) ∧
    (s.pval w a < -(2 ^ (n.bits - 1)) ∨ 2 ^ (n.bits - 1) ≤ s.pval w a → Faults (.wtoint w n d a) s .overflow)

/-- WFROMINT writes the W trits of the low N bits of X[a], signed, when there are such trits, else E_OVERFLOW; and WTOINT of
the result gives that integer back (R167). -/
def Obligations.WfromintConverts : Prop :=
  ∀ (s : State) (w : Width) (n : NativeWidth) (d : PReg) (a : XReg),
    (-tritMax w.trits ≤ s.sintN n a → s.sintN n a ≤ tritMax w.trits → ∃ t, exec (.wfromint w n d a) s = .next t ∧
      OnlyP s t d ∧ (t.getP d).Valid ∧ (t.getP d).ZeroFrom w.trits ∧ t.pval w d = s.sintN n a ∧
      ∀ e : XReg, ∃ u, exec (.wtoint w n e d) t = .next u ∧ (u.getX e).toInt = s.sintN n a) ∧
    (s.sintN n a < -tritMax w.trits ∨ tritMax w.trits < s.sintN n a → Faults (.wfromint w n d a) s .overflow)

/-- WCNT counts the nonzero trits of the W-trit view (42_fixed_width.md R168) and TCNT those of an array
(43_arbitrary_precision.md R202); TISZ answers 1 when no trit is set and 0 otherwise, whatever n and L are (R201). -/
def Obligations.CountsAndZeroTest : Prop :=
  (∀ (s : State) (w : Width) (d : XReg) (a : PReg), (s.getP a).Valid → ∃ t, exec (.wcnt w d a) s = .next t ∧
    XResult s t d (BitVec.ofNat 128 ((List.range w.trits).countP fun i => decide ((s.getP a).trit i ≠ 0)))) ∧
  (∀ (s : State) (d : XReg) (a : TReg), (s.getT a).Wf → ∃ t, exec (.tcnt d a) s = .next t ∧
    XResult s t d (BitVec.ofNat 128 ((List.range (s.getT a).len).countP fun i => decide ((s.getT a).trit i ≠ 0)))) ∧
  ∀ (s : State) (d : XReg) (a : TReg), ∃ t, exec (.tisz d a) s = .next t ∧ XResult s t d (t.getX d) ∧
    ((∀ i : Nat, (s.getT a).trit i = 0) → t.getX d = 1) ∧ ((∃ i : Nat, (s.getT a).trit i ≠ 0) → t.getX d = 0)

/-! Arbitrary precision (43_arbitrary_precision.md). -/

/-- TADD, TSUB and TMUL are exact: the result has the exact value and the form of the length invariant, and CF is left; a
value that no array of MAX_WORDS word pairs holds raises E_CAPACITY (R190 to R192, R195, R196, R205). -/
def Obligations.ArbitraryArithmeticIsExact : Prop :=
  ∀ (s : State) (d a b : TReg) (i : Instr) (v : Int),
    (i = .tadd d a b ∧ v = (s.getT a).tval + (s.getT b).tval ∨ i = .tsub d a b ∧ v = (s.getT a).tval - (s.getT b).tval ∨
      i = .tmul d a b ∧ v = (s.getT a).tval * (s.getT b).tval) →
    (s.FitsCapacity v → ∃ t, exec i s = .next t ∧ OnlyT s t d ∧ (t.getT d).tval = v ∧ (t.getT d).Canonical ∧
      (t.getT d).Wf) ∧
    (¬s.FitsCapacity v → Faults i s .capacity)

/-- The add laws: adding a zero, of any form, gives a canonical operand back and any other operand in canonical form;
addition commutes bit for bit; adding and then adding the negated operand gives a canonical operand back; and every sum
satisfies the length invariant (R193). -/
def Obligations.AddLaws : Prop :=
  (∀ (s : State) (d a b : TReg), (s.getT a).Canonical → (s.getT a).Valid → (s.getT a).wordCount ≤ s.params.maxWords →
    (s.getT b).tval = 0 → ∃ t, exec (.tadd d a b) s = .next t ∧ t.getT d = s.getT a) ∧
  (∀ (s : State) (d a b : TReg), (s.getT b).tval = 0 → s.FitsCapacity (s.getT a).tval →
    ∃ t, exec (.tadd d a b) s = .next t ∧ (t.getT d).tval = (s.getT a).tval ∧ t.getT d = canon (s.getT a).tval) ∧
  (∀ (s : State) (d a b : TReg), s.FitsCapacity ((s.getT a).tval + (s.getT b).tval) →
    ∃ t, exec (.tadd d a b) s = .next t ∧ exec (.tadd d b a) s = .next t) ∧
  (∀ (s : State) (d a b e : TReg), (s.getT a).Canonical → (s.getT a).Valid →
    (s.getT a).wordCount ≤ s.params.maxWords → s.FitsCapacity ((s.getT a).tval + (s.getT b).tval) → d ≠ b → d ≠ e →
    ∃ t u v, exec (.tadd d a b) s = .next t ∧ exec (.tneg e b) t = .next u ∧ exec (.tadd d d e) u = .next v ∧
      v.getT d = s.getT a) ∧
  ∀ (s : State) (d a b : TReg), s.FitsCapacity ((s.getT a).tval + (s.getT b).tval) →
    ∃ t, exec (.tadd d a b) s = .next t ∧ (t.getT d).Canonical

/-- The result of a value command depends on the values of its sources alone, never on their n or L (R190). -/
def Obligations.ResultsDependOnValues : Prop :=
  ∀ (s t t' : State) (d a b : TReg) (c : XReg) (A B : TritArray) (i : Instr), a ≠ b →
    A.tval = (s.getT a).tval → B.tval = (s.getT b).tval →
    i ∈ [.tadd d a b, .tsub d a b, .tmul d a b, .tshl d a c, .tshr d a c, .ttrim d a] →
    exec i s = .next t → exec i ((s.setT a A).setT b B) = .next t' →
    t'.faultRec = t.faultRec ∧ (t.faultRec = s.faultRec → s.faultRec.fault = false → t'.getT d = t.getT d)

/-- TTRIM gives the canonical form of the value; on a well-formed array that is trim_len of it, never longer
(R194, R200). -/
def Obligations.TtrimCanonicalizes : Prop :=
  ∀ (s : State) (d a : TReg), ∃ t, exec (.ttrim d a) s = .next t ∧ OnlyT s t d ∧ (t.getT d).tval = (s.getT a).tval ∧
    (t.getT d).Canonical ∧ (t.getT d).Wf ∧
    ((s.getT a).Wf → t.getT d = trimLen (s.getT a) ∧ (t.getT d).len ≤ (s.getT a).len)

/-- A left shift of an array by k, TSHL with k >= 0 or TSHR with -k < 0: E_SHIFT above MAX_SHIFT whatever the value, then
E_CAPACITY, else the value times 3^k, canonical, and Z1 for zero (R197, R198, R199). -/
def Obligations.LeftShiftOfArrays : Prop :=
  ∀ (s : State) (d a : TReg) (b : XReg) (i : Instr) (k : Nat),
    (i = .tshl d a b ∧ s.sx b = k ∨ i = .tshr d a b ∧ s.sx b = -k ∧ 0 < k) →
    (s.params.maxShift < k → Faults i s .shift) ∧
    (k ≤ s.params.maxShift → (s.getT a).tval ≠ 0 → s.FitsCapacity ((s.getT a).tval * pow3 k) →
      ∃ t, exec i s = .next t ∧ OnlyT s t d ∧ (t.getT d).tval = (s.getT a).tval * pow3 k ∧ (t.getT d).Canonical ∧
        (t.getT d).Wf) ∧
    (k ≤ s.params.maxShift → (s.getT a).tval = 0 → 1 ≤ s.params.maxWords →
      ∃ t, exec i s = .next t ∧ OnlyT s t d ∧ t.getT d = TritArray.z1) ∧
    (k ≤ s.params.maxShift → ¬s.FitsCapacity ((s.getT a).tval * pow3 k) → Faults i s .capacity)

/-- A right shift of an array by k, TSHR with k >= 0 or TSHL with -k < 0, has no ceiling: trit i of the result is trit i + k
of the source, the value is the integer nearest to tval / 3^k, the result is canonical, and Z1 when it is zero (R197, R198,
R199). -/
def Obligations.RightShiftOfArrays : Prop :=
  ∀ (s : State) (d a : TReg) (b : XReg) (i : Instr) (k : Nat),
    (i = .tshr d a b ∧ s.sx b = k ∨ i = .tshl d a b ∧ s.sx b = -k ∧ 0 < k) →
    1 ≤ s.params.maxWords → (s.getT a).wordCount ≤ s.params.maxWords →
    ∃ t, exec i s = .next t ∧ OnlyT s t d ∧ (t.getT d).Wf ∧ (∀ j : Nat, (t.getT d).trit j = (s.getT a).trit (j + k)) ∧
      2 * |(t.getT d).tval * pow3 k - (s.getT a).tval| < pow3 k ∧
      ((t.getT d).tval = 0 → t.getT d = TritArray.z1) ∧ ((t.getT d).tval ≠ 0 → (t.getT d).Canonical)

/-- TTOINT gives the value when it fits N bits, else E_OVERFLOW (R203); TFROMINT writes the canonical array of the low N bits
of X[a], signed, of at most 2 words (R204); and TTOINT of TFROMINT gives that integer back. -/
def Obligations.ArbitraryConversions : Prop :=
  (∀ (s : State) (n : NativeWidth) (d : XReg) (a : TReg),
    (-(2 ^ (n.bits - 1)) ≤ (s.getT a).tval → (s.getT a).tval < 2 ^ (n.bits - 1) → ∃ t, exec (.ttoint n d a) s = .next t ∧
      XResult s t d (BitVec.ofInt 128 (s.getT a).tval) ∧ (t.getX d).toInt = (s.getT a).tval) ∧
    ((s.getT a).tval < -(2 ^ (n.bits - 1)) ∨ 2 ^ (n.bits - 1) ≤ (s.getT a).tval → Faults (.ttoint n d a) s .overflow)) ∧
  ∀ (s : State) (n : NativeWidth) (d : TReg) (a : XReg), ∃ t, exec (.tfromint n d a) s = .next t ∧ OnlyT s t d ∧ (t.getT d).tval = s.sintN n a ∧
    (t.getT d).Canonical ∧ (t.getT d).Wf ∧ (t.getT d).wordCount ≤ 2 ∧
    ∀ e : XReg, ∃ u, exec (.ttoint n e d) t = .next u ∧ (u.getX e).toInt = s.sintN n a

/-! The splicer (44_range_splicer.md) and the tables (46_tritwise_tables.md). -/

/-- Splice correctness: with start and stop resolved against L (a negative bound counts from the end), the result of a legal
range has length stop - start and trit i equal to trit start + i of the source; every other range raises E_BOUNDS and
leaves T[d] (R230, R231, R233). -/
def Obligations.SpliceIsCorrect : Prop :=
  ∀ (s : State) (d a : TReg) (b c : XReg) (start stop : Int),
    start = (if s.sx b < 0 then s.sx b + (s.getT a).len else s.sx b) →
    stop = (if s.sx c < 0 then s.sx c + (s.getT a).len else s.sx c) →
    (0 ≤ start → start ≤ stop → stop ≤ (s.getT a).len → ∃ t, exec (.tsplice d a b c) s = .next t ∧ OnlyT s t d ∧
      ((t.getT d).len : Int) = stop - start ∧ (t.getT d).wordCount = ((t.getT d).len + 63) / 64 ∧ (t.getT d).Wf ∧
      ∀ i < (t.getT d).len, (t.getT d).trit i = (s.getT a).trit (start.toNat + i)) ∧
    (start < 0 ∨ stop < start ∨ (s.getT a).len < stop → Faults (.tsplice d a b c) s .bounds)

/-- The two-word merge of the source computes the splice of a nonempty range whose bounds count from the start (R232);
from-end bounds and the empty range are in SpliceIsCorrect. -/
def Obligations.SpliceByWordsAgrees : Prop :=
  ∀ (s : State) (d a : TReg) (b c : XReg) (start stop : Nat), (s.getT a).Wf → s.sx b = start → s.sx c = stop →
    start < stop → stop ≤ (s.getT a).len →
    ∃ t, exec (.tsplice d a b c) s = .next t ∧ t.getT d = spliceByWords (s.getT a) start (stop - start)

/-- TMAP1 sends every trit through the unary table, with the source's L, not trimmed (R240); TMAP2 sends the trits of both
operands, position by position, through the row-major binary table, with the longer length, the shorter operand reading 0
above its L (R241); a table of another length than 3 or 9 raises E_TABLE (R242). -/
def Obligations.TableMaps : Prop :=
  (∀ (s : State) (d a b : TReg),
    ((s.getT b).len = 3 → ∃ t, exec (.tmap1 d a b) s = .next t ∧ OnlyT s t d ∧ (t.getT d).len = (s.getT a).len ∧
      (t.getT d).wordCount = ((s.getT a).len + 63) / 64 ∧ (t.getT d).Wf ∧
      ∀ i < (s.getT a).len,
        ((s.getT a).trit i = -1 → (t.getT d).trit i = (s.getT b).trit 0) ∧
        ((s.getT a).trit i = 0 → (t.getT d).trit i = (s.getT b).trit 1) ∧
        ((s.getT a).trit i = 1 → (t.getT d).trit i = (s.getT b).trit 2)) ∧
    ((s.getT b).len ≠ 3 → Faults (.tmap1 d a b) s .table)) ∧
  ∀ (s : State) (d a b c : TReg),
    ((s.getT c).len = 9 → ∃ t, exec (.tmap2 d a b c) s = .next t ∧ OnlyT s t d ∧
      (t.getT d).len = max (s.getT a).len (s.getT b).len ∧ (t.getT d).wordCount = ((t.getT d).len + 63) / 64 ∧
      (t.getT d).Wf ∧
      ∀ i < (t.getT d).len, ∀ k : Nat,
        (k : Int) = 3 * ((if i < (s.getT a).len then (s.getT a).trit i else 0) + 1) +
          ((if i < (s.getT b).len then (s.getT b).trit i else 0) + 1) →
        (t.getT d).trit i = (s.getT c).trit k) ∧
    ((s.getT c).len ≠ 9 → Faults (.tmap2 d a b c) s .table)

/-! The codec (45_stream_codec.md). -/

/-- ENCSYM folds the biased symbol u = v + 13 into the p pending digits: with t = EACC + u * 3^p, at p below 2 it only
accumulates, else the byte t mod 243 comes out and t div 243 stays; E_DOMAIN outside [-13, 13], then E_FIFO_FULL when a
byte comes out and BF is full (R251, R252). -/
def Obligations.EncsymEncodes : Prop :=
  (∀ (s : State) (a : XReg), s.sx a < -13 ∨ 13 < s.sx a → Faults (.encsym a) s .domain) ∧
  ∀ (s : State) (a : XReg) (p t : Nat), s.enc.Legal → p = s.enc.off.toNat → -13 ≤ s.sx a → s.sx a ≤ 13 →
    (t : Int) = s.enc.acc.toNat + (s.sx a + 13) * 3 ^ p →
    (p < 2 → ∃ u, exec (.encsym a) s = .next u ∧ OnlyEnc s u ∧
      u.enc.off.toNat = p + 3 ∧ u.enc.acc.toNat = t ∧ u.enc.fifo = s.enc.fifo) ∧
    (2 ≤ p → s.enc.fifo.length < s.params.fifoDepth →
      ∃ u, exec (.encsym a) s = .next u ∧ OnlyEnc s u ∧ u.enc.off.toNat = p - 2 ∧ u.enc.acc.toNat = t / 243 ∧
        u.enc.fifo = s.enc.fifo ++ [BitVec.ofNat 8 (t % 243)]) ∧
    (2 ≤ p → s.enc.fifo.length = s.params.fifoDepth → Faults (.encsym a) s .fifoFull)

/-- ENCEND closes the group: nothing at offset 0, the accumulator as a data byte at offsets 3 and 4, 255 - EACC at offsets 1
and 2, and E_FIFO_FULL when a byte has no room (R253); ENCHDR pushes 245, 244 at offset 0, and raises E_STATE inside a
group before E_FIFO_FULL (R254). -/
def Obligations.EncoderEndAndHeader : Prop :=
  (∀ s : State, s.enc.Legal →
    (s.enc.off = 0 → ∃ u, exec .encend s = .next u ∧ OnlyEnc s u ∧ u.enc = ⟨0, 0, s.enc.fifo⟩) ∧
    (3 ≤ s.enc.off.toNat → s.enc.fifo.length < s.params.fifoDepth → ∃ u, exec .encend s = .next u ∧ OnlyEnc s u ∧
      u.enc = ⟨0, 0, s.enc.fifo ++ [s.enc.acc]⟩) ∧
    (s.enc.off = 1 ∨ s.enc.off = 2 → s.enc.fifo.length < s.params.fifoDepth → ∃ u, exec .encend s = .next u ∧
      OnlyEnc s u ∧ u.enc = ⟨0, 0, s.enc.fifo ++ [255 - s.enc.acc]⟩) ∧
    (s.enc.off ≠ 0 → s.enc.fifo.length = s.params.fifoDepth → Faults .encend s .fifoFull)) ∧
  ∀ s : State,
    (s.enc.off = 0 → s.enc.fifo.length + 2 ≤ s.params.fifoDepth → ∃ u, exec .enchdr s = .next u ∧ OnlyEnc s u ∧
      u.enc = ⟨0, s.enc.acc, s.enc.fifo ++ [245, 244]⟩) ∧
    (s.enc.off = 0 → s.params.fifoDepth < s.enc.fifo.length + 2 → Faults .enchdr s .fifoFull) ∧
    (s.enc.off ≠ 0 → Faults .enchdr s .state)

/-- ENCRST, DECEND and DECRST: what each empties, and that the other half of the codec stays (R255, R261, R262). -/
def Obligations.CodecResets : Prop :=
  ∀ s : State,
    (∃ u, exec .encrst s = .next u ∧ OnlyEnc s u ∧ u.enc = ⟨0, 0, []⟩) ∧
    (∃ u, exec .decend s = .next u ∧ OnlyDec s u ∧ u.dec = ⟨0, 0, s.dec.fifo⟩) ∧
    ∃ u, exec .decrst s = .next u ∧ OnlyDec s u ∧ u.dec = ⟨0, 0, []⟩

/-- DECBYTE of a data byte b < 243: with t = DPEND + b * 3^q, the 5 + q digits give one symbol at q = 0 and two at q = 1
and 2, and the rest is held over; without room for all of them it raises E_FIFO_FULL and pushes none (R256, R260). -/
def Obligations.DecbyteDecodesData : Prop :=
  ∀ (s : State) (a : XReg) (q b t : Nat), s.dec.Legal → q = s.dec.off.toNat → s.sx a = b → b < 243 →
    t = s.dec.pend.toNat + b * 3 ^ q →
    (q = 0 → s.dec.fifo.length + 1 ≤ s.params.fifoDepth → ∃ u, exec (.decbyte a) s = .next u ∧ OnlyDec s u ∧
      u.dec.off = 2 ∧ u.dec.pend.toNat = t / 27 ∧ u.dec.fifo = s.dec.fifo ++ [((t % 27 : Nat) : Int) - 13]) ∧
    (q = 0 → s.params.fifoDepth < s.dec.fifo.length + 1 → Faults (.decbyte a) s .fifoFull) ∧
    (q ≠ 0 → s.dec.fifo.length + 2 ≤ s.params.fifoDepth → ∃ u, exec (.decbyte a) s = .next u ∧ OnlyDec s u ∧
      u.dec.off.toNat = q - 1 ∧ u.dec.pend.toNat = t / 729 ∧
      u.dec.fifo = s.dec.fifo ++ [((t % 27 : Nat) : Int) - 13, ((t / 27 % 27 : Nat) : Int) - 13]) ∧
    (q ≠ 0 → s.params.fifoDepth < s.dec.fifo.length + 2 → Faults (.decbyte a) s .fifoFull)

/-- DECBYTE of an integer outside [0, 255] raises E_DOMAIN (R260). Of the bytes from 243 on: 243 raises E_CODEC (R259), 244 and 245 drop the pending digits (R257), a terminator
gives the last symbol at q = 1 and 2 if its value is one the encoder can emit there, else E_CODEC, and at q = 0 what
CFG.F0F selects: nothing, or E_CODEC (R258). -/
def Obligations.DecbyteDecodesMarkers : Prop :=
  (∀ (s : State) (a : XReg), s.sx a < 0 ∨ 255 < s.sx a → Faults (.decbyte a) s .domain) ∧
  ∀ (s : State) (a : XReg) (q b t : Nat), s.dec.Legal → q = s.dec.off.toNat → s.sx a = b → b ≤ 255 → t = 255 - b →
    s.dec.fifo.length ≤ s.params.fifoDepth →
    (b = 243 → Faults (.decbyte a) s .codec) ∧
    (b = 244 ∨ b = 245 → ∃ u, exec (.decbyte a) s = .next u ∧ OnlyDec s u ∧ u.dec = ⟨0, 0, s.dec.fifo⟩) ∧
    (246 ≤ b → q = 0 → s.f0f = false → ∃ u, exec (.decbyte a) s = .next u ∧ OnlyDec s u ∧ u.dec = ⟨0, 0, s.dec.fifo⟩) ∧
    (246 ≤ b → q = 0 → s.f0f = true → Faults (.decbyte a) s .codec) ∧
    (246 ≤ b → q ≠ 0 → t < 3 ^ (3 - q) → s.dec.fifo.length < s.params.fifoDepth →
      ∃ u, exec (.decbyte a) s = .next u ∧ OnlyDec s u ∧
        u.dec = ⟨0, 0, s.dec.fifo ++ [((s.dec.pend.toNat + t * 3 ^ q : Nat) : Int) - 13]⟩) ∧
    (246 ≤ b → q ≠ 0 → t < 3 ^ (3 - q) → s.dec.fifo.length = s.params.fifoDepth → Faults (.decbyte a) s .fifoFull) ∧
    (246 ≤ b → q ≠ 0 → 3 ^ (3 - q) ≤ t → Faults (.decbyte a) s .codec)

/-- BPOP and SPOP take the oldest entry, zero- and sign-extended, and raise E_FIFO_EMPTY on an empty FIFO; BCNT and SCNT read
the levels (R263 to R266, 20_memory.md R64). -/
def Obligations.FifoAccess : Prop :=
  ∀ (s : State) (d : XReg),
    (∀ b rest, s.enc.fifo = b :: rest → ∃ t, exec (.bpop d) s = .next t ∧ t.enc = { s.enc with fifo := rest } ∧
      XResult { s with enc := t.enc } t d (BitVec.ofNat 128 b.toNat)) ∧
    (s.enc.fifo = [] → Faults (.bpop d) s .fifoEmpty) ∧
    (∀ v rest, s.dec.fifo = v :: rest → ∃ t, exec (.spop d) s = .next t ∧ t.dec = { s.dec with fifo := rest } ∧
      XResult { s with dec := t.dec } t d (BitVec.ofInt 128 v)) ∧
    (s.dec.fifo = [] → Faults (.spop d) s .fifoEmpty) ∧
    (∃ t, exec (.bcnt d) s = .next t ∧ XResult s t d (BitVec.ofNat 128 s.enc.fifo.length)) ∧
    ∃ t, exec (.scnt d) s = .next t ∧ XResult s t d (BitVec.ofNat 128 s.dec.fifo.length)

/-- The codec round trip: encoding any symbols, with or without the header, and decoding the bytes leaves exactly those
symbols, in order, when the FIFOs have room; and without the header no byte is 243 to 246 (R268). -/
def Obligations.CodecRoundTrip : Prop :=
  ∀ (s : State) (symbols : List Int) (header : Bool), (∀ v ∈ symbols, -13 ≤ v ∧ v ≤ 13) → s.enc = ⟨0, 0, []⟩ →
    s.dec = ⟨0, 0, []⟩ → s.faultRec.fault = false → symbols.length + 4 ≤ s.params.fifoDepth →
    ∃ s1 s2 s3 s4 s5, (if header then exec .enchdr s = .next s1 else s1 = s) ∧ encodeSymbols symbols s1 = some s2 ∧
      exec .encend s2 = .next s3 ∧ decodeBytes s3.enc.fifo s3 = some s4 ∧ exec .decend s4 = .next s5 ∧
      s5.dec = ⟨0, 0, symbols⟩ ∧ s5.faultRec.fault = false ∧
      (header = false → ∀ b ∈ s3.enc.fifo, b.toNat < 243 ∨ 246 < b.toNat)

/-! The source's algorithms agree with the arithmetic definitions. -/

/-- The bitwise add loop of the source, in W + 1 iterations, has no carry pending and gives the result and the carry-out of
WADDC (42_fixed_width.md R153). -/
def Obligations.BitwiseAddLoopAgrees : Prop :=
  ∀ (s t : State) (w : Width) (d a b : PReg), (s.getP a).Valid → (s.getP b).Valid → s.cf.Valid →
    exec (.waddc w d a b) s = .next t →
    (addLoop w.trits w.trits (s.getP a) (s.getP b) s.cf.value).y = WordPair.zero ∧
    (addLoop w.trits w.trits (s.getP a) (s.getP b) s.cf.value).x = t.getP d ∧
    (addLoop w.trits w.trits (s.getP a) (s.getP b) s.cf.value).carryTop = t.cf.value

/-- The source's word loop of addition, one add-with-carry a word and the final carry as a further word, then trimmed, gives
the result of TADD (43_arbitrary_precision.md R191). -/
def Obligations.AddByWordsAgrees : Prop :=
  ∀ (s : State) (d a b : TReg), s.FitsCapacity ((s.getT a).tval + (s.getT b).tval) →
    ∃ t, exec (.tadd d a b) s = .next t ∧ t.getT d = addByWords (s.getT a) (s.getT b)

/-- The source's shift-and-add product gives the result of WMUL (42_fixed_width.md R159). -/
def Obligations.MulByShiftsAgrees : Prop :=
  ∀ (s : State) (w : Width) (d a b : PReg),
    ∃ t, exec (.wmul w d a b) s = .next t ∧ t.getP d = mulByShifts w.trits (s.getP a) (s.getP b) w.trits
end

