-- ==== Sys2Proof/Laws/TritSum.lean ====
section
/-! SUPPORT. Sums of trits: splitting, bounds and the uniqueness of balanced digits (00_scope.md R8). -/

namespace Sys2Proof.Machine

@[simp] theorem pow3_zero : pow3 0 = 1 := rfl

theorem pow3_succ (k : Nat) : pow3 (k + 1) = 3 * pow3 k := by
  simp only [pow3, pow_succ]; push_cast; ring

theorem pow3_add (a b : Nat) : pow3 (a + b) = pow3 a * pow3 b := by
  simp only [pow3, pow_add]; push_cast; ring

theorem pow3_pos (k : Nat) : 0 < pow3 k := by
  simp only [pow3]; positivity

@[simp] theorem tritMax_zero : tritMax 0 = 0 := rfl

/-- 3^k = 2 H_k + 1. -/
theorem two_mul_tritMax (k : Nat) : 2 * tritMax k + 1 = pow3 k := by
  have h : (3 ^ k) % 2 = 1 := by
    induction k with
    | zero => rfl
    | succ n ih => omega
  simp only [tritMax, pow3]
  generalize 3 ^ k = n at h
  omega

theorem tritMax_succ (k : Nat) : tritMax (k + 1) = 3 * tritMax k + 1 := by
  have h1 := two_mul_tritMax k
  have h2 := two_mul_tritMax (k + 1)
  rw [pow3_succ] at h2
  omega

theorem tritMax_nonneg (k : Nat) : 0 ≤ tritMax k :=
  Int.natCast_nonneg _

theorem tritMax_mono {j k : Nat} (h : j ≤ k) : tritMax j ≤ tritMax k := by
  induction h with
  | refl => exact le_refl _
  | step _ ih => rw [tritMax_succ]; have := tritMax_nonneg ‹_›; omega

@[simp] theorem tritSum_zero (f : Nat → Int) : tritSum f 0 = 0 := rfl

theorem tritSum_succ (f : Nat → Int) (k : Nat) : tritSum f (k + 1) = tritSum f k + f k * pow3 k := rfl

theorem tritSum_congr {f g : Nat → Int} {k : Nat} (h : ∀ i < k, f i = g i) : tritSum f k = tritSum g k := by
  induction k with
  | zero => rfl
  | succ n ih => rw [tritSum_succ, tritSum_succ, ih fun i hi => h i (by omega), h n (by omega)]

/-- The high part of a sum is a sum of its own, 3^m times as heavy. -/
theorem tritSum_split (f : Nat → Int) (m k : Nat) :
    tritSum f (m + k) = tritSum f m + pow3 m * tritSum (fun i => f (m + i)) k := by
  induction k with
  | zero => simp
  | succ n ih => rw [← Nat.add_assoc, tritSum_succ, ih, tritSum_succ, pow3_add]; ring

/-- A sum from its least significant trit. -/
theorem tritSum_succ_low (f : Nat → Int) (k : Nat) : tritSum f (k + 1) = f 0 + 3 * tritSum (fun i => f (i + 1)) k := by
  have h := tritSum_split f 1 k
  rw [Nat.add_comm 1 k] at h
  rw [h]
  simp [tritSum_succ, pow3_succ, Nat.add_comm]

theorem tritSum_neg (f : Nat → Int) (k : Nat) : tritSum (fun i => -f i) k = -tritSum f k := by
  induction k with
  | zero => rfl
  | succ n ih => rw [tritSum_succ, tritSum_succ, ih]; ring

theorem tritSum_eq_zero {f : Nat → Int} {k : Nat} (h : ∀ i < k, f i = 0) : tritSum f k = 0 := by
  rw [tritSum_congr h]
  induction k with
  | zero => rfl
  | succ n ih => rw [tritSum_succ, ih fun i hi => h i (by omega)]; simp

/-- Positions that hold 0 do not count. -/
theorem tritSum_extend {f : Nat → Int} {k m : Nat} (hkm : k ≤ m) (h : ∀ i, k ≤ i → i < m → f i = 0) :
    tritSum f m = tritSum f k := by
  obtain ⟨d, rfl⟩ := Nat.exists_eq_add_of_le hkm
  rw [tritSum_split, tritSum_eq_zero fun i hi => h (k + i) (by omega) (by omega)]
  simp

/-- k trits have a value in [-H_k, H_k] (00_scope.md R8). -/
theorem tritSum_bounds {f : Nat → Int} {k : Nat} (h : ∀ i < k, -1 ≤ f i ∧ f i ≤ 1) :
    -tritMax k ≤ tritSum f k ∧ tritSum f k ≤ tritMax k := by
  induction k with
  | zero => simp
  | succ n ih =>
    have hn := h n (by omega)
    have hs := ih fun i hi => h i (by omega)
    have h2 := two_mul_tritMax n
    have hp := pow3_pos n
    rw [tritSum_succ, tritMax_succ]
    have : -pow3 n ≤ f n * pow3 n ∧ f n * pow3 n ≤ pow3 n := by constructor <;> nlinarith
    omega

/-- Uniqueness of balanced digits: equal values of k trits have equal trits (00_scope.md R8). -/
theorem tritSum_inj {f g : Nat → Int} {k : Nat} (hf : ∀ i < k, -1 ≤ f i ∧ f i ≤ 1) (hg : ∀ i < k, -1 ≤ g i ∧ g i ≤ 1)
    (h : tritSum f k = tritSum g k) : ∀ i < k, f i = g i := by
  induction k generalizing f g with
  | zero => intro i hi; omega
  | succ n ih =>
    rw [tritSum_succ_low, tritSum_succ_low] at h
    have h0 := hf 0 (by omega)
    have h0' := hg 0 (by omega)
    have hlow : f 0 = g 0 := by omega
    have hhigh := ih (f := fun i => f (i + 1)) (g := fun i => g (i + 1)) (fun i hi => hf (i + 1) (by omega))
      (fun i hi => hg (i + 1) (by omega)) (by omega)
    intro i hi
    cases i with
    | zero => exact hlow
    | succ j => exact hhigh j (by omega)

theorem balancedResidue_bounds (k : Nat) (v : Int) : -tritMax k ≤ balancedResidue k v ∧ balancedResidue k v ≤ tritMax k := by
  have hp := pow3_pos k
  have h2 := two_mul_tritMax k
  have h1 := Int.emod_nonneg (v + tritMax k) (ne_of_gt hp)
  have h3 := Int.emod_lt_of_pos (v + tritMax k) hp
  simp only [balancedResidue]
  omega

/-- The balanced residue differs from v by a multiple of 3^k. -/
theorem balancedResidue_eq_sub (k : Nat) (v : Int) : ∃ q, v = balancedResidue k v + q * pow3 k := by
  refine ⟨(v + tritMax k) / pow3 k, ?_⟩
  have h := Int.emod_add_mul_ediv (v + tritMax k) (pow3 k)
  simp only [balancedResidue]
  linarith [mul_comm (pow3 k) ((v + tritMax k) / pow3 k)]

/-- The balanced residue is the one value in range with its residue. -/
theorem balancedResidue_unique {k : Nat} {v r q : Int} (hr : -tritMax k ≤ r ∧ r ≤ tritMax k) (h : v = r + q * pow3 k) :
    balancedResidue k v = r := by
  have h2 := two_mul_tritMax k
  have : (v + tritMax k) % pow3 k = r + tritMax k := by
    rw [h, show r + q * pow3 k + tritMax k = (r + tritMax k) + q * pow3 k by ring, Int.add_mul_emod_self_right]
    exact Int.emod_eq_of_lt (by omega) (by omega)
  simp only [balancedResidue, this]
  ring

/-- A value in range is its own balanced residue. -/
theorem balancedResidue_of_bounds {k : Nat} {v : Int} (h : -tritMax k ≤ v ∧ v ≤ tritMax k) : balancedResidue k v = v :=
  balancedResidue_unique (q := 0) h (by simp)

theorem lowDigit_bounds (v : Int) : -1 ≤ lowDigit v ∧ lowDigit v ≤ 1 := by
  simp only [lowDigit]; split <;> omega

/-- v from its low digit and the rest (00_scope.md R8). -/
theorem lowDigit_add_dropDigit (v : Int) : v = lowDigit v + 3 * dropDigit v := by
  simp only [dropDigit, lowDigit]; split <;> omega

/-- Digit i of the balanced form of v. -/
def digitAt (v : Int) : Nat → Int
  | 0 => lowDigit v
  | i + 1 => digitAt (dropDigit v) i

theorem digitAt_bounds (v : Int) (i : Nat) : -1 ≤ digitAt v i ∧ digitAt v i ≤ 1 := by
  induction i generalizing v with
  | zero => exact lowDigit_bounds v
  | succ n ih => exact ih (dropDigit v)

/-- The low k digits of v, and what is left above them. -/
theorem exists_tritSum_digitAt (k : Nat) (v : Int) : ∃ q, v = tritSum (digitAt v) k + q * pow3 k := by
  induction k generalizing v with
  | zero => exact ⟨v, by simp⟩
  | succ n ih =>
    obtain ⟨q, hq⟩ := ih (dropDigit v)
    refine ⟨q, ?_⟩
    have h := lowDigit_add_dropDigit v
    rw [tritSum_succ_low, pow3_succ]
    show v = lowDigit v + 3 * tritSum (digitAt (dropDigit v)) n + q * (3 * pow3 n)
    calc v = lowDigit v + 3 * dropDigit v := h
      _ = lowDigit v + 3 * (tritSum (digitAt (dropDigit v)) n + q * pow3 n) := by rw [← hq]
      _ = _ := by ring

/-- The low k digits of v have the balanced residue as their value. -/
theorem tritSum_digitAt (k : Nat) (v : Int) : tritSum (digitAt v) k = balancedResidue k v := by
  obtain ⟨q, hq⟩ := exists_tritSum_digitAt k v
  exact (balancedResidue_unique (tritSum_bounds fun i _ => digitAt_bounds v i) hq).symm

end Sys2Proof.Machine
end

