-- ==== Sys2Proof/Laws/Trits.lean ====
section
/-! SUPPORT. What each operation on word pairs does to the trits and the value of a pair (00_scope.md R7, R8, R11). -/

namespace Sys2Proof.Machine

/-- A bit as a digit. -/
theorem toNat_bounds (b : Bool) : (0 : Int) ≤ b.toNat ∧ (b.toNat : Int) ≤ 1 := by cases b <;> simp

theorem trit_bounds (n p : TritBits) (i : Nat) : -1 ≤ trit n p i ∧ trit n p i ≤ 1 := by
  have h1 := toNat_bounds (n.getLsbD i)
  have h2 := toNat_bounds (p.getLsbD i)
  simp only [trit]
  omega

theorem WordPair.trit_bounds (a : WordPair) (i : Nat) : -1 ≤ a.trit i ∧ a.trit i ≤ 1 := Machine.trit_bounds _ _ _

/-- There is no trit above position 63. -/
theorem WordPair.trit_of_ge (a : WordPair) {i : Nat} (h : 64 ≤ i) : a.trit i = 0 := by
  simp [WordPair.trit, Machine.trit, BitVec.getLsbD_of_ge _ i h]

@[simp] theorem WordPair.zero_trit (i : Nat) : WordPair.zero.trit i = 0 := by
  simp [WordPair.trit, Machine.trit, WordPair.zero]

@[simp] theorem WordPair.zero_val (k : Nat) : WordPair.zero.val k = 0 := tritSum_eq_zero fun _ _ => by simp

theorem WordPair.zero_valid : WordPair.zero.Valid := by simp [WordPair.Valid, WordPair.zero]

/-- A pair is valid when no position is set in both vectors. -/
theorem WordPair.valid_iff (a : WordPair) : a.Valid ↔ ∀ i < 64, ¬(a.neg.getLsbD i = true ∧ a.pos.getLsbD i = true) := by
  constructor
  · intro h i _ hb
    have := congrArg (fun w : TritBits => w.getLsbD i) h
    simp [hb.1, hb.2] at this
  · intro h
    apply BitVec.eq_of_getLsbD_eq
    intro i hi
    simpa using h i hi

/-- The bits of a valid pair are known from its trits. -/
theorem WordPair.bits_of_valid {a : WordPair} (h : a.Valid) {i : Nat} (hi : i < 64) :
    a.neg.getLsbD i = (a.trit i == -1) ∧ a.pos.getLsbD i = (a.trit i == 1) := by
  have hv := (WordPair.valid_iff a).1 h i hi
  simp only [WordPair.trit, Machine.trit]
  cases hn : a.neg.getLsbD i <;> cases hp : a.pos.getLsbD i <;> simp_all

/-- Valid pairs with the same trits are the same pair. -/
theorem WordPair.ext_trit {a b : WordPair} (ha : a.Valid) (hb : b.Valid) (h : ∀ i < 64, a.trit i = b.trit i) : a = b := by
  obtain ⟨an, ap⟩ := a
  obtain ⟨bn, bp⟩ := b
  simp only [WordPair.mk.injEq]
  constructor <;>
  · apply BitVec.eq_of_getLsbD_eq
    intro i hi
    have h1 := WordPair.bits_of_valid ha hi
    have h2 := WordPair.bits_of_valid hb hi
    rw [h i hi] at h1
    simp_all

/-- The value of k trits lies in [-H_k, H_k]. -/
theorem WordPair.val_bounds (a : WordPair) (k : Nat) : -tritMax k ≤ a.val k ∧ a.val k ≤ tritMax k :=
  tritSum_bounds fun i _ => a.trit_bounds i

/-- Valid pairs that hold nothing above position k are known from their value. -/
theorem WordPair.ext_val {a b : WordPair} {k : Nat} (ha : a.Valid) (hb : b.Valid) (hza : ∀ i, k ≤ i → a.trit i = 0)
    (hzb : ∀ i, k ≤ i → b.trit i = 0) (h : a.val k = b.val k) : a = b := by
  refine WordPair.ext_trit ha hb fun i _ => ?_
  by_cases hi : i < k
  · exact tritSum_inj (fun j _ => a.trit_bounds j) (fun j _ => b.trit_bounds j) h i hi
  · rw [hza i (by omega), hzb i (by omega)]

/-! Masking. -/

@[simp] theorem getLsbD_lowMask (k i : Nat) : (lowMask k).getLsbD i = decide (i < min k 64) := by
  simp only [lowMask, BitVec.getLsbD_ofNat, Nat.testBit_two_pow_sub_one]
  by_cases h : i < min k 64
  · simp [h]
    omega
  · simp [h]

theorem WordPair.keepLow_trit (a : WordPair) (k i : Nat) : (a.keepLow k).trit i = if i < k then a.trit i else 0 := by
  by_cases hi : i < 64
  · by_cases hk : i < k <;> simp [-BitVec.getLsbD_eq_getElem, WordPair.keepLow, WordPair.trit, Machine.trit, hi, hk]
  · rw [WordPair.trit_of_ge _ (by omega), WordPair.trit_of_ge _ (by omega), ite_self]

@[simp] theorem WordPair.keepLow_val (a : WordPair) (k : Nat) : (a.keepLow k).val k = a.val k :=
  tritSum_congr fun i hi => by rw [WordPair.keepLow_trit, if_pos hi]

theorem WordPair.keepLow_valid {a : WordPair} (h : a.Valid) (k : Nat) : (a.keepLow k).Valid := by
  rw [WordPair.valid_iff] at *
  intro i hi hb
  simp only [WordPair.keepLow, BitVec.getLsbD_and, Bool.and_eq_true] at hb
  exact h i hi ⟨hb.1.1, hb.2.1⟩

theorem WordPair.keepLow_zeroFrom (a : WordPair) (k : Nat) : (a.keepLow k).ZeroFrom k := by
  intro i hi hk
  simp [-BitVec.getLsbD_eq_getElem, WordPair.keepLow, hi, show ¬ i < k by omega]

/-- A valid pair without trits from position k on has no bit set there. -/
theorem WordPair.zeroFrom_of_valid {a : WordPair} (h : a.Valid) {k : Nat} (hz : ∀ i, k ≤ i → a.trit i = 0) : a.ZeroFrom k := by
  intro i hi hk
  have hb := WordPair.bits_of_valid h hi
  rw [hz i hk] at hb
  exact hb

/-! Negation. -/

@[simp] theorem WordPair.swap_trit (a : WordPair) (i : Nat) : a.swap.trit i = -a.trit i := by
  simp [WordPair.swap, WordPair.trit, Machine.trit]

@[simp] theorem WordPair.swap_val (a : WordPair) (k : Nat) : a.swap.val k = -a.val k := by
  rw [WordPair.val, tritSum_congr fun i _ => WordPair.swap_trit a i, tritSum_neg, WordPair.val]

theorem WordPair.swap_valid {a : WordPair} (h : a.Valid) : a.swap.Valid := by
  simpa [WordPair.Valid, WordPair.swap, BitVec.and_comm] using h

/-! Writing one trit. -/

/-- The mask of one position. -/
theorem getLsbD_bit {k i : Nat} (hi : i < 64) : (1#64 <<< k).getLsbD i = decide (i = k) := by
  rw [BitVec.getLsbD_shiftLeft, BitVec.getLsbD_one]
  by_cases h : i = k
  · simp [h, h ▸ hi]
  · simp only [hi, h, decide_true, decide_false, Bool.true_and, Bool.and_eq_false_imp, Bool.not_eq_true', decide_eq_false_iff_not]
    omega

theorem WordPair.setTrit_trit (a : WordPair) {k : Nat} (hk : k < 64) {v : Int} (hv : v = -1 ∨ v = 0 ∨ v = 1) (i : Nat) :
    (a.setTrit k v).trit i = if i = k then v else a.trit i := by
  by_cases hi : i < 64
  · simp only [WordPair.setTrit, WordPair.trit, Machine.trit, BitVec.getLsbD_or, BitVec.getLsbD_and, BitVec.getLsbD_not,
      apply_ite (fun w : TritBits => w.getLsbD i), getLsbD_bit hi, hi]
    rcases hv with rfl | rfl | rfl <;> by_cases h : i = k <;> simp [h]
  · rw [WordPair.trit_of_ge _ (by omega), WordPair.trit_of_ge _ (by omega), if_neg (by omega)]

theorem WordPair.setTrit_valid {a : WordPair} (h : a.Valid) (k : Nat) (v : Int) : (a.setTrit k v).Valid := by
  rw [WordPair.valid_iff] at *
  intro i hi hb
  have h0 := h i hi
  simp only [WordPair.setTrit, BitVec.getLsbD_or, BitVec.getLsbD_and, BitVec.getLsbD_not, Bool.or_eq_true,
    Bool.and_eq_true, apply_ite (fun w : TritBits => w.getLsbD i), getLsbD_bit hi] at hb
  by_cases hik : i = k
  · simp only [hik, decide_true] at hb
    split_ifs at hb <;> simp_all
  · simp [-BitVec.getLsbD_eq_getElem, hik] at hb
    exact h0 ⟨hb.1.1, hb.2.1⟩

/-! The balanced form of an integer. -/

theorem balancedBits_testBit (k : Nat) (v : Int) (i : Nat) :
    (balancedBits k v).1.testBit i = (decide (i < k) && (digitAt v i == -1)) ∧
      (balancedBits k v).2.testBit i = (decide (i < k) && (digitAt v i == 1)) := by
  induction k generalizing v i with
  | zero => simp [balancedBits]
  | succ n ih =>
    cases i with
    | zero =>
      simp only [balancedBits, Nat.testBit_zero, digitAt]
      constructor <;> split_ifs <;> simp_all
    | succ j =>
      have h := ih (dropDigit v) j
      have hdiv : ∀ (c : Prop) [Decidable c] (m : Nat), ((if c then 1 else 0) + 2 * m) / 2 = m := by
        intro c _ m; split_ifs <;> omega
      simp only [balancedBits, Nat.testBit_succ, hdiv, digitAt, h]
      simp

theorem balancedPair_bits {k i : Nat} (v : Int) (hi : i < 64) :
    (balancedPair k v).neg.getLsbD i = (decide (i < k) && (digitAt v i == -1)) ∧
      (balancedPair k v).pos.getLsbD i = (decide (i < k) && (digitAt v i == 1)) := by
  have h := balancedBits_testBit k v i
  simp [-BitVec.getLsbD_eq_getElem, balancedPair, BitVec.getLsbD_ofNat, hi, h]

/-- The trits of bt_k(v) are the balanced digits of v. -/
theorem balancedPair_trit (k : Nat) (v : Int) {i : Nat} (hi : i < 64) :
    (balancedPair k v).trit i = if i < k then digitAt v i else 0 := by
  have h := balancedPair_bits (k := k) v hi
  have hd := digitAt_bounds v i
  simp only [WordPair.trit, Machine.trit, h]
  by_cases hk : i < k
  · have : digitAt v i = -1 ∨ digitAt v i = 0 ∨ digitAt v i = 1 := by omega
    rcases this with h | h | h <;> simp [hk, h]
  · simp [hk]

theorem balancedPair_trit_of_ge {k : Nat} (v : Int) {i : Nat} (hi : k ≤ i) : (balancedPair k v).trit i = 0 := by
  by_cases h : i < 64
  · rw [balancedPair_trit k v h, if_neg (by omega)]
  · exact WordPair.trit_of_ge _ (by omega)

theorem balancedPair_valid (k : Nat) (v : Int) : (balancedPair k v).Valid := by
  rw [WordPair.valid_iff]
  intro i hi hb
  have h := balancedPair_bits (k := k) v hi
  rw [h.1, h.2] at hb
  simp at hb
  omega

/-- The value of bt_k(v) is the balanced residue of v; for v in [-H_k, H_k] that is v (00_scope.md R8). -/
theorem balancedPair_val {k : Nat} (hk : k ≤ 64) (v : Int) : (balancedPair k v).val k = balancedResidue k v := by
  rw [← tritSum_digitAt]
  exact tritSum_congr fun i hi => by rw [balancedPair_trit k v (by omega), if_pos hi]

/-- bt_k(v) is the one valid pair with that value and nothing above position k (00_scope.md R8). -/
theorem eq_balancedPair {a : WordPair} {k : Nat} (hk : k ≤ 64) {v : Int} (ha : a.Valid) (hz : ∀ i, k ≤ i → a.trit i = 0)
    (h : a.val k = balancedResidue k v) : a = balancedPair k v :=
  WordPair.ext_val ha (balancedPair_valid k v) hz (fun _ hi => balancedPair_trit_of_ge v hi)
    (by rw [h, balancedPair_val hk])

/-- Every valid pair with nothing above position k is bt_k of its value. -/
theorem balancedPair_of_val {a : WordPair} {k : Nat} (hk : k ≤ 64) (ha : a.Valid) (hz : ∀ i, k ≤ i → a.trit i = 0) :
    balancedPair k (a.val k) = a :=
  (eq_balancedPair hk ha hz (balancedResidue_of_bounds (a.val_bounds k)).symm).symm

/-! Addition and multiplication. -/

/-- The add-with-carry function, all of it: the result is valid, holds nothing above position k, and with the carry trit
it is the exact sum (42_fixed_width.md R152). -/
theorem addWithCarry_spec {k : Nat} (hk : k ≤ 64) (a b : WordPair) {cin : Int} (hc : -1 ≤ cin ∧ cin ≤ 1) :
    (addWithCarry k a b cin).1.Valid ∧ (∀ i, k ≤ i → (addWithCarry k a b cin).1.trit i = 0) ∧
      (-1 ≤ (addWithCarry k a b cin).2 ∧ (addWithCarry k a b cin).2 ≤ 1) ∧
      (addWithCarry k a b cin).1.val k + (addWithCarry k a b cin).2 * pow3 k = a.val k + b.val k + cin := by
  have ha := a.val_bounds k
  have hb := b.val_bounds k
  have h2 := two_mul_tritMax k
  have h0 := tritMax_nonneg k
  refine ⟨balancedPair_valid _ _, fun i hi => balancedPair_trit_of_ge _ hi, ?_, ?_⟩
  · simp only [addWithCarry]; split_ifs <;> omega
  · simp only [addWithCarry]
    rw [balancedPair_val hk, balancedResidue_of_bounds]
    · ring
    · split_ifs <;> omega

/-- Without the carry, the sum is wrapped (42_fixed_width.md R151). -/
theorem addWithCarry_val {k : Nat} (hk : k ≤ 64) (a b : WordPair) {cin : Int} (hc : -1 ≤ cin ∧ cin ≤ 1) :
    (addWithCarry k a b cin).1.val k = balancedResidue k (a.val k + b.val k + cin) := by
  obtain ⟨-, -, -, h⟩ := addWithCarry_spec hk a b hc
  exact (balancedResidue_unique (WordPair.val_bounds _ _) h.symm).symm

theorem mulWrapped_val {k : Nat} (hk : k ≤ 64) (a b : WordPair) :
    (mulWrapped k a b).val k = balancedResidue k (a.val k * b.val k) := by
  rw [mulWrapped, balancedPair_val hk, balancedResidue_of_bounds (balancedResidue_bounds _ _)]

/-! Shifts. -/

theorem WordPair.shiftUp_trit (a : WordPair) {w : Nat} (hw : w ≤ 64) (k i : Nat) :
    (a.shiftUp w k).trit i = if k ≤ i ∧ i < w then a.trit (i - k) else 0 := by
  by_cases hk : w ≤ k
  · rw [WordPair.shiftUp, if_pos hk, if_neg (by omega), WordPair.zero_trit]
  · rw [WordPair.shiftUp, if_neg hk]
    by_cases hi : i < 64
    · by_cases h1 : i < k
      · have : ¬(k ≤ i ∧ i < w) := by omega
        simp [WordPair.trit, Machine.trit, hi, h1, this]
      · by_cases h2 : i < w
        · have h3 : i - k < w := by omega
          have h4 : i - k < 64 := by omega
          simp [-BitVec.getLsbD_eq_getElem, WordPair.trit, Machine.trit, hi, h1, h2, h3, h4, show k ≤ i by omega]
        · simp [WordPair.trit, Machine.trit, h2]
    · rw [WordPair.trit_of_ge _ (by omega), if_neg (by omega)]

theorem WordPair.shiftDown_trit (a : WordPair) {w : Nat} (hw : w ≤ 64) (k i : Nat) :
    (a.shiftDown w k).trit i = if i + k < w then a.trit (i + k) else 0 := by
  by_cases hk : w ≤ k
  · rw [WordPair.shiftDown, if_pos hk, if_neg (by omega), WordPair.zero_trit]
  · rw [WordPair.shiftDown, if_neg hk]
    by_cases hi : i + k < w
    · have : i + k < 64 := by omega
      simp [-BitVec.getLsbD_eq_getElem, WordPair.trit, Machine.trit, Nat.add_comm k i, hi, this]
    · simp [WordPair.trit, Machine.trit, Nat.add_comm k i, hi]

theorem WordPair.shiftUp_valid {a : WordPair} (h : a.Valid) (w k : Nat) : (a.shiftUp w k).Valid := by
  rw [WordPair.shiftUp]
  split
  · exact WordPair.zero_valid
  · rw [WordPair.valid_iff] at *
    intro i hi hb
    simp only [BitVec.getLsbD_and, BitVec.getLsbD_shiftLeft, Bool.and_eq_true] at hb
    exact h (i - k) (by omega) ⟨hb.1.1.2.1, hb.2.1.2.1⟩

theorem WordPair.shiftDown_valid {a : WordPair} (h : a.Valid) (w k : Nat) : (a.shiftDown w k).Valid := by
  rw [WordPair.shiftDown]
  split
  · exact WordPair.zero_valid
  · rw [WordPair.valid_iff] at *
    intro i hi hb
    simp only [BitVec.getLsbD_and, BitVec.getLsbD_ushiftRight, Bool.and_eq_true] at hb
    by_cases hik : k + i < 64
    · exact h (k + i) hik ⟨hb.1.1, hb.2.1⟩
    · rw [BitVec.getLsbD_of_ge _ _ (by omega)] at hb
      simp at hb

/-- A left shift multiplies and wraps (42_fixed_width.md R164). -/
theorem WordPair.shiftUp_val (a : WordPair) {w k : Nat} (hw : w ≤ 64) (hk : k ≤ w) :
    (a.shiftUp w k).val w = balancedResidue w (a.val w * pow3 k) := by
  obtain ⟨d, rfl⟩ := Nat.exists_eq_add_of_le hk
  have hlow : (a.shiftUp (k + d) k).val (k + d) = pow3 k * tritSum a.trit d := by
    rw [WordPair.val, tritSum_split, tritSum_eq_zero, zero_add]
    · congr 1
      exact tritSum_congr fun i hi => by
        rw [WordPair.shiftUp_trit a hw, if_pos (by omega), Nat.add_sub_cancel_left]
    · intro i hi
      rw [WordPair.shiftUp_trit a hw, if_neg (by omega)]
  refine (balancedResidue_unique (q := tritSum (fun i => a.trit (d + i)) k) (WordPair.val_bounds _ _) ?_).symm
  rw [hlow, WordPair.val, Nat.add_comm k d, tritSum_split, pow3_add]
  ring

/-- A right shift drops the low trits: what they were worth is at most H_k (42_fixed_width.md R164). -/
theorem WordPair.shiftDown_val (a : WordPair) {w k : Nat} (hw : w ≤ 64) (hk : k ≤ w) :
    a.val w = a.val k + pow3 k * (a.shiftDown w k).val w := by
  obtain ⟨d, rfl⟩ := Nat.exists_eq_add_of_le hk
  rw [WordPair.val, tritSum_split, WordPair.val, WordPair.val]
  congr 2
  rw [Nat.add_comm k d, tritSum_extend (Nat.le_add_right d k)]
  · exact tritSum_congr fun i hi => by
      rw [WordPair.shiftDown_trit a (by omega), if_pos (by omega), Nat.add_comm]
  · intro i h1 _
    rw [WordPair.shiftDown_trit a (by omega), if_neg (by omega)]

/-! Pairs made of given trits, and counting. -/

theorem bitsOf_testBit (b : Nat → Bool) (k i : Nat) : (bitsOf b k).testBit i = (decide (i < k) && b i) := by
  have hlt : ∀ n, bitsOf b n < 2 ^ n := by
    intro n
    induction n with
    | zero => simp [bitsOf]
    | succ m ih => simp only [bitsOf, pow_succ]; split_ifs <;> omega
  induction k with
  | zero => simp [bitsOf]
  | succ n ih =>
    simp only [bitsOf]
    split_ifs with hb
    · rw [Nat.add_comm]
      by_cases hi : i = n
      · subst hi
        rw [Nat.testBit_two_pow_add_eq, Nat.testBit_lt_two_pow (hlt i)]
        simp [hb]
      · by_cases hlt' : i < n
        · rw [Nat.testBit_two_pow_add_gt hlt', ih]
          simp [hlt', Nat.lt_succ_of_lt hlt']
        · have : 2 ^ n + bitsOf b n < 2 ^ i :=
            lt_of_lt_of_le (by have := hlt n; rw [pow_succ]; omega) (Nat.pow_le_pow_right (by norm_num) (show n + 1 ≤ i by omega))
          rw [Nat.testBit_lt_two_pow this]
          have : ¬ i < n + 1 := by omega
          simp [this]
    · rw [Nat.add_zero, ih]
      by_cases hi : i = n
      · subst hi; simp [hb]
      · by_cases hlt' : i < n
        · simp [hlt', Nat.lt_succ_of_lt hlt']
        · have : ¬ i < n + 1 := by omega
          simp [hlt', this]

theorem pairOfTrits_trit {f : Nat → Int} (hf : ∀ i < 64, -1 ≤ f i ∧ f i ≤ 1) {i : Nat} (hi : i < 64) :
    (pairOfTrits f).trit i = f i := by
  have h : f i = -1 ∨ f i = 0 ∨ f i = 1 := by have := hf i hi; omega
  simp only [pairOfTrits, WordPair.trit, Machine.trit, BitVec.getLsbD_ofNat, bitsOf_testBit, hi, decide_true, Bool.true_and]
  rcases h with h | h | h <;> simp [h]

theorem pairOfTrits_valid (f : Nat → Int) : (pairOfTrits f).Valid := by
  rw [WordPair.valid_iff]
  intro i hi hb
  simp only [pairOfTrits, BitVec.getLsbD_ofNat, bitsOf_testBit, hi, decide_true, Bool.true_and, beq_iff_eq] at hb
  omega

theorem pairOfTrits_bit (f : Nat → Int) {i : Nat} (hi : i < 64) :
    (pairOfTrits f).neg.getLsbD i = (f i == -1) ∧ (pairOfTrits f).pos.getLsbD i = (f i == 1) := by
  simp [-BitVec.getLsbD_eq_getElem, pairOfTrits, BitVec.getLsbD_ofNat, bitsOf_testBit, hi]

end Sys2Proof.Machine
end

