-- ==== Sys2Proof/Laws/Arrays.lean ====
section
/-! SUPPORT. What each operation on trit arrays answers: its length, its trits, its value and its form (00_scope.md R9,
10_state.md R26 to R29). -/

namespace Sys2Proof.Machine

/-! Words, trits and the value. -/

theorem TritArray.word_of_lt {a : TritArray} {j : Nat} (h : j < a.words.length) : a.word j = a.words[j] := by
  simp [TritArray.word, List.getD_eq_getElem?_getD, h]

theorem TritArray.word_of_ge {a : TritArray} {j : Nat} (h : a.wordCount ≤ j) : a.word j = WordPair.zero := by
  have h' : a.words.length ≤ j := h
  simp [TritArray.word, List.getD_eq_getElem?_getD, List.getElem?_eq_none h']

/-- The top word. -/
theorem TritArray.word_last {a : TritArray} {x : WordPair} (h : a.words.getLast? = some x) : a.word (a.wordCount - 1) = x := by
  rw [List.getLast?_eq_getElem?] at h
  simp [TritArray.word, List.getD_eq_getElem?_getD, TritArray.wordCount, h]

theorem TritArray.trit_bounds (a : TritArray) (i : Nat) : -1 ≤ a.trit i ∧ a.trit i ≤ 1 := WordPair.trit_bounds _ _

theorem TritArray.trit_of_ge {a : TritArray} {i : Nat} (h : 64 * a.wordCount ≤ i) : a.trit i = 0 := by
  rw [TritArray.trit, TritArray.word_of_ge (by omega), WordPair.zero_trit]

theorem TritArray.word_valid {a : TritArray} (h : a.Valid) (j : Nat) : (a.word j).Valid := by
  by_cases hj : j < a.wordCount
  · rw [TritArray.word_of_lt hj]
    exact h _ (List.getElem_mem _)
  · rw [TritArray.word_of_ge (by omega)]
    exact WordPair.zero_valid

/-- Trit i of a list of words. -/
theorem trit_cons (w : WordPair) (ws : List WordPair) (len i : Nat) :
    TritArray.trit ⟨len, w :: ws⟩ i = if i < 64 then w.trit i else TritArray.trit ⟨len, ws⟩ (i - 64) := by
  split
  · rename_i h
    rw [TritArray.trit, show i / 64 = 0 by omega, Nat.mod_eq_of_lt h]
    rfl
  · rename_i h
    obtain ⟨j, rfl⟩ := Nat.exists_eq_add_of_le (Nat.le_of_not_lt h)
    rw [Nat.add_sub_cancel_left, TritArray.trit, TritArray.trit, show (64 + j) / 64 = j / 64 + 1 by omega,
      show (64 + j) % 64 = j % 64 by omega]
    rfl

/-- The value of the words is the sum of the trits (00_scope.md R9). -/
theorem wordsVal_eq (len : Nat) (ws : List WordPair) :
    wordsVal ws = tritSum (TritArray.trit ⟨len, ws⟩) (64 * ws.length) := by
  induction ws with
  | nil => rfl
  | cons w ws ih =>
    rw [wordsVal, ih, List.length_cons, Nat.mul_succ, Nat.add_comm, tritSum_split, WordPair.val]
    have h1 : tritSum (TritArray.trit ⟨len, w :: ws⟩) 64 = tritSum w.trit 64 :=
      tritSum_congr fun i hi => by rw [trit_cons, if_pos hi]
    have h2 : tritSum (fun i => TritArray.trit ⟨len, w :: ws⟩ (64 + i)) (64 * ws.length) =
        tritSum (TritArray.trit ⟨len, ws⟩) (64 * ws.length) :=
      tritSum_congr fun i _ => by rw [trit_cons, if_neg (by omega), Nat.add_sub_cancel_left]
    rw [h1, h2]

theorem TritArray.tval_eq (a : TritArray) : a.tval = tritSum a.trit (64 * a.wordCount) := wordsVal_eq a.len a.words

/-- The value counts every trit up to any bound that covers the words. -/
theorem TritArray.tval_eq_of_le (a : TritArray) {m : Nat} (h : 64 * a.wordCount ≤ m) : a.tval = tritSum a.trit m := by
  rw [TritArray.tval_eq, tritSum_extend h fun i hi _ => TritArray.trit_of_ge hi]

/-- With the masking invariant there is no trit at or above L. -/
theorem TritArray.trit_of_len_le {a : TritArray} (h : a.Masked) {i : Nat} (hi : a.len ≤ i) : a.trit i = 0 := by
  by_cases hj : i / 64 < a.wordCount
  · have := h (i / 64) hj (i % 64) (Nat.mod_lt _ (by norm_num)) (by omega)
    simp [TritArray.trit, WordPair.trit, Machine.trit, this.1, this.2]
  · exact TritArray.trit_of_ge (by omega)

/-- "Because of rule R26 it equals the value of its first L trits" (10_state.md R29). -/
theorem TritArray.tval_eq_len {a : TritArray} (h : a.Masked) : a.tval = tritSum a.trit a.len := by
  rw [a.tval_eq_of_le (m := max a.len (64 * a.wordCount)) (le_max_right _ _)]
  exact tritSum_extend (le_max_left _ _) fun i hi _ => TritArray.trit_of_len_le h hi

/-- Arrays of the same length and word count, both valid, with the same trits, are equal. -/
theorem TritArray.ext_trit {a b : TritArray} (ha : a.Valid) (hb : b.Valid) (hl : a.len = b.len)
    (hn : a.wordCount = b.wordCount) (h : ∀ i < 64 * a.wordCount, a.trit i = b.trit i) : a = b := by
  obtain ⟨al, aw⟩ := a
  obtain ⟨bl, bw⟩ := b
  simp only [TritArray.mk.injEq]
  refine ⟨hl, List.ext_getElem hn fun j hj hj' => ?_⟩
  rw [← TritArray.word_of_lt (a := ⟨al, aw⟩) hj, ← TritArray.word_of_lt (a := ⟨bl, bw⟩) hj']
  refine WordPair.ext_trit (TritArray.word_valid ha j) (TritArray.word_valid hb j) fun k hk => ?_
  have := h (64 * j + k) (by simp only [TritArray.wordCount] at *; omega)
  simpa [TritArray.trit, show (64 * j + k) / 64 = j by omega, show (64 * j + k) % 64 = k by omega] using this

/-! Arrays made of given trits. -/

@[simp] theorem arrayOfTrits_len (len : Nat) (f : Nat → Int) : (arrayOfTrits len f).len = len := rfl

@[simp] theorem arrayOfTrits_wordCount (len : Nat) (f : Nat → Int) : (arrayOfTrits len f).wordCount = wordsFor len := by
  simp [arrayOfTrits, TritArray.wordCount]

theorem arrayOfTrits_word (len : Nat) (f : Nat → Int) {j : Nat} (hj : j < wordsFor len) :
    (arrayOfTrits len f).word j = pairOfTrits fun k => if 64 * j + k < len then f (64 * j + k) else 0 := by
  rw [TritArray.word_of_lt (by simpa [arrayOfTrits] using hj)]
  simp [arrayOfTrits]

/-- The trits below the length are the given ones. -/
theorem arrayOfTrits_trit {f : Nat → Int} {len : Nat} (hf : ∀ i < len, -1 ≤ f i ∧ f i ≤ 1) {i : Nat} (hi : i < len) :
    (arrayOfTrits len f).trit i = f i := by
  have hj : i / 64 < wordsFor len := by simp only [wordsFor]; omega
  rw [TritArray.trit, arrayOfTrits_word len f hj, pairOfTrits_trit _ (Nat.mod_lt _ (by norm_num))]
  · rw [show 64 * (i / 64) + i % 64 = i by omega, if_pos hi]
  · intro k _
    split
    · exact hf _ ‹_›
    · omega

theorem arrayOfTrits_wf (len : Nat) (f : Nat → Int) : (arrayOfTrits len f).Wf where
  valid := by
    intro w hw
    simp only [arrayOfTrits, List.mem_map] at hw
    obtain ⟨j, -, rfl⟩ := hw
    exact pairOfTrits_valid _
  masked := by
    intro j hj b hb hlen
    rw [arrayOfTrits_word len f (by simpa using hj)]
    have h := pairOfTrits_bit (fun k => if 64 * j + k < len then f (64 * j + k) else 0) hb
    rw [h.1, h.2, if_neg (by simpa using hlen)]
    decide
  count := .inl (by simp)

/-! The canonical form. -/

theorem lzc64_le (w : TritBits) : lzc64 w ≤ 64 := by
  simp only [lzc64]; split <;> omega

/-- The leading zeros of a nonzero word: its top bit is set and no bit above it is. -/
theorem lzc64_spec {w : TritBits} (h : w ≠ 0) :
    lzc64 w < 64 ∧ w.getLsbD (63 - lzc64 w) = true ∧ ∀ i, 63 - lzc64 w < i → w.getLsbD i = false := by
  have hne : w.toNat ≠ 0 := fun h0 => h (BitVec.eq_of_toNat_eq (by simpa using h0))
  have hlt : w.toNat.log2 < 64 := (Nat.log2_lt hne).2 w.isLt
  have h1 : 63 - lzc64 w = w.toNat.log2 := by simp only [lzc64, if_neg h]; omega
  refine ⟨by simp only [lzc64, if_neg h]; omega, ?_, ?_⟩
  · rw [h1, BitVec.getLsbD]
    exact Nat.testBit_log2 hne
  · intro i hi
    rw [BitVec.getLsbD]
    exact Nat.testBit_lt_two_pow (lt_of_lt_of_le Nat.lt_log2_self (Nat.pow_le_pow_right (by norm_num) (by omega)))

/-- The words of v add up to v, every one valid, and the last one is not all zero (00_scope.md R9). -/
theorem balancedWordsWithin_spec (fuel : Nat) (v : Int) (h : v.natAbs < 2 ^ fuel) :
    wordsVal (balancedWordsWithin fuel v) = v ∧ (∀ w ∈ balancedWordsWithin fuel v, w.Valid) ∧
      ∀ w ∈ (balancedWordsWithin fuel v).getLast?, w.val 64 ≠ 0 := by
  induction fuel generalizing v with
  | zero => simp at h; simp [balancedWordsWithin, wordsVal, h]
  | succ n ih =>
    simp only [balancedWordsWithin]
    split_ifs with hv
    · simp [wordsVal, hv]
    · have hb := balancedResidue_bounds 64 v
      obtain ⟨q, hq⟩ := balancedResidue_eq_sub 64 v
      have hp := pow3_pos 64
      have h2 := two_mul_tritMax 64
      have hdiv : (v - balancedResidue 64 v) / pow3 64 = q := by
        rw [show v - balancedResidue 64 v = q * pow3 64 by linarith]
        exact Int.mul_ediv_cancel q (ne_of_gt hp)
      have hqb : q.natAbs < 2 ^ n := by
        have h3 : (3 : Int) ≤ pow3 64 := by norm_num [pow3]
        have : 2 * q.natAbs ≤ v.natAbs := by
          by_cases hq0 : q = 0
          · simp [hq0]
          · zify
            have hr : |balancedResidue 64 v| ≤ tritMax 64 := abs_le.2 hb
            have h4 : |q| * pow3 64 - tritMax 64 ≤ |v| := by
              calc |q| * pow3 64 - tritMax 64 ≤ |q * pow3 64| - |balancedResidue 64 v| := by
                    rw [abs_mul, abs_of_pos hp]; linarith
                _ ≤ |q * pow3 64 - -balancedResidue 64 v| := by
                    have := abs_sub_abs_le_abs_sub (q * pow3 64) (-balancedResidue 64 v)
                    rwa [abs_neg] at this
                _ = |v| := by congr 1; linarith
            have h5 : 1 ≤ |q| := Int.one_le_abs hq0
            have h6 : (pow3 64) = 2 * tritMax 64 + 1 := h2.symm
            have h7 : (100 : Int) ≤ tritMax 64 := by norm_num [tritMax]
            rw [h6] at h4
            nlinarith
        rw [pow_succ] at h
        omega
      have hi := ih q hqb
      rw [hdiv]
      refine ⟨?_, ?_, ?_⟩
      · rw [wordsVal, hi.1, balancedPair_val (le_refl _), balancedResidue_of_bounds hb]
        linarith
      · intro w hw
        rcases List.mem_cons.1 hw with rfl | hw
        · exact balancedPair_valid _ _
        · exact hi.2.1 w hw
      · intro w hw
        rw [List.getLast?_cons, Option.mem_some_iff] at hw
        cases hl : (balancedWordsWithin n q).getLast? with
        | some x =>
          simp only [hl, Option.getD_some] at hw
          exact hw ▸ hi.2.2 x hl
        | none =>
          rw [hl, Option.getD_none] at hw
          have hnil := List.getLast?_eq_none_iff.1 hl
          rw [hnil, wordsVal] at hi
          rw [← hw, balancedPair_val (le_refl _), balancedResidue_of_bounds hb]
          rw [← hi.1] at hq
          intro h0
          exact hv (by rw [hq, h0]; ring)

theorem balancedWords_spec (v : Int) : wordsVal (balancedWords v) = v ∧ (∀ w ∈ balancedWords v, w.Valid) ∧
    ∀ w ∈ (balancedWords v).getLast?, w.val 64 ≠ 0 :=
  balancedWordsWithin_spec _ v Nat.lt_log2_self

/-- A pair with a value is not all zero. -/
theorem WordPair.or_ne_zero_of_val {w : WordPair} (h : w.val 64 ≠ 0) : w.neg ||| w.pos ≠ 0 := by
  intro h0
  apply h
  refine tritSum_eq_zero fun i _ => ?_
  have := congrArg (fun x : TritBits => x.getLsbD i) h0
  simp only [BitVec.getLsbD_or, BitVec.ofNat_eq_ofNat, BitVec.getLsbD_zero, Bool.or_eq_false_iff] at this
  simp [WordPair.trit, Machine.trit, this.1, this.2]

/-- canon(v) has the value v (00_scope.md R9). -/
@[simp] theorem canon_tval (v : Int) : (canon v).tval = v := (balancedWords_spec v).1

/-- canon(v) has the form of the length invariant (10_state.md R27). -/
theorem canon_canonical (v : Int) : (canon v).Canonical := by
  refine ⟨rfl, ?_⟩
  have h := (balancedWords_spec v).2.2
  simp only [canon]
  cases hl : (balancedWords v).getLast? with
  | none => rfl
  | some x => simpa using WordPair.or_ne_zero_of_val (h x hl)

theorem canon_valid (v : Int) : (canon v).Valid := (balancedWords_spec v).2.1

/-- The length of a canonical array: its last word is the word of the top trit. -/
theorem TritArray.Canonical.len_bounds {a : TritArray} (h : a.Canonical) (hn : a.wordCount ≠ 0) :
    64 * (a.wordCount - 1) < a.len ∧ a.len ≤ 64 * a.wordCount := by
  obtain ⟨hl, ht⟩ := h
  cases hx : a.words.getLast? with
  | none => rw [List.getLast?_eq_none_iff] at hx; simp [TritArray.wordCount, hx] at hn
  | some x =>
    simp only [hx, Option.all_some, bne_iff_ne] at ht
    have := lzc64_spec ht
    simp only [lengthOfWords, hx] at hl
    simp only [TritArray.wordCount] at *
    omega

/-- A valid array of canonical form is well formed (10_state.md R26, R28). -/
theorem TritArray.Canonical.wf {a : TritArray} (h : a.Canonical) (hv : a.Valid) : a.Wf where
  valid := hv
  masked := by
    intro j hj b hb hlen
    have hbd := h.len_bounds (by omega)
    obtain ⟨hl, ht⟩ := h
    have hjl : j = a.wordCount - 1 := by omega
    cases hx : a.words.getLast? with
    | none => rw [List.getLast?_eq_none_iff] at hx; simp [TritArray.wordCount, hx] at hj
    | some x =>
      have hw : a.word j = x := by
        subst hjl
        exact TritArray.word_last hx
      simp only [hx, Option.all_some, bne_iff_ne] at ht
      simp only [lengthOfWords, hx] at hl
      have hz := (lzc64_spec ht).2.2 b (by simp only [TritArray.wordCount] at *; omega)
      rw [hw]
      simpa using hz
  count := by
    refine .inl ?_
    by_cases hn : a.wordCount = 0
    · have hnil : a.words = [] := List.eq_nil_of_length_eq_zero hn
      have : a.len = 0 := by rw [h.1, hnil]; rfl
      rw [hn, this]
      rfl
    · have := h.len_bounds hn
      simp only [wordsFor]
      omega

theorem canon_wf (v : Int) : (canon v).Wf := (canon_canonical v).wf (canon_valid v)

/-- Two valid arrays of canonical form with the same value are the same array. -/
theorem TritArray.Canonical.ext {a b : TritArray} (ha : a.Canonical) (hb : b.Canonical) (hva : a.Valid) (hvb : b.Valid)
    (h : a.tval = b.tval) : a = b := by
  have hm : ∀ i, a.trit i = b.trit i := by
    have ha' := a.tval_eq_of_le (m := 64 * max a.wordCount b.wordCount) (by omega)
    have hb' := b.tval_eq_of_le (m := 64 * max a.wordCount b.wordCount) (by omega)
    intro i
    by_cases hi : i < 64 * max a.wordCount b.wordCount
    · exact tritSum_inj (fun j _ => a.trit_bounds j) (fun j _ => b.trit_bounds j) (by rw [← ha', ← hb', h]) i hi
    · rw [TritArray.trit_of_ge (by omega), TritArray.trit_of_ge (by omega)]
  have key : ∀ {a b : TritArray}, a.Canonical → b.Canonical → a.Valid → (∀ i, a.trit i = b.trit i) →
      a.wordCount ≤ b.wordCount := by
    intro a b ha hb hva hm
    by_contra hlt
    have hbd := ha.len_bounds (by omega)
    have hx : ∃ x, a.words.getLast? = some x := by
      cases hx : a.words.getLast? with
      | none => rw [List.getLast?_eq_none_iff] at hx; simp [TritArray.wordCount, hx] at hlt
      | some x => exact ⟨x, rfl⟩
    obtain ⟨x, hx⟩ := hx
    have ht := ha.2
    simp only [hx, Option.all_some, bne_iff_ne] at ht
    obtain ⟨hz, hb1, -⟩ := lzc64_spec ht
    have hw : a.word (a.wordCount - 1) = x :=
      TritArray.word_last hx
    have hvx : x.Valid := hw ▸ TritArray.word_valid hva _
    have hne : x.trit (63 - lzc64 (x.neg ||| x.pos)) ≠ 0 := by
      have hbits := WordPair.bits_of_valid hvx (i := 63 - lzc64 (x.neg ||| x.pos)) (by omega)
      intro h0
      rw [h0] at hbits
      rw [BitVec.getLsbD_or, hbits.1, hbits.2] at hb1
      simp at hb1
    apply hne
    have := hm (64 * (a.wordCount - 1) + (63 - lzc64 (x.neg ||| x.pos)))
    rw [TritArray.trit_of_ge (a := b) (by omega)] at this
    rw [TritArray.trit, show (64 * (a.wordCount - 1) + (63 - lzc64 (x.neg ||| x.pos))) / 64 = a.wordCount - 1 by omega,
      show (64 * (a.wordCount - 1) + (63 - lzc64 (x.neg ||| x.pos))) % 64 = 63 - lzc64 (x.neg ||| x.pos) by omega, hw] at this
    exact this
  have hn := le_antisymm (key ha hb hva hm) (key hb ha hvb fun i => (hm i).symm)
  have hwords : a.words = b.words := by
    have := TritArray.ext_trit (a := ⟨0, a.words⟩) (b := ⟨0, b.words⟩) hva hvb rfl hn fun i _ => hm i
    simpa using this
  obtain ⟨al, aw⟩ := a
  obtain ⟨bl, bw⟩ := b
  simp only at hwords
  subst hwords
  simp only [TritArray.mk.injEq, and_true]
  exact ha.1.trans hb.1.symm

/-- canon(v) is the one valid array of canonical form with the value v. -/
theorem eq_canon {a : TritArray} (ha : a.Canonical) (hv : a.Valid) : a = canon a.tval :=
  ha.ext (canon_canonical _) hv (canon_valid _) (canon_tval _).symm

@[simp] theorem canon_zero : canon 0 = TritArray.empty := rfl

/-- A shift result: the value, and the form of the length invariant (10_state.md R27). -/
theorem canonOrZ1_spec (v : Int) : (canonOrZ1 v).tval = v ∧ (canonOrZ1 v).Wf ∧
    (v = 0 → canonOrZ1 v = TritArray.z1) ∧ (v ≠ 0 → (canonOrZ1 v).Canonical) := by
  have hz1 : TritArray.z1.Wf :=
    ⟨by simpa [TritArray.Valid, TritArray.z1] using WordPair.zero_valid,
     by
      intro j hj b _ _
      have : j = 0 := by simpa [TritArray.wordCount, TritArray.z1] using hj
      subst this
      simp [TritArray.word, TritArray.z1, WordPair.zero],
     .inr rfl⟩
  by_cases h : v = 0
  · subst h
    refine ⟨?_, hz1, fun _ => rfl, fun h => absurd rfl h⟩
    simp [canonOrZ1, TritArray.tval, TritArray.z1, wordsVal]
  · rw [canonOrZ1, if_neg h]
    exact ⟨canon_tval v, canon_wf v, fun h0 => absurd h0 h, fun _ => canon_canonical v⟩

end Sys2Proof.Machine
end

