-- ==== Sys2Proof/Laws/State.lean ====
section
/-! SUPPORT. One lemma per field per update of State, all true by rfl, and the register reads after each write, so that no
proof unfolds a record update. -/

namespace Sys2Proof.Machine

@[simp] theorem setX_params (s : State) (r : XReg) (v : Scalar) : (s.setX r v).params = s.params := rfl
@[simp] theorem setX_x (s : State) (r : XReg) (v : Scalar) : (s.setX r v).x = s.x.set r v := rfl
@[simp] theorem setX_p (s : State) (r : XReg) (v : Scalar) : (s.setX r v).p = s.p := rfl
@[simp] theorem setX_t (s : State) (r : XReg) (v : Scalar) : (s.setX r v).t = s.t := rfl
@[simp] theorem setX_cf (s : State) (r : XReg) (v : Scalar) : (s.setX r v).cf = s.cf := rfl
@[simp] theorem setX_faultRec (s : State) (r : XReg) (v : Scalar) : (s.setX r v).faultRec = s.faultRec := rfl
@[simp] theorem setX_f0f (s : State) (r : XReg) (v : Scalar) : (s.setX r v).f0f = s.f0f := rfl
@[simp] theorem setX_enc (s : State) (r : XReg) (v : Scalar) : (s.setX r v).enc = s.enc := rfl
@[simp] theorem setX_dec (s : State) (r : XReg) (v : Scalar) : (s.setX r v).dec = s.dec := rfl
@[simp] theorem setX_rdata (s : State) (r : XReg) (v : Scalar) : (s.setX r v).rdata = s.rdata := rfl
@[simp] theorem setX_resetAsserted (s : State) (r : XReg) (v : Scalar) : (s.setX r v).resetAsserted = s.resetAsserted := rfl
@[simp] theorem setX_port (s : State) (r : XReg) (v : Scalar) : (s.setX r v).port = s.port := rfl

@[simp] theorem setP_params (s : State) (r : PReg) (v : WordPair) : (s.setP r v).params = s.params := rfl
@[simp] theorem setP_x (s : State) (r : PReg) (v : WordPair) : (s.setP r v).x = s.x := rfl
@[simp] theorem setP_p (s : State) (r : PReg) (v : WordPair) : (s.setP r v).p = s.p.set r v := rfl
@[simp] theorem setP_t (s : State) (r : PReg) (v : WordPair) : (s.setP r v).t = s.t := rfl
@[simp] theorem setP_cf (s : State) (r : PReg) (v : WordPair) : (s.setP r v).cf = s.cf := rfl
@[simp] theorem setP_faultRec (s : State) (r : PReg) (v : WordPair) : (s.setP r v).faultRec = s.faultRec := rfl
@[simp] theorem setP_f0f (s : State) (r : PReg) (v : WordPair) : (s.setP r v).f0f = s.f0f := rfl
@[simp] theorem setP_enc (s : State) (r : PReg) (v : WordPair) : (s.setP r v).enc = s.enc := rfl
@[simp] theorem setP_dec (s : State) (r : PReg) (v : WordPair) : (s.setP r v).dec = s.dec := rfl
@[simp] theorem setP_rdata (s : State) (r : PReg) (v : WordPair) : (s.setP r v).rdata = s.rdata := rfl
@[simp] theorem setP_resetAsserted (s : State) (r : PReg) (v : WordPair) : (s.setP r v).resetAsserted = s.resetAsserted := rfl
@[simp] theorem setP_port (s : State) (r : PReg) (v : WordPair) : (s.setP r v).port = s.port := rfl

@[simp] theorem setT_params (s : State) (r : TReg) (v : TritArray) : (s.setT r v).params = s.params := rfl
@[simp] theorem setT_x (s : State) (r : TReg) (v : TritArray) : (s.setT r v).x = s.x := rfl
@[simp] theorem setT_p (s : State) (r : TReg) (v : TritArray) : (s.setT r v).p = s.p := rfl
@[simp] theorem setT_t (s : State) (r : TReg) (v : TritArray) : (s.setT r v).t = s.t.set r v := rfl
@[simp] theorem setT_cf (s : State) (r : TReg) (v : TritArray) : (s.setT r v).cf = s.cf := rfl
@[simp] theorem setT_faultRec (s : State) (r : TReg) (v : TritArray) : (s.setT r v).faultRec = s.faultRec := rfl
@[simp] theorem setT_f0f (s : State) (r : TReg) (v : TritArray) : (s.setT r v).f0f = s.f0f := rfl
@[simp] theorem setT_enc (s : State) (r : TReg) (v : TritArray) : (s.setT r v).enc = s.enc := rfl
@[simp] theorem setT_dec (s : State) (r : TReg) (v : TritArray) : (s.setT r v).dec = s.dec := rfl
@[simp] theorem setT_rdata (s : State) (r : TReg) (v : TritArray) : (s.setT r v).rdata = s.rdata := rfl
@[simp] theorem setT_resetAsserted (s : State) (r : TReg) (v : TritArray) : (s.setT r v).resetAsserted = s.resetAsserted := rfl
@[simp] theorem setT_port (s : State) (r : TReg) (v : TritArray) : (s.setT r v).port = s.port := rfl

@[simp] theorem setCF_params (s : State) (c : CarryTrit) : (s.setCF c).params = s.params := rfl
@[simp] theorem setCF_x (s : State) (c : CarryTrit) : (s.setCF c).x = s.x := rfl
@[simp] theorem setCF_p (s : State) (c : CarryTrit) : (s.setCF c).p = s.p := rfl
@[simp] theorem setCF_t (s : State) (c : CarryTrit) : (s.setCF c).t = s.t := rfl
@[simp] theorem setCF_cf (s : State) (c : CarryTrit) : (s.setCF c).cf = c := rfl
@[simp] theorem setCF_faultRec (s : State) (c : CarryTrit) : (s.setCF c).faultRec = s.faultRec := rfl
@[simp] theorem setCF_f0f (s : State) (c : CarryTrit) : (s.setCF c).f0f = s.f0f := rfl
@[simp] theorem setCF_enc (s : State) (c : CarryTrit) : (s.setCF c).enc = s.enc := rfl
@[simp] theorem setCF_dec (s : State) (c : CarryTrit) : (s.setCF c).dec = s.dec := rfl
@[simp] theorem setCF_rdata (s : State) (c : CarryTrit) : (s.setCF c).rdata = s.rdata := rfl
@[simp] theorem setCF_resetAsserted (s : State) (c : CarryTrit) : (s.setCF c).resetAsserted = s.resetAsserted := rfl
@[simp] theorem setCF_port (s : State) (c : CarryTrit) : (s.setCF c).port = s.port := rfl

@[simp] theorem setFaultRec_params (s : State) (r : FaultRecord) : (s.setFaultRec r).params = s.params := rfl
@[simp] theorem setFaultRec_x (s : State) (r : FaultRecord) : (s.setFaultRec r).x = s.x := rfl
@[simp] theorem setFaultRec_p (s : State) (r : FaultRecord) : (s.setFaultRec r).p = s.p := rfl
@[simp] theorem setFaultRec_t (s : State) (r : FaultRecord) : (s.setFaultRec r).t = s.t := rfl
@[simp] theorem setFaultRec_cf (s : State) (r : FaultRecord) : (s.setFaultRec r).cf = s.cf := rfl
@[simp] theorem setFaultRec_faultRec (s : State) (r : FaultRecord) : (s.setFaultRec r).faultRec = r := rfl
@[simp] theorem setFaultRec_f0f (s : State) (r : FaultRecord) : (s.setFaultRec r).f0f = s.f0f := rfl
@[simp] theorem setFaultRec_enc (s : State) (r : FaultRecord) : (s.setFaultRec r).enc = s.enc := rfl
@[simp] theorem setFaultRec_dec (s : State) (r : FaultRecord) : (s.setFaultRec r).dec = s.dec := rfl
@[simp] theorem setFaultRec_rdata (s : State) (r : FaultRecord) : (s.setFaultRec r).rdata = s.rdata := rfl
@[simp] theorem setFaultRec_resetAsserted (s : State) (r : FaultRecord) : (s.setFaultRec r).resetAsserted = s.resetAsserted := rfl
@[simp] theorem setFaultRec_port (s : State) (r : FaultRecord) : (s.setFaultRec r).port = s.port := rfl

@[simp] theorem setF0f_params (s : State) (b : Bool) : (s.setF0f b).params = s.params := rfl
@[simp] theorem setF0f_x (s : State) (b : Bool) : (s.setF0f b).x = s.x := rfl
@[simp] theorem setF0f_p (s : State) (b : Bool) : (s.setF0f b).p = s.p := rfl
@[simp] theorem setF0f_t (s : State) (b : Bool) : (s.setF0f b).t = s.t := rfl
@[simp] theorem setF0f_cf (s : State) (b : Bool) : (s.setF0f b).cf = s.cf := rfl
@[simp] theorem setF0f_faultRec (s : State) (b : Bool) : (s.setF0f b).faultRec = s.faultRec := rfl
@[simp] theorem setF0f_f0f (s : State) (b : Bool) : (s.setF0f b).f0f = b := rfl
@[simp] theorem setF0f_enc (s : State) (b : Bool) : (s.setF0f b).enc = s.enc := rfl
@[simp] theorem setF0f_dec (s : State) (b : Bool) : (s.setF0f b).dec = s.dec := rfl
@[simp] theorem setF0f_rdata (s : State) (b : Bool) : (s.setF0f b).rdata = s.rdata := rfl
@[simp] theorem setF0f_resetAsserted (s : State) (b : Bool) : (s.setF0f b).resetAsserted = s.resetAsserted := rfl
@[simp] theorem setF0f_port (s : State) (b : Bool) : (s.setF0f b).port = s.port := rfl

@[simp] theorem setEnc_params (s : State) (e : Encoder) : (s.setEnc e).params = s.params := rfl
@[simp] theorem setEnc_x (s : State) (e : Encoder) : (s.setEnc e).x = s.x := rfl
@[simp] theorem setEnc_p (s : State) (e : Encoder) : (s.setEnc e).p = s.p := rfl
@[simp] theorem setEnc_t (s : State) (e : Encoder) : (s.setEnc e).t = s.t := rfl
@[simp] theorem setEnc_cf (s : State) (e : Encoder) : (s.setEnc e).cf = s.cf := rfl
@[simp] theorem setEnc_faultRec (s : State) (e : Encoder) : (s.setEnc e).faultRec = s.faultRec := rfl
@[simp] theorem setEnc_f0f (s : State) (e : Encoder) : (s.setEnc e).f0f = s.f0f := rfl
@[simp] theorem setEnc_enc (s : State) (e : Encoder) : (s.setEnc e).enc = e := rfl
@[simp] theorem setEnc_dec (s : State) (e : Encoder) : (s.setEnc e).dec = s.dec := rfl
@[simp] theorem setEnc_rdata (s : State) (e : Encoder) : (s.setEnc e).rdata = s.rdata := rfl
@[simp] theorem setEnc_resetAsserted (s : State) (e : Encoder) : (s.setEnc e).resetAsserted = s.resetAsserted := rfl
@[simp] theorem setEnc_port (s : State) (e : Encoder) : (s.setEnc e).port = s.port := rfl

@[simp] theorem setDec_params (s : State) (d : Decoder) : (s.setDec d).params = s.params := rfl
@[simp] theorem setDec_x (s : State) (d : Decoder) : (s.setDec d).x = s.x := rfl
@[simp] theorem setDec_p (s : State) (d : Decoder) : (s.setDec d).p = s.p := rfl
@[simp] theorem setDec_t (s : State) (d : Decoder) : (s.setDec d).t = s.t := rfl
@[simp] theorem setDec_cf (s : State) (d : Decoder) : (s.setDec d).cf = s.cf := rfl
@[simp] theorem setDec_faultRec (s : State) (d : Decoder) : (s.setDec d).faultRec = s.faultRec := rfl
@[simp] theorem setDec_f0f (s : State) (d : Decoder) : (s.setDec d).f0f = s.f0f := rfl
@[simp] theorem setDec_enc (s : State) (d : Decoder) : (s.setDec d).enc = s.enc := rfl
@[simp] theorem setDec_dec (s : State) (d : Decoder) : (s.setDec d).dec = d := rfl
@[simp] theorem setDec_rdata (s : State) (d : Decoder) : (s.setDec d).rdata = s.rdata := rfl
@[simp] theorem setDec_resetAsserted (s : State) (d : Decoder) : (s.setDec d).resetAsserted = s.resetAsserted := rfl
@[simp] theorem setDec_port (s : State) (d : Decoder) : (s.setDec d).port = s.port := rfl

@[simp] theorem raise_params (s : State) (e : ErrorCode) (c : Word) : (s.raise e c).params = s.params := rfl
@[simp] theorem raise_x (s : State) (e : ErrorCode) (c : Word) : (s.raise e c).x = s.x := rfl
@[simp] theorem raise_p (s : State) (e : ErrorCode) (c : Word) : (s.raise e c).p = s.p := rfl
@[simp] theorem raise_t (s : State) (e : ErrorCode) (c : Word) : (s.raise e c).t = s.t := rfl
@[simp] theorem raise_cf (s : State) (e : ErrorCode) (c : Word) : (s.raise e c).cf = s.cf := rfl
@[simp] theorem raise_faultRec (s : State) (e : ErrorCode) (c : Word) : (s.raise e c).faultRec = ⟨true, e.code, c⟩ := rfl
@[simp] theorem raise_f0f (s : State) (e : ErrorCode) (c : Word) : (s.raise e c).f0f = s.f0f := rfl
@[simp] theorem raise_enc (s : State) (e : ErrorCode) (c : Word) : (s.raise e c).enc = s.enc := rfl
@[simp] theorem raise_dec (s : State) (e : ErrorCode) (c : Word) : (s.raise e c).dec = s.dec := rfl
@[simp] theorem raise_rdata (s : State) (e : ErrorCode) (c : Word) : (s.raise e c).rdata = s.rdata := rfl
@[simp] theorem raise_resetAsserted (s : State) (e : ErrorCode) (c : Word) : (s.raise e c).resetAsserted = s.resetAsserted := rfl
@[simp] theorem raise_port (s : State) (e : ErrorCode) (c : Word) : (s.raise e c).port = s.port := rfl

@[simp] theorem clearFault_params (s : State) : (s.clearFault).params = s.params := rfl
@[simp] theorem clearFault_x (s : State) : (s.clearFault).x = s.x := rfl
@[simp] theorem clearFault_p (s : State) : (s.clearFault).p = s.p := rfl
@[simp] theorem clearFault_t (s : State) : (s.clearFault).t = s.t := rfl
@[simp] theorem clearFault_cf (s : State) : (s.clearFault).cf = s.cf := rfl
@[simp] theorem clearFault_faultRec (s : State) : (s.clearFault).faultRec = FaultRecord.clear := rfl
@[simp] theorem clearFault_f0f (s : State) : (s.clearFault).f0f = s.f0f := rfl
@[simp] theorem clearFault_enc (s : State) : (s.clearFault).enc = s.enc := rfl
@[simp] theorem clearFault_dec (s : State) : (s.clearFault).dec = s.dec := rfl
@[simp] theorem clearFault_rdata (s : State) : (s.clearFault).rdata = s.rdata := rfl
@[simp] theorem clearFault_resetAsserted (s : State) : (s.clearFault).resetAsserted = s.resetAsserted := rfl
@[simp] theorem clearFault_port (s : State) : (s.clearFault).port = s.port := rfl

@[simp] theorem getX_setX (s : State) (r : XReg) (v : Scalar) (q : XReg) :
    (s.setX r v).getX q = if q = r then v else s.getX q := by
  simp [State.getX, State.setX, Vector.get_eq_getElem, Vector.getElem_set, Fin.ext_iff, eq_comm]

@[simp] theorem getP_setX (s : State) (r : XReg) (v : Scalar) (q : PReg) : (s.setX r v).getP q = s.getP q := rfl
@[simp] theorem getT_setX (s : State) (r : XReg) (v : Scalar) (q : TReg) : (s.setX r v).getT q = s.getT q := rfl

@[simp] theorem getX_setP (s : State) (r : PReg) (v : WordPair) (q : XReg) : (s.setP r v).getX q = s.getX q := rfl
@[simp] theorem getP_setP (s : State) (r : PReg) (v : WordPair) (q : PReg) :
    (s.setP r v).getP q = if q = r then v else s.getP q := by
  simp [State.getP, State.setP, Vector.get_eq_getElem, Vector.getElem_set, Fin.ext_iff, eq_comm]

@[simp] theorem getT_setP (s : State) (r : PReg) (v : WordPair) (q : TReg) : (s.setP r v).getT q = s.getT q := rfl

@[simp] theorem getX_setT (s : State) (r : TReg) (v : TritArray) (q : XReg) : (s.setT r v).getX q = s.getX q := rfl
@[simp] theorem getP_setT (s : State) (r : TReg) (v : TritArray) (q : PReg) : (s.setT r v).getP q = s.getP q := rfl
@[simp] theorem getT_setT (s : State) (r : TReg) (v : TritArray) (q : TReg) :
    (s.setT r v).getT q = if q = r then v else s.getT q := by
  simp [State.getT, State.setT, Vector.get_eq_getElem, Vector.getElem_set, Fin.ext_iff, eq_comm]


@[simp] theorem getX_setCF (s : State) (c : CarryTrit) (q : XReg) : (s.setCF c).getX q = s.getX q := rfl
@[simp] theorem getP_setCF (s : State) (c : CarryTrit) (q : PReg) : (s.setCF c).getP q = s.getP q := rfl
@[simp] theorem getT_setCF (s : State) (c : CarryTrit) (q : TReg) : (s.setCF c).getT q = s.getT q := rfl

@[simp] theorem getX_setFaultRec (s : State) (r : FaultRecord) (q : XReg) : (s.setFaultRec r).getX q = s.getX q := rfl
@[simp] theorem getP_setFaultRec (s : State) (r : FaultRecord) (q : PReg) : (s.setFaultRec r).getP q = s.getP q := rfl
@[simp] theorem getT_setFaultRec (s : State) (r : FaultRecord) (q : TReg) : (s.setFaultRec r).getT q = s.getT q := rfl

@[simp] theorem getX_setF0f (s : State) (b : Bool) (q : XReg) : (s.setF0f b).getX q = s.getX q := rfl
@[simp] theorem getP_setF0f (s : State) (b : Bool) (q : PReg) : (s.setF0f b).getP q = s.getP q := rfl
@[simp] theorem getT_setF0f (s : State) (b : Bool) (q : TReg) : (s.setF0f b).getT q = s.getT q := rfl

@[simp] theorem getX_setEnc (s : State) (e : Encoder) (q : XReg) : (s.setEnc e).getX q = s.getX q := rfl
@[simp] theorem getP_setEnc (s : State) (e : Encoder) (q : PReg) : (s.setEnc e).getP q = s.getP q := rfl
@[simp] theorem getT_setEnc (s : State) (e : Encoder) (q : TReg) : (s.setEnc e).getT q = s.getT q := rfl

@[simp] theorem getX_setDec (s : State) (d : Decoder) (q : XReg) : (s.setDec d).getX q = s.getX q := rfl
@[simp] theorem getP_setDec (s : State) (d : Decoder) (q : PReg) : (s.setDec d).getP q = s.getP q := rfl
@[simp] theorem getT_setDec (s : State) (d : Decoder) (q : TReg) : (s.setDec d).getT q = s.getT q := rfl

@[simp] theorem getX_raise (s : State) (e : ErrorCode) (c : Word) (q : XReg) : (s.raise e c).getX q = s.getX q := rfl
@[simp] theorem getP_raise (s : State) (e : ErrorCode) (c : Word) (q : PReg) : (s.raise e c).getP q = s.getP q := rfl
@[simp] theorem getT_raise (s : State) (e : ErrorCode) (c : Word) (q : TReg) : (s.raise e c).getT q = s.getT q := rfl

@[simp] theorem getX_clearFault (s : State) (q : XReg) : (s.clearFault).getX q = s.getX q := rfl
@[simp] theorem getP_clearFault (s : State) (q : PReg) : (s.clearFault).getP q = s.getP q := rfl
@[simp] theorem getT_clearFault (s : State) (q : TReg) : (s.clearFault).getT q = s.getT q := rfl

@[simp] theorem getX_reset (r : XReg) : State.reset.getX r = 0 := by
  simp [State.getX, State.reset, Vector.get_eq_getElem]

@[simp] theorem getP_reset (r : PReg) : State.reset.getP r = WordPair.zero := by
  simp [State.getP, State.reset, Vector.get_eq_getElem]

@[simp] theorem getT_reset (r : TReg) : State.reset.getT r = TritArray.empty := by
  simp [State.getT, State.reset, Vector.get_eq_getElem]

/-- A scalar file is known by its registers. -/
theorem x_ext {s t : State} (h : ∀ r, t.getX r = s.getX r) : t.x = s.x := by
  apply Vector.ext
  intro i hi
  simpa [State.getX, Vector.get_eq_getElem] using h ⟨i, hi⟩

/-- A word-pair file is known by its registers. -/
theorem p_ext {s t : State} (h : ∀ r, t.getP r = s.getP r) : t.p = s.p := by
  apply Vector.ext
  intro i hi
  simpa [State.getP, Vector.get_eq_getElem] using h ⟨i, hi⟩

/-- A trit-array file is known by its registers. -/
theorem t_ext {s t : State} (h : ∀ r, t.getT r = s.getT r) : t.t = s.t := by
  apply Vector.ext
  intro i hi
  simpa [State.getT, Vector.get_eq_getElem] using h ⟨i, hi⟩

/-- Writing X[d] is what XResult says. -/
theorem setX_xResult (s : State) (d : XReg) (v : Scalar) : XResult s (s.setX d v) d v :=
  ⟨rfl, fun r => getX_setX s d v r⟩

/-- XResult says exactly that X[d] was written. -/
theorem xResult_iff {s t : State} {d : XReg} {v : Scalar} : XResult s t d v ↔ t = s.setX d v := by
  refine ⟨fun ⟨h, hr⟩ => ?_, fun h => h ▸ setX_xResult s d v⟩
  have hx : t.x = (s.setX d v).x := x_ext fun r => by rw [hr r, getX_setX]
  rw [h]
  exact congrArg (fun x => { s with x := x }) hx

/-- Writing P[d] leaves everything else as it was. -/
theorem setP_onlyP (s : State) (d : PReg) (v : WordPair) : OnlyP s (s.setP d v) d :=
  ⟨rfl, fun r h => by simp [h]⟩

/-- Writing T[d] leaves everything else as it was. -/
theorem setT_onlyT (s : State) (d : TReg) (v : TritArray) : OnlyT s (s.setT d v) d :=
  ⟨rfl, fun r h => by simp [h]⟩

end Sys2Proof.Machine
end

