-- ==== Sys2Proof/Laws/Ops.lean ====
section
/-! SUPPORT. What each shared operation can do: faulting, the capacity check, the operand checks, integer results and the
carry trit; and the counts. -/

namespace Sys2Proof

theorem Width.trits_le (w : Width) : w.trits ≤ 64 := by cases w <;> decide

theorem Width.trits_pos (w : Width) : 0 < w.trits := by cases w <;> decide

end Sys2Proof

namespace Sys2Proof.Machine

/-! Faults and the capacity check. -/

/-- A command that faults goes on with the fault record written and nothing else (60_exceptions.md R302). -/
@[simp] theorem fail_eq (s : State) (i : Instr) (e : ErrorCode) : s.fail i e = .next (s.raise e (encode i)) := rfl

/-- Ending in a fault, said of exec. -/
theorem faults_iff {i : Instr} {s : State} {e : ErrorCode} : Faults i s e ↔ exec i s = .next (s.raise e (encode i)) := Iff.rfl

/-- All a write of a T register can do (43_arbitrary_precision.md R205). -/
theorem writeT_next {s t : State} {i : Instr} {d : TReg} {r : TritArray} (h : s.writeT i d r = .next t) :
    r.wordCount ≤ s.params.maxWords ∧ t = s.setT d r ∨ s.params.maxWords < r.wordCount ∧ t = s.raise .capacity (encode i) := by
  rw [State.writeT] at h
  split at h
  · exact .inr ⟨‹_›, by simpa using h.symm⟩
  · exact .inl ⟨by omega, by simpa using h.symm⟩

theorem writeT_of_le {s : State} {i : Instr} {d : TReg} {r : TritArray} (h : r.wordCount ≤ s.params.maxWords) :
    s.writeT i d r = .next (s.setT d r) := by
  rw [State.writeT, if_neg (by omega)]

theorem writeT_of_lt {s : State} {i : Instr} {d : TReg} {r : TritArray} (h : s.params.maxWords < r.wordCount) :
    s.writeT i d r = .next (s.raise .capacity (encode i)) := by
  rw [State.writeT, if_pos h, fail_eq]

/-- canon(v) takes at most m word pairs exactly when v has a form of 64 m trits. -/
theorem canon_wordCount_le {v : Int} {m : Nat} :
    (canon v).wordCount ≤ m ↔ -tritMax (64 * m) ≤ v ∧ v ≤ tritMax (64 * m) := by
  constructor
  · intro h
    have hb := tritSum_bounds (f := (canon v).trit) (k := 64 * m) fun i _ => (canon v).trit_bounds i
    rwa [← TritArray.tval_eq_of_le _ (by omega), canon_tval] at hb
  · intro hv
    by_contra hlt
    set n := (canon v).wordCount with hn
    have hc := canon_canonical v
    have hw : ∃ x, (canon v).words.getLast? = some x := by
      cases hx : (canon v).words.getLast? with
      | none => rw [List.getLast?_eq_none_iff] at hx; simp [TritArray.wordCount, hx] at hn; omega
      | some x => exact ⟨x, rfl⟩
    obtain ⟨x, hx⟩ := hw
    have hx0 : x.val 64 ≠ 0 := (balancedWords_spec v).2.2 x hx
    have hlast := TritArray.word_last hx
    -- the digits of v in 64 m trits are those of canon v, so the top word is 0
    have h1 : tritSum (canon v).trit (64 * n) = tritSum (fun i => if i < 64 * m then digitAt v i else 0) (64 * n) := by
      rw [← TritArray.tval_eq, canon_tval, tritSum_extend (k := 64 * m) (by omega) fun i hi _ => by rw [if_neg (by omega)],
        tritSum_congr (g := digitAt v) fun i hi => by rw [if_pos hi], tritSum_digitAt, balancedResidue_of_bounds hv]
    have h2 := tritSum_inj (fun i _ => (canon v).trit_bounds i) (fun i _ => by
      split
      · exact digitAt_bounds v i
      · omega) h1
    apply hx0
    refine tritSum_eq_zero fun k hk => ?_
    have h3 := h2 (64 * (n - 1) + k) (by omega)
    rw [if_neg (by omega), TritArray.trit, show (64 * (n - 1) + k) / 64 = n - 1 by omega,
      show (64 * (n - 1) + k) % 64 = k by omega, hlast] at h3
    exact h3

/-! Operand checks. -/

theorem inBounds_iff {i : Int} {n : Nat} : inBounds i n = true ↔ 0 ≤ i ∧ i < n := by
  simp [inBounds]

theorem isTrit_iff {v : Int} : isTrit v = true ↔ -1 ≤ v ∧ v ≤ 1 := by
  simp only [isTrit, Bool.or_eq_true, beq_iff_eq]
  omega

theorem fitsNative_iff {n : NativeWidth} {v : Int} :
    fitsNative n v = true ↔ -(2 ^ (n.bits - 1) : Int) ≤ v ∧ v < 2 ^ (n.bits - 1) := by
  simp [fitsNative]

theorem fitsTrits_iff {w : Width} {v : Int} : fitsTrits w v = true ↔ -tritMax w.trits ≤ v ∧ v ≤ tritMax w.trits := by
  simp [fitsTrits]

/-- sint_N fits N bits. -/
theorem sintN_bounds (s : State) (n : NativeWidth) (r : XReg) :
    -(2 ^ (n.bits - 1) : Int) ≤ s.sintN n r ∧ s.sintN n r < 2 ^ (n.bits - 1) := by
  have h1 := BitVec.le_toInt ((s.getX r).setWidth n.bits)
  have h2 := BitVec.toInt_lt (x := (s.getX r).setWidth n.bits)
  exact ⟨h1, h2⟩

/-! Integer results. -/

/-- The 128-bit form of an integer reads back as the integer. -/
theorem toInt_scalarOfInt {v : Int} (h1 : -(2 ^ 127) ≤ v) (h2 : v < 2 ^ 127) : (scalarOfInt v).toInt = v := by
  rw [scalarOfInt, BitVec.toInt_ofInt]
  exact Int.bmod_eq_of_le (by norm_num at *; omega) (by norm_num at *; omega)

theorem scalarOfInt_natCast (n : Nat) : scalarOfInt n = BitVec.ofNat 128 n := by
  simp [scalarOfInt]

/-- Integers of at most 127 bits and their 128-bit forms. -/
theorem toInt_scalarOfInt_of_native {n : NativeWidth} {v : Int} (h1 : -(2 ^ (n.bits - 1) : Int) ≤ v)
    (h2 : v < 2 ^ (n.bits - 1)) : (scalarOfInt v).toInt = v := by
  apply toInt_scalarOfInt <;> cases n <;> norm_num [NativeWidth.bits] at * <;> omega

/-! The carry trit. -/

theorem CarryTrit.value_bounds (c : CarryTrit) : -1 ≤ c.value ∧ c.value ≤ 1 := by
  obtain ⟨n, p⟩ := c
  cases n <;> cases p <;> decide

theorem carryOf_value {c : Int} (h : -1 ≤ c ∧ c ≤ 1) : (carryOf c).value = c := by
  have : c = -1 ∨ c = 0 ∨ c = 1 := by omega
  rcases this with rfl | rfl | rfl <;> rfl

theorem carryOf_valid (c : Int) : (carryOf c).Valid := by
  simp only [CarryTrit.Valid, carryOf, beq_iff_eq]
  omega

/-! Counts. -/

/-- The population count of the two vectors of a valid pair counts its nonzero trits (42_fixed_width.md R168). -/
theorem popcount_or {a : WordPair} (h : a.Valid) :
    popcount (a.neg ||| a.pos) = (List.range 64).countP fun i => decide (a.trit i ≠ 0) := by
  rw [popcount]
  apply List.countP_congr
  intro i hi
  have hb := WordPair.bits_of_valid h (List.mem_range.1 hi)
  have ht := a.trit_bounds i
  rw [BitVec.getLsbD_or, hb.1, hb.2]
  simp only [Bool.or_eq_true, beq_iff_eq, decide_eq_true_eq]
  omega

end Sys2Proof.Machine
end

