-- ==== Sys2Proof/Laws/Codec.lean ====
section
/-! SUPPORT. What the codec's step functions answer (45_stream_codec.md R251, R253, R256, R258). -/

namespace Sys2Proof.Machine

/-- Fewer than two digits wait: the symbol is folded in and no byte comes out. -/
theorem encStep_of_lt {p : Nat} (h : p < 2) (acc u : Nat) : encStep p acc u = (p + 3, acc + u * 3 ^ p, []) := by
  rw [encStep, if_neg (by omega)]

/-- Two digits or more wait: a data byte comes out. -/
theorem encStep_of_ge {p : Nat} (h : 2 ≤ p) (acc u : Nat) :
    encStep p acc u = (p - 2, (acc + u * 3 ^ p) / 243, [(acc + u * 3 ^ p) % 243]) := by
  rw [encStep, if_pos (by omega)]

/-- The digits a legal encoder and a biased symbol make together. -/
theorem encFold_lt {p acc u : Nat} (hp : p ≤ 4) (ha : acc < 3 ^ p) (hu : u ≤ 26) : acc + u * 3 ^ p < 3 ^ (p + 3) := by
  interval_cases p <;> omega

/-- A legal encoder stays legal. -/
theorem encStep_legal {p acc u : Nat} (hp : p ≤ 4) (ha : acc < 3 ^ p) (hu : u ≤ 26) :
    (encStep p acc u).1 ≤ 4 ∧ (encStep p acc u).2.1 < 3 ^ (encStep p acc u).1 ∧ ∀ b ∈ (encStep p acc u).2.2, b < 243 := by
  have h := encFold_lt hp ha hu
  by_cases h2 : p < 2
  · rw [encStep_of_lt h2]
    exact ⟨by simp only; omega, h, by simp⟩
  · rw [encStep_of_ge (by omega)]
    refine ⟨by simp only; omega, ?_, by simp only [List.mem_singleton]; omega⟩
    simp only
    interval_cases p <;> omega

/-- At offset 0 nothing waits. -/
theorem encFlush_zero (acc : Nat) : encFlush 0 acc = [] := rfl

theorem encFlush_of_ge {p : Nat} (h : 3 ≤ p) (acc : Nat) : encFlush p acc = [acc] := by
  rw [encFlush, if_neg (by omega), if_pos h]

theorem encFlush_of_lt {p : Nat} (h0 : p ≠ 0) (h : p < 3) (acc : Nat) : encFlush p acc = [255 - acc] := by
  rw [encFlush, if_neg h0, if_neg (by omega)]

/-- A data byte at decoder offset 0: one symbol and two digits left over (R256). -/
theorem decData_zero (pend b : Nat) :
    decData 0 pend b = (2, (pend + b) / 27, [(((pend + b) % 27 : Nat) : Int) - 13]) := by
  simp [decData, takeSymbols]

/-- A data byte at decoder offset 1: two symbols and nothing left over (R256). -/
theorem decData_one (pend b : Nat) :
    decData 1 pend b = (0, (pend + b * 3) / 27 / 27,
      [(((pend + b * 3) % 27 : Nat) : Int) - 13, (((pend + b * 3) / 27 % 27 : Nat) : Int) - 13]) := by
  simp [decData, takeSymbols]

/-- A data byte at decoder offset 2: two symbols and one digit left over (R256). -/
theorem decData_two (pend b : Nat) :
    decData 2 pend b = (1, (pend + b * 9) / 27 / 27,
      [(((pend + b * 9) % 27 : Nat) : Int) - 13, (((pend + b * 9) / 27 % 27 : Nat) : Int) - 13]) := by
  simp [decData, takeSymbols]

/-- A legal decoder stays legal, and its symbols lie in [-13, 13]. -/
theorem decData_legal {q pend b : Nat} (hq : q ≤ 2) (hp : pend < 3 ^ q) (hb : b < 243) :
    (decData q pend b).1 ≤ 2 ∧ (decData q pend b).2.1 < 3 ^ (decData q pend b).1 ∧
      ∀ v ∈ (decData q pend b).2.2, -13 ≤ v ∧ v ≤ 13 := by
  interval_cases q
  · rw [decData_zero]
    refine ⟨by simp, by simp only; omega, ?_⟩
    simp only [List.mem_singleton, forall_eq]
    omega
  · rw [decData_one]
    refine ⟨by simp, by simp only; omega, ?_⟩
    simp only [List.mem_cons, List.not_mem_nil, or_false, forall_eq_or_imp, forall_eq]
    omega
  · rw [decData_two]
    refine ⟨by simp, by simp only; omega, ?_⟩
    simp only [List.mem_cons, List.not_mem_nil, or_false, forall_eq_or_imp, forall_eq]
    omega

/-- All a terminator byte can do (R258). -/
theorem decTerminator_cases (f0f : Bool) (q pend b : Nat) :
    (q = 0 ∧ f0f = true ∧ decTerminator f0f q pend b = .error .codec) ∨
    (q = 0 ∧ f0f = false ∧ decTerminator f0f q pend b = .ok (0, 0, [])) ∨
    (q ≠ 0 ∧ 3 ^ (3 - q) ≤ 255 - b ∧ decTerminator f0f q pend b = .error .codec) ∨
    (q ≠ 0 ∧ 255 - b < 3 ^ (3 - q) ∧
      decTerminator f0f q pend b = .ok (0, 0, [((pend + (255 - b) * 3 ^ q : Nat) : Int) - 13])) := by
  rw [decTerminator]
  by_cases hq : q = 0
  · cases f0f <;> simp [hq]
  · by_cases ht : 3 ^ (3 - q) ≤ 255 - b
    · simp [hq, ht]
    · simp [hq, ht]
      omega

end Sys2Proof.Machine
end

