-- ==== Sys2Proof/Laws/Encode.lean ====
section
/-! SUPPORT. The fields of a word and the word of its fields: each undoes the other, and masks act field by field. -/

namespace Sys2Proof

@[simp] theorem splitWord_packFields (x : Fields) : splitWord (packFields x) = x := by
  obtain ⟨op, d, a, b, c, f⟩ := x
  simp only [splitWord, packFields, Fields.mk.injEq]
  refine ⟨?_, ?_, ?_, ?_, ?_, ?_⟩ <;>
  · apply BitVec.eq_of_getLsbD_eq
    intro i hi
    simp only [BitVec.getLsbD_extractLsb', BitVec.getLsbD_append, hi, decide_true, Bool.true_and]
    interval_cases i <;> simp

@[simp] theorem packFields_splitWord (w : Word) : packFields (splitWord w) = w := by
  apply BitVec.eq_of_getLsbD_eq
  intro i hi
  simp only [splitWord, packFields, BitVec.getLsbD_extractLsb', BitVec.getLsbD_append]
  interval_cases i <;> simp

/-- A mask acts on each field. -/
theorem packFields_and (x m : Fields) :
    packFields x &&& packFields m = packFields ⟨x.op &&& m.op, x.d &&& m.d, x.a &&& m.a, x.b &&& m.b, x.c &&& m.c, x.f &&& m.f⟩ := by
  apply BitVec.eq_of_getLsbD_eq
  intro i hi
  simp only [packFields, BitVec.getLsbD_append, BitVec.getLsbD_and]
  split_ifs <;> rfl

/-- A word and its fields determine each other. -/
theorem packFields_inj {x y : Fields} : packFields x = packFields y ↔ x = y := by
  refine ⟨fun h => ?_, fun h => h ▸ rfl⟩
  rw [← splitWord_packFields x, h, splitWord_packFields]

@[simp] theorem opField_packFields (x : Fields) : opField (packFields x) = x.op :=
  congrArg Fields.op (splitWord_packFields x)

@[simp] theorem regOfField_fieldOfReg (r : RegNum) : regOfField (fieldOfReg r) = r := rfl

@[simp] theorem fieldOfReg_regOfField (v : BitVec 4) : fieldOfReg (regOfField v) = v := rfl

@[simp] theorem decode_packFields (x : Fields) : decode (packFields x) = decodeFields x := by
  simp [decode]

/-- The native-width field of a word is bits 2:1 of F. -/
theorem nField_packFields (x : Fields) : nField (packFields x) = x.f.extractLsb' 1 2 := by
  apply BitVec.eq_of_getLsbD_eq
  intro i hi
  simp only [nField, packFields, BitVec.getLsbD_extractLsb', BitVec.getLsbD_append]
  interval_cases i <;> simp

/-! The modifier field: what each form of F reads back as, and that its reading determines it (30_encoding.md R73 to R75). -/

@[simp] theorem widthOfBit_fOfW (w : Width) : widthOfBit ((fOfW w).getLsbD 0) = w := by cases w <;> decide

@[simp] theorem onlyW_fOfW (w : Width) : (fOfW w).extractLsb' 1 7 = 0 := by cases w <;> decide

@[simp] theorem onlyWN_fOfN (n : NativeWidth) : (fOfN n).extractLsb' 3 5 = 0 := by cases n <;> decide

@[simp] theorem lowBit_fOfN (n : NativeWidth) : (fOfN n).getLsbD 0 = false := by cases n <;> decide

@[simp] theorem nativeOfField_fOfN (n : NativeWidth) : nativeOfField ((fOfN n).extractLsb' 1 2) = some n := by
  cases n <;> decide

@[simp] theorem widthOfBit_fOfWN (w : Width) (n : NativeWidth) : widthOfBit ((fOfWN w n).getLsbD 0) = w := by
  cases w <;> cases n <;> decide

@[simp] theorem onlyWN_fOfWN (w : Width) (n : NativeWidth) : (fOfWN w n).extractLsb' 3 5 = 0 := by
  cases w <;> cases n <;> decide

@[simp] theorem nativeOfField_fOfWN (w : Width) (n : NativeWidth) :
    nativeOfField ((fOfWN w n).extractLsb' 1 2) = some n := by
  cases w <;> cases n <;> decide

theorem fOfW_widthOfBit : ∀ f : BitVec 8, f.extractLsb' 1 7 = 0 → fOfW (widthOfBit (f.getLsbD 0)) = f := by decide

theorem fOfN_of_native : ∀ f : BitVec 8, f.extractLsb' 3 5 = 0 → f.getLsbD 0 = false →
    ∀ n ∈ nativeOfField (f.extractLsb' 1 2), fOfN n = f := by decide

theorem fOfWN_of_native : ∀ f : BitVec 8, f.extractLsb' 3 5 = 0 →
    ∀ n ∈ nativeOfField (f.extractLsb' 1 2), fOfWN (widthOfBit (f.getLsbD 0)) n = f := by decide

/-- IMM16 from the three fields it stands in (30_encoding.md R72). -/
@[simp] theorem immOfFields_fields (x : Fields) (imm : BitVec 16) :
    immOfFields { x with b := imm.extractLsb' 12 4, c := imm.extractLsb' 8 4, f := imm.extractLsb' 0 8 } = imm := by
  apply BitVec.eq_of_getLsbD_eq
  intro i hi
  simp only [immOfFields, BitVec.getLsbD_append, BitVec.getLsbD_extractLsb']
  interval_cases i <;> simp

/-- The fields of IMM16 (30_encoding.md R72). -/
theorem fields_immOfFields (x : Fields) : (immOfFields x).extractLsb' 12 4 = x.b ∧ (immOfFields x).extractLsb' 8 4 = x.c ∧
    (immOfFields x).extractLsb' 0 8 = x.f := by
  refine ⟨?_, ?_, ?_⟩ <;>
  · apply BitVec.eq_of_getLsbD_eq
    intro i hi
    simp only [immOfFields, BitVec.getLsbD_append, BitVec.getLsbD_extractLsb']
    interval_cases i <;> simp

/-- The row of an OP value is found from the value alone. -/
theorem rowOfOp_packFields (x : Fields) :
    rowOfOp (packFields x) = opcodeMap.find? fun r => opField r.fixedBits == x.op := by
  simp [rowOfOp]

end Sys2Proof
end

