-- ==== Sys2Proof/Laws/PerInstr.lean ====
section
/-! SUPPORT. The family EncodesRow: the word of every command is a legal word, one that passes the three checks of
30_encoding.md R79 against its row of R78. -/

namespace Sys2Proof.Laws.EncodesRow

/-- The word of i is well formed (30_encoding.md R78, R79). -/
def Statement (i : Instr) : Prop := wordWellFormed (encode i) = true

/-- A word whose row is r and whose fields agree with the row's under the mask m is well formed, if its n is not 3. -/
theorem of_row {x : Fields} (r : OpRow) (m : Fields) (hr : (opcodeMap.find? fun q => opField q.fixedBits == x.op) = some r)
    (hm : r.mask = packFields m)
    (hs : packFields ⟨x.op &&& m.op, x.d &&& m.d, x.a &&& m.a, x.b &&& m.b, x.c &&& m.c, x.f &&& m.f⟩ = r.fixedBits)
    (hn : (r.hasN && x.f.extractLsb' 1 2 == 3) = false) : wordWellFormed (packFields x) = true := by
  simp [wordWellFormed, illegality, rowOfOp_packFields, hr, OpRow.selects, hm, packFields_and, hs, nField_packFields] at hn ⊢
  exact hn

theorem nop : Statement (.nop) := by
  exact of_row ⟨"NOP", 0x00000000, 0xFFFFFFFF, false⟩ ⟨0xff, 0xf, 0xf, 0xf, 0xf, 0xff⟩ rfl rfl (by simp [encodeFields]; rfl) rfl

theorem xli (d : XReg) (imm : BitVec 16) : Statement (.xli d imm) := by
  exact of_row ⟨"XLI", 0x01000000, 0xFF0F0000, false⟩ ⟨0xff, 0x0, 0xf, 0x0, 0x0, 0x0⟩ rfl rfl (by simp [encodeFields]; rfl) rfl

theorem wpack (d : PReg) (a : XReg) (b : XReg) : Statement (.wpack d a b) := by
  exact of_row ⟨"WPACK", 0x02000000, 0xFF000FFF, false⟩ ⟨0xff, 0x0, 0x0, 0x0, 0xf, 0xff⟩ rfl rfl (by simp [encodeFields]; rfl) rfl

theorem wrdn (d : XReg) (a : PReg) : Statement (.wrdn d a) := by
  exact of_row ⟨"WRDN", 0x03000000, 0xFF00FFFF, false⟩ ⟨0xff, 0x0, 0x0, 0xf, 0xf, 0xff⟩ rfl rfl (by simp [encodeFields]; rfl) rfl

theorem wrdp (d : XReg) (a : PReg) : Statement (.wrdp d a) := by
  exact of_row ⟨"WRDP", 0x04000000, 0xFF00FFFF, false⟩ ⟨0xff, 0x0, 0x0, 0xf, 0xf, 0xff⟩ rfl rfl (by simp [encodeFields]; rfl) rfl

theorem talloc (d : TReg) (a : XReg) : Statement (.talloc d a) := by
  exact of_row ⟨"TALLOC", 0x05000000, 0xFF00FFFF, false⟩ ⟨0xff, 0x0, 0x0, 0xf, 0xf, 0xff⟩ rfl rfl (by simp [encodeFields]; rfl) rfl

theorem twrw (d : TReg) (a : XReg) (b : PReg) : Statement (.twrw d a b) := by
  exact of_row ⟨"TWRW", 0x06000000, 0xFF000FFF, false⟩ ⟨0xff, 0x0, 0x0, 0x0, 0xf, 0xff⟩ rfl rfl (by simp [encodeFields]; rfl) rfl

theorem trdw (d : PReg) (a : TReg) (b : XReg) : Statement (.trdw d a b) := by
  exact of_row ⟨"TRDW", 0x07000000, 0xFF000FFF, false⟩ ⟨0xff, 0x0, 0x0, 0x0, 0xf, 0xff⟩ rfl rfl (by simp [encodeFields]; rfl) rfl

theorem tlen (d : XReg) (a : TReg) : Statement (.tlen d a) := by
  exact of_row ⟨"TLEN", 0x08000000, 0xFF00FFFF, false⟩ ⟨0xff, 0x0, 0x0, 0xf, 0xf, 0xff⟩ rfl rfl (by simp [encodeFields]; rfl) rfl

theorem tnw (d : XReg) (a : TReg) : Statement (.tnw d a) := by
  exact of_row ⟨"TNW", 0x09000000, 0xFF00FFFF, false⟩ ⟨0xff, 0x0, 0x0, 0xf, 0xf, 0xff⟩ rfl rfl (by simp [encodeFields]; rfl) rfl

theorem tmov (d : TReg) (a : TReg) : Statement (.tmov d a) := by
  exact of_row ⟨"TMOV", 0x0A000000, 0xFF00FFFF, false⟩ ⟨0xff, 0x0, 0x0, 0xf, 0xf, 0xff⟩ rfl rfl (by simp [encodeFields]; rfl) rfl

theorem tfromw (w : Width) (d : TReg) (a : PReg) : Statement (.tfromw w d a) := by
  cases w <;> exact of_row ⟨"TFROMW", 0x0B000000, 0xFF00FFFE, false⟩ ⟨0xff, 0x0, 0x0, 0xf, 0xf, 0xfe⟩ rfl rfl (by simp [encodeFields]; rfl) rfl

theorem xmov (d : XReg) (a : XReg) : Statement (.xmov d a) := by
  exact of_row ⟨"XMOV", 0x0C000000, 0xFF00FFFF, false⟩ ⟨0xff, 0x0, 0x0, 0xf, 0xf, 0xff⟩ rfl rfl (by simp [encodeFields]; rfl) rfl

theorem pmov (d : PReg) (a : PReg) : Statement (.pmov d a) := by
  exact of_row ⟨"PMOV", 0x0D000000, 0xFF00FFFF, false⟩ ⟨0xff, 0x0, 0x0, 0xf, 0xf, 0xff⟩ rfl rfl (by simp [encodeFields]; rfl) rfl

theorem wget (w : Width) (d : XReg) (a : PReg) (b : XReg) : Statement (.wget w d a b) := by
  cases w <;> exact of_row ⟨"WGET", 0x10000000, 0xFF000FFE, false⟩ ⟨0xff, 0x0, 0x0, 0x0, 0xf, 0xfe⟩ rfl rfl (by simp [encodeFields]; rfl) rfl

theorem wset (w : Width) (d : PReg) (a : XReg) (b : XReg) : Statement (.wset w d a b) := by
  cases w <;> exact of_row ⟨"WSET", 0x11000000, 0xFF000FFE, false⟩ ⟨0xff, 0x0, 0x0, 0x0, 0xf, 0xfe⟩ rfl rfl (by simp [encodeFields]; rfl) rfl

theorem tget (d : XReg) (a : TReg) (b : XReg) : Statement (.tget d a b) := by
  exact of_row ⟨"TGET", 0x12000000, 0xFF000FFF, false⟩ ⟨0xff, 0x0, 0x0, 0x0, 0xf, 0xff⟩ rfl rfl (by simp [encodeFields]; rfl) rfl

theorem tset (d : TReg) (a : XReg) (b : XReg) : Statement (.tset d a b) := by
  exact of_row ⟨"TSET", 0x13000000, 0xFF000FFF, false⟩ ⟨0xff, 0x0, 0x0, 0x0, 0xf, 0xff⟩ rfl rfl (by simp [encodeFields]; rfl) rfl

theorem wdig (d : PReg) (a : XReg) : Statement (.wdig d a) := by
  exact of_row ⟨"WDIG", 0x14000000, 0xFF00FFFF, false⟩ ⟨0xff, 0x0, 0x0, 0xf, 0xf, 0xff⟩ rfl rfl (by simp [encodeFields]; rfl) rfl

theorem wneg (w : Width) (d : PReg) (a : PReg) : Statement (.wneg w d a) := by
  cases w <;> exact of_row ⟨"WNEG", 0x15000000, 0xFF00FFFE, false⟩ ⟨0xff, 0x0, 0x0, 0xf, 0xf, 0xfe⟩ rfl rfl (by simp [encodeFields]; rfl) rfl

theorem tneg (d : TReg) (a : TReg) : Statement (.tneg d a) := by
  exact of_row ⟨"TNEG", 0x16000000, 0xFF00FFFF, false⟩ ⟨0xff, 0x0, 0x0, 0xf, 0xf, 0xff⟩ rfl rfl (by simp [encodeFields]; rfl) rfl

theorem wadd (w : Width) (d : PReg) (a : PReg) (b : PReg) : Statement (.wadd w d a b) := by
  cases w <;> exact of_row ⟨"WADD", 0x20000000, 0xFF000FFE, false⟩ ⟨0xff, 0x0, 0x0, 0x0, 0xf, 0xfe⟩ rfl rfl (by simp [encodeFields]; rfl) rfl

theorem wsub (w : Width) (d : PReg) (a : PReg) (b : PReg) : Statement (.wsub w d a b) := by
  cases w <;> exact of_row ⟨"WSUB", 0x21000000, 0xFF000FFE, false⟩ ⟨0xff, 0x0, 0x0, 0x0, 0xf, 0xfe⟩ rfl rfl (by simp [encodeFields]; rfl) rfl

theorem waddc (w : Width) (d : PReg) (a : PReg) (b : PReg) : Statement (.waddc w d a b) := by
  cases w <;> exact of_row ⟨"WADDC", 0x22000000, 0xFF000FFE, false⟩ ⟨0xff, 0x0, 0x0, 0x0, 0xf, 0xfe⟩ rfl rfl (by simp [encodeFields]; rfl) rfl

theorem wmul (w : Width) (d : PReg) (a : PReg) (b : PReg) : Statement (.wmul w d a b) := by
  cases w <;> exact of_row ⟨"WMUL", 0x23000000, 0xFF000FFE, false⟩ ⟨0xff, 0x0, 0x0, 0x0, 0xf, 0xfe⟩ rfl rfl (by simp [encodeFields]; rfl) rfl

theorem wshl (w : Width) (d : PReg) (a : PReg) (b : XReg) : Statement (.wshl w d a b) := by
  cases w <;> exact of_row ⟨"WSHL", 0x24000000, 0xFF000FFE, false⟩ ⟨0xff, 0x0, 0x0, 0x0, 0xf, 0xfe⟩ rfl rfl (by simp [encodeFields]; rfl) rfl

theorem wshr (w : Width) (d : PReg) (a : PReg) (b : XReg) : Statement (.wshr w d a b) := by
  cases w <;> exact of_row ⟨"WSHR", 0x25000000, 0xFF000FFE, false⟩ ⟨0xff, 0x0, 0x0, 0x0, 0xf, 0xfe⟩ rfl rfl (by simp [encodeFields]; rfl) rfl

theorem wtoint (w : Width) (n : NativeWidth) (d : XReg) (a : PReg) : Statement (.wtoint w n d a) := by
  cases w <;> cases n <;> exact of_row ⟨"WTOINT", 0x26000000, 0xFF00FFF8, true⟩ ⟨0xff, 0x0, 0x0, 0xf, 0xf, 0xf8⟩ rfl rfl (by simp [encodeFields]; rfl) (by simp only [encodeFields]; decide)

theorem wfromint (w : Width) (n : NativeWidth) (d : PReg) (a : XReg) : Statement (.wfromint w n d a) := by
  cases w <;> cases n <;> exact of_row ⟨"WFROMINT", 0x27000000, 0xFF00FFF8, true⟩ ⟨0xff, 0x0, 0x0, 0xf, 0xf, 0xf8⟩ rfl rfl (by simp [encodeFields]; rfl) (by simp only [encodeFields]; decide)

theorem wcnt (w : Width) (d : XReg) (a : PReg) : Statement (.wcnt w d a) := by
  cases w <;> exact of_row ⟨"WCNT", 0x28000000, 0xFF00FFFE, false⟩ ⟨0xff, 0x0, 0x0, 0xf, 0xf, 0xfe⟩ rfl rfl (by simp [encodeFields]; rfl) rfl

theorem cfrd (d : XReg) : Statement (.cfrd d) := by
  exact of_row ⟨"CFRD", 0x29000000, 0xFF0FFFFF, false⟩ ⟨0xff, 0x0, 0xf, 0xf, 0xf, 0xff⟩ rfl rfl (by simp [encodeFields]; rfl) rfl

theorem cfwr (a : XReg) : Statement (.cfwr a) := by
  exact of_row ⟨"CFWR", 0x2A000000, 0xFFF0FFFF, false⟩ ⟨0xff, 0xf, 0x0, 0xf, 0xf, 0xff⟩ rfl rfl (by simp [encodeFields]; rfl) rfl

theorem tadd (d : TReg) (a : TReg) (b : TReg) : Statement (.tadd d a b) := by
  exact of_row ⟨"TADD", 0x30000000, 0xFF000FFF, false⟩ ⟨0xff, 0x0, 0x0, 0x0, 0xf, 0xff⟩ rfl rfl (by simp [encodeFields]; rfl) rfl

theorem tsub (d : TReg) (a : TReg) (b : TReg) : Statement (.tsub d a b) := by
  exact of_row ⟨"TSUB", 0x31000000, 0xFF000FFF, false⟩ ⟨0xff, 0x0, 0x0, 0x0, 0xf, 0xff⟩ rfl rfl (by simp [encodeFields]; rfl) rfl

theorem tmul (d : TReg) (a : TReg) (b : TReg) : Statement (.tmul d a b) := by
  exact of_row ⟨"TMUL", 0x32000000, 0xFF000FFF, false⟩ ⟨0xff, 0x0, 0x0, 0x0, 0xf, 0xff⟩ rfl rfl (by simp [encodeFields]; rfl) rfl

theorem tshl (d : TReg) (a : TReg) (b : XReg) : Statement (.tshl d a b) := by
  exact of_row ⟨"TSHL", 0x33000000, 0xFF000FFF, false⟩ ⟨0xff, 0x0, 0x0, 0x0, 0xf, 0xff⟩ rfl rfl (by simp [encodeFields]; rfl) rfl

theorem tshr (d : TReg) (a : TReg) (b : XReg) : Statement (.tshr d a b) := by
  exact of_row ⟨"TSHR", 0x34000000, 0xFF000FFF, false⟩ ⟨0xff, 0x0, 0x0, 0x0, 0xf, 0xff⟩ rfl rfl (by simp [encodeFields]; rfl) rfl

theorem ttrim (d : TReg) (a : TReg) : Statement (.ttrim d a) := by
  exact of_row ⟨"TTRIM", 0x35000000, 0xFF00FFFF, false⟩ ⟨0xff, 0x0, 0x0, 0xf, 0xf, 0xff⟩ rfl rfl (by simp [encodeFields]; rfl) rfl

theorem tisz (d : XReg) (a : TReg) : Statement (.tisz d a) := by
  exact of_row ⟨"TISZ", 0x36000000, 0xFF00FFFF, false⟩ ⟨0xff, 0x0, 0x0, 0xf, 0xf, 0xff⟩ rfl rfl (by simp [encodeFields]; rfl) rfl

theorem tcnt (d : XReg) (a : TReg) : Statement (.tcnt d a) := by
  exact of_row ⟨"TCNT", 0x37000000, 0xFF00FFFF, false⟩ ⟨0xff, 0x0, 0x0, 0xf, 0xf, 0xff⟩ rfl rfl (by simp [encodeFields]; rfl) rfl

theorem ttoint (n : NativeWidth) (d : XReg) (a : TReg) : Statement (.ttoint n d a) := by
  cases n <;> exact of_row ⟨"TTOINT", 0x38000000, 0xFF00FFF9, true⟩ ⟨0xff, 0x0, 0x0, 0xf, 0xf, 0xf9⟩ rfl rfl (by simp [encodeFields]; rfl) (by simp only [encodeFields]; decide)

theorem tfromint (n : NativeWidth) (d : TReg) (a : XReg) : Statement (.tfromint n d a) := by
  cases n <;> exact of_row ⟨"TFROMINT", 0x39000000, 0xFF00FFF9, true⟩ ⟨0xff, 0x0, 0x0, 0xf, 0xf, 0xf9⟩ rfl rfl (by simp [encodeFields]; rfl) (by simp only [encodeFields]; decide)

theorem tsplice (d : TReg) (a : TReg) (b : XReg) (c : XReg) : Statement (.tsplice d a b c) := by
  exact of_row ⟨"TSPLICE", 0x40000000, 0xFF0000FF, false⟩ ⟨0xff, 0x0, 0x0, 0x0, 0x0, 0xff⟩ rfl rfl (by simp [encodeFields]; rfl) rfl

theorem encsym (a : XReg) : Statement (.encsym a) := by
  exact of_row ⟨"ENCSYM", 0x50000000, 0xFFF0FFFF, false⟩ ⟨0xff, 0xf, 0x0, 0xf, 0xf, 0xff⟩ rfl rfl (by simp [encodeFields]; rfl) rfl

theorem encend : Statement (.encend) := by
  exact of_row ⟨"ENCEND", 0x51000000, 0xFFFFFFFF, false⟩ ⟨0xff, 0xf, 0xf, 0xf, 0xf, 0xff⟩ rfl rfl (by simp [encodeFields]; rfl) rfl

theorem enchdr : Statement (.enchdr) := by
  exact of_row ⟨"ENCHDR", 0x52000000, 0xFFFFFFFF, false⟩ ⟨0xff, 0xf, 0xf, 0xf, 0xf, 0xff⟩ rfl rfl (by simp [encodeFields]; rfl) rfl

theorem encrst : Statement (.encrst) := by
  exact of_row ⟨"ENCRST", 0x53000000, 0xFFFFFFFF, false⟩ ⟨0xff, 0xf, 0xf, 0xf, 0xf, 0xff⟩ rfl rfl (by simp [encodeFields]; rfl) rfl

theorem decbyte (a : XReg) : Statement (.decbyte a) := by
  exact of_row ⟨"DECBYTE", 0x54000000, 0xFFF0FFFF, false⟩ ⟨0xff, 0xf, 0x0, 0xf, 0xf, 0xff⟩ rfl rfl (by simp [encodeFields]; rfl) rfl

theorem decend : Statement (.decend) := by
  exact of_row ⟨"DECEND", 0x55000000, 0xFFFFFFFF, false⟩ ⟨0xff, 0xf, 0xf, 0xf, 0xf, 0xff⟩ rfl rfl (by simp [encodeFields]; rfl) rfl

theorem decrst : Statement (.decrst) := by
  exact of_row ⟨"DECRST", 0x56000000, 0xFFFFFFFF, false⟩ ⟨0xff, 0xf, 0xf, 0xf, 0xf, 0xff⟩ rfl rfl (by simp [encodeFields]; rfl) rfl

theorem bpop (d : XReg) : Statement (.bpop d) := by
  exact of_row ⟨"BPOP", 0x57000000, 0xFF0FFFFF, false⟩ ⟨0xff, 0x0, 0xf, 0xf, 0xf, 0xff⟩ rfl rfl (by simp [encodeFields]; rfl) rfl

theorem spop (d : XReg) : Statement (.spop d) := by
  exact of_row ⟨"SPOP", 0x58000000, 0xFF0FFFFF, false⟩ ⟨0xff, 0x0, 0xf, 0xf, 0xf, 0xff⟩ rfl rfl (by simp [encodeFields]; rfl) rfl

theorem bcnt (d : XReg) : Statement (.bcnt d) := by
  exact of_row ⟨"BCNT", 0x59000000, 0xFF0FFFFF, false⟩ ⟨0xff, 0x0, 0xf, 0xf, 0xf, 0xff⟩ rfl rfl (by simp [encodeFields]; rfl) rfl

theorem scnt (d : XReg) : Statement (.scnt d) := by
  exact of_row ⟨"SCNT", 0x5A000000, 0xFF0FFFFF, false⟩ ⟨0xff, 0x0, 0xf, 0xf, 0xf, 0xff⟩ rfl rfl (by simp [encodeFields]; rfl) rfl

theorem tmap1 (d : TReg) (a : TReg) (b : TReg) : Statement (.tmap1 d a b) := by
  exact of_row ⟨"TMAP1", 0x60000000, 0xFF000FFF, false⟩ ⟨0xff, 0x0, 0x0, 0x0, 0xf, 0xff⟩ rfl rfl (by simp [encodeFields]; rfl) rfl

theorem tmap2 (d : TReg) (a : TReg) (b : TReg) (c : TReg) : Statement (.tmap2 d a b c) := by
  exact of_row ⟨"TMAP2", 0x61000000, 0xFF0000FF, false⟩ ⟨0xff, 0x0, 0x0, 0x0, 0x0, 0xff⟩ rfl rfl (by simp [encodeFields]; rfl) rfl

end Sys2Proof.Laws.EncodesRow
end

