-- ==== Sys2Proof/Laws/Port.lean ====
section
/-! SUPPORT. What each event of the host port does (20_memory.md R50 to R55, 70_reset_and_hazards.md R330): one lemma a kind of
access, so that no proof unfolds the port. -/

namespace Sys2Proof.Machine

/-- With no event waiting the engine is idle. -/
theorem step_idle {s : State} (h : s.port = []) : step s = .next s := by
  simp [step, State.nextEvent, h]

/-- A step performs the next event on the state without it. -/
theorem step_event {s : State} {e : HostEvent} {rest : List HostEvent} (h : s.port = e :: rest) :
    step s = State.perform { s with port := rest } e := by
  simp [step, State.nextEvent, h]

/-- An access made while reset is asserted is not performed. -/
theorem perform_access_of_reset {s : State} (h : s.resetAsserted = true) (addr width : Nat) (data : Word) :
    s.perform (.write addr width data) = .next s ∧ s.perform (.read addr width) = .next s := by
  simp [State.perform, h]

theorem perform_read {s : State} (h : s.resetAsserted = false) (addr width : Nat) :
    s.perform (.read addr width) = .next { s with rdata := s.hostRead addr width } := by
  simp [State.perform, h]

/-- The register at an offset of the map, when the access is 32 bits wide. -/
theorem accessReg_base (s : State) (off : Nat) : s.accessReg (s.params.hostBase + off) 32 = mapRegAt off := by
  simp [State.accessReg]

theorem accessReg_none {s : State} {addr width : Nat}
    (h : width ≠ 32 ∨ addr < s.params.hostBase ∨ (addr - s.params.hostBase) % 4 ≠ 0 ∨ 0x1FF < addr - s.params.hostBase) :
    s.accessReg addr width = none := by
  rw [State.accessReg]
  split
  · unfold mapRegAt
    rw [if_pos (by omega)]
  · rfl

/-- Word k of X_i lies at 0x100 + 0x10 i + 4 k. -/
theorem mapRegAt_xWord (r : XReg) (k : Fin 4) : mapRegAt (0x100 + 0x10 * r + 4 * k) = some (.xWord r k) := by
  have hr := r.isLt
  have hk := k.isLt
  unfold mapRegAt
  rw [if_neg (by omega), if_pos (by omega)]
  simp only [Option.some.injEq, MapReg.xWord.injEq, Fin.ext_iff, Fin.ofNat]
  omega

/-- The addresses from 0x020 to 0x0FC are reserved. -/
theorem mapRegAt_reserved {off : Nat} (h1 : 0x20 ≤ off) (h2 : off ≤ 0xFC) (h4 : off % 4 = 0) :
    mapRegAt off = some .reserved := by
  unfold mapRegAt
  rw [if_neg (by omega), if_neg (by omega)]
  split <;> first | omega | rfl

/-- The addresses of the control registers. -/
theorem mapRegAt_control : mapRegAt 0 = some .cmd ∧ mapRegAt 4 = some .status ∧ mapRegAt 8 = some .ecmd ∧
    mapRegAt 0xC = some .cf ∧ mapRegAt 0x10 = some .encst ∧ mapRegAt 0x14 = some .decst ∧ mapRegAt 0x18 = some .cfg ∧
    mapRegAt 0x1C = some .fifolvl := by decide

/-- Only offset 0 is CMD. -/
theorem mapRegAt_eq_cmd {off : Nat} : mapRegAt off = some .cmd ↔ off = 0 := by
  constructor
  · intro h
    unfold mapRegAt at h
    split_ifs at h
    · simp at h
    · split at h <;> first | rfl | simp at h
  · rintro rfl
    rfl

/-- A host write of a word to CMD. -/
theorem perform_cmdWrite {s : State} (h : s.resetAsserted = false) (w : Word) : s.perform (s.cmdWrite w) = s.command w := by
  have := accessReg_base s 0
  rw [Nat.add_zero] at this
  simp [State.perform, State.cmdWrite, h, this, mapRegAt_control]

/-- A host write of a register other than CMD. -/
theorem perform_write {s : State} (h : s.resetAsserted = false) {addr width : Nat} {r : MapReg}
    (hr : s.accessReg addr width = some r) (hc : r ≠ .cmd) (data : Word) :
    s.perform (.write addr width data) = .next (s.writeReg r data) := by
  cases r <;> simp_all [State.perform]

/-- A host write that is not performed. -/
theorem perform_write_none {s : State} {addr width : Nat} (hr : s.accessReg addr width = none) (data : Word) :
    s.perform (.write addr width data) = .next s := by
  cases h : s.resetAsserted <;> simp [State.perform, h, hr]

/-! The same, as steps. -/

theorem step_cmdWrite {s : State} {w : Word} {rest : List HostEvent} (h : s.port = s.cmdWrite w :: rest)
    (hr : s.resetAsserted = false) : step s = State.command { s with port := rest } w := by
  rw [step_event h]
  exact perform_cmdWrite (s := { s with port := rest }) hr w

theorem step_read {s : State} {addr width : Nat} {rest : List HostEvent} (h : s.port = .read addr width :: rest)
    (hr : s.resetAsserted = false) : step s = .next { s with port := rest, rdata := s.hostRead addr width } := by
  rw [step_event h]
  exact perform_read (s := { s with port := rest }) hr addr width

theorem step_write {s : State} {addr width : Nat} {data : Word} {r : MapReg} {rest : List HostEvent}
    (h : s.port = .write addr width data :: rest) (hr : s.resetAsserted = false) (ha : s.accessReg addr width = some r)
    (hc : r ≠ .cmd) : step s = .next (State.writeReg { s with port := rest } r data) := by
  rw [step_event h]
  exact perform_write (s := { s with port := rest }) hr ha hc data

theorem step_write_none {s : State} {addr width : Nat} {data : Word} {rest : List HostEvent}
    (h : s.port = .write addr width data :: rest) (ha : s.accessReg addr width = none) :
    step s = .next { s with port := rest } := by
  rw [step_event h]
  exact perform_write_none (s := { s with port := rest }) ha data

/-- All a host write of a command word can do. -/
theorem command_cases (s : State) (w : Word) :
    (s.faultRec.fault = true ∧ s.command w = .next s) ∨
    (s.faultRec.fault = false ∧ decode w = none ∧ s.command w = .next (s.raise .illegal w)) ∨
    ∃ i, s.faultRec.fault = false ∧ decode w = some i ∧ s.command w = exec i s := by
  cases hf : s.faultRec.fault
  · cases hd : decode w <;> simp [State.command, hf, hd]
  · simp [State.command, hf]

/-- The words of a scalar with one word replaced (20_memory.md R54). -/
theorem setScalarWord_getLsbD (v : Scalar) (k : Fin 4) (data : Word) {i : Nat} (hi : i < 128) :
    (setScalarWord v k data).getLsbD i =
      if 32 * k.val ≤ i ∧ i < 32 * k.val + 32 then data.getLsbD (i - 32 * k.val) else v.getLsbD i := by
  simp only [setScalarWord, BitVec.getLsbD_or, BitVec.getLsbD_and, BitVec.getLsbD_not, BitVec.getLsbD_shiftLeft,
    BitVec.getLsbD_setWidth, BitVec.getLsbD_allOnes, hi, decide_true, Bool.true_and]
  by_cases h1 : i < 32 * k.val
  · have : ¬(32 * k.val ≤ i ∧ i < 32 * k.val + 32) := by omega
    simp [h1, this]
  · by_cases h2 : i < 32 * k.val + 32
    · have h3 : i - 32 * k.val < 32 := by omega
      have h4 : i - 32 * k.val < 128 := by omega
      simp [-BitVec.getLsbD_eq_getElem, h1, h2, h3, h4, show 32 * k.val ≤ i by omega]
    · have h3 : ¬ i - 32 * k.val < 32 := by omega
      have hd : data.getLsbD (i - 32 * k.val) = false := BitVec.getLsbD_of_ge _ _ (by omega)
      simp [-BitVec.getLsbD_eq_getElem, h1, h2, h3, hd]

end Sys2Proof.Machine
end

