-- ==== Sys2Proof/Tests/Slice0.lean ====
section
/-! SUPPORT. Tests: ill-formed words, the decoding of one word of every command, one step of every command with the result
the spec gives, and for every statement with hypotheses a state and operands that meet them. Expected values are those of
the rows of 95_test_vectors.md named in the comments, or worked out from the rule named. -/

namespace Sys2Proof.Tests

-- one theorem after another: a thread for each kernel evaluation would be too many at once
set_option Elab.async false

open Sys2Proof Sys2Proof.Machine

/-! Helpers. -/

/-- The reset state with some registers set. -/
def start (xs : List (XReg × Int)) (ps : List (PReg × WordPair)) (ts : List (TReg × TritArray)) : State :=
  let s := xs.foldl (fun s r => s.setXInt r.1 r.2) State.reset
  let s := ps.foldl (fun s r => s.setP r.1 r.2) s
  ts.foldl (fun s r => s.setT r.1 r.2) s

/-- The same machine with small limits: MAX_WORDS = 2, MAX_SHIFT = 200, FIFO_DEPTH = 2. -/
def small (s : State) : State := { s with params := ⟨2, 200, 2, 0⟩ }

/-- What f sees after the next step, in which the host writes w to CMD. -/
def after {α : Type} (s : State) (w : Nat) (f : State → α) : Option α :=
  match step (s.withFetchWord 32 w) with
  | .next t => some (f t)
  | _ => none

/-- Whether an outcome is a next state. -/
def goesOn (o : Outcome) : Bool :=
  match o with
  | .next _ => true
  | _ => false

theorem next_of_goesOn {o : Outcome} (h : goesOn o = true) : ∃ t, o = .next t := by
  cases o with
  | next t => exact ⟨t, rfl⟩
  | fault _ => cases h
  | refused _ => cases h

/-- Trits +1, -1, +1, -1 at 3, 2, 1, 0: the array of 20 in 95_test_vectors.md. -/
def twenty : TritArray := ⟨4, [⟨0x5, 0xA⟩]⟩

/-! Ill-formed terms: each check of WellFormed refuses one (30_encoding.md R79, 00_scope.md R5). -/

theorem test_illformed_undefined_op : illegality 0x0E000000 = some .undefinedOp := by decide
theorem test_illformed_undefined_op_top : illegality 0xFF000000 = some .undefinedOp := by decide
theorem test_illformed_must_be_zero : illegality 0x30312001 = some .mustBeZero := by decide
theorem test_illformed_nop_bit : illegality 0x00000001 = some .mustBeZero := by decide
theorem test_illformed_native_width : illegality 0x38110006 = some .nativeWidth3 := by decide
/-- The order of the checks of R79: a must-be-zero bit comes before n = 3. -/
theorem test_illformed_order : illegality 0x38110007 = some .mustBeZero := by decide
theorem test_illformed_not_decoded :
    [0x0E000000, 0xFF000000, 0x30312001, 0x00000001, 0x38110006].map decode = [none, none, none, none, none] := by decide
theorem test_illformed_params :
    Params.legal ⟨1, 0, 16, 0⟩ = false ∧ Params.legal ⟨2, 0, 1, 0⟩ = false ∧ Params.legal ⟨2, 0, 256, 0⟩ = false := by decide
theorem test_wellformed_params : Params.default.legal = true := by decide

/-! Decoding: one word of every command, its fields laid out by R71 to R74 (OP, D, A, B, C, F from the top). -/

theorem test_decode_nop : decode 0x00000000 = some .nop := by decide
theorem test_decode_xli : decode 0x0110FFFB = some (.xli 1 (-5)) := by decide
theorem test_decode_wpack : decode 0x02012000 = some (.wpack 0 1 2) := by decide
theorem test_decode_wrdn : decode 0x03300000 = some (.wrdn 3 0) := by decide
theorem test_decode_wrdp : decode 0x04420000 = some (.wrdp 4 2) := by decide
theorem test_decode_talloc : decode 0x05120000 = some (.talloc 1 2) := by decide
theorem test_decode_twrw : decode 0x06123000 = some (.twrw 1 2 3) := by decide
theorem test_decode_trdw : decode 0x07312000 = some (.trdw 3 1 2) := by decide
theorem test_decode_tlen : decode 0x08410000 = some (.tlen 4 1) := by decide
theorem test_decode_tnw : decode 0x09510000 = some (.tnw 5 1) := by decide
theorem test_decode_tmov : decode 0x0A210000 = some (.tmov 2 1) := by decide
theorem test_decode_tfromw :
    decode 0x0B120000 = some (.tfromw .w32 1 2) ∧ decode 0x0B120001 = some (.tfromw .w64 1 2) := by decide
theorem test_decode_xmov : decode 0x0C210000 = some (.xmov 2 1) := by decide
theorem test_decode_pmov : decode 0x0D210000 = some (.pmov 2 1) := by decide
theorem test_decode_wget : decode 0x10123001 = some (.wget .w64 1 2 3) := by decide
theorem test_decode_wset : decode 0x11123000 = some (.wset .w32 1 2 3) := by decide
theorem test_decode_tget : decode 0x12123000 = some (.tget 1 2 3) := by decide
theorem test_decode_tset : decode 0x13123000 = some (.tset 1 2 3) := by decide
theorem test_decode_wdig : decode 0x14210000 = some (.wdig 2 1) := by decide
theorem test_decode_wneg : decode 0x15120001 = some (.wneg .w64 1 2) := by decide
theorem test_decode_tneg : decode 0x16310000 = some (.tneg 3 1) := by decide
theorem test_decode_wadd : decode 0x20123001 = some (.wadd .w64 1 2 3) := by decide
theorem test_decode_wsub : decode 0x21123000 = some (.wsub .w32 1 2 3) := by decide
theorem test_decode_waddc : decode 0x22123001 = some (.waddc .w64 1 2 3) := by decide
theorem test_decode_wmul : decode 0x23123000 = some (.wmul .w32 1 2 3) := by decide
theorem test_decode_wshl : decode 0x24123000 = some (.wshl .w32 1 2 3) := by decide
theorem test_decode_wshr : decode 0x25123001 = some (.wshr .w64 1 2 3) := by decide
theorem test_decode_wtoint : decode 0x26120005 = some (.wtoint .w64 .n128 1 2) := by decide
theorem test_decode_wfromint : decode 0x27120002 = some (.wfromint .w32 .n64 1 2) := by decide
theorem test_decode_wcnt : decode 0x28120000 = some (.wcnt .w32 1 2) := by decide
theorem test_decode_cfrd : decode 0x29500000 = some (.cfrd 5) := by decide
theorem test_decode_cfwr : decode 0x2A030000 = some (.cfwr 3) := by decide
theorem test_decode_tadd : decode 0x30123000 = some (.tadd 1 2 3) := by decide
theorem test_decode_tsub : decode 0x31123000 = some (.tsub 1 2 3) := by decide
theorem test_decode_tmul : decode 0x32123000 = some (.tmul 1 2 3) := by decide
theorem test_decode_tshl : decode 0x33123000 = some (.tshl 1 2 3) := by decide
theorem test_decode_tshr : decode 0x34123000 = some (.tshr 1 2 3) := by decide
theorem test_decode_ttrim : decode 0x35210000 = some (.ttrim 2 1) := by decide
theorem test_decode_tisz : decode 0x36120000 = some (.tisz 1 2) := by decide
theorem test_decode_tcnt : decode 0x37120000 = some (.tcnt 1 2) := by decide
theorem test_decode_ttoint : decode 0x38120004 = some (.ttoint .n128 1 2) := by decide
theorem test_decode_tfromint : decode 0x39120002 = some (.tfromint .n64 1 2) := by decide
theorem test_decode_tsplice : decode 0x40123400 = some (.tsplice 1 2 3 4) := by decide
theorem test_decode_encsym : decode 0x50010000 = some (.encsym 1) := by decide
theorem test_decode_encend : decode 0x51000000 = some .encend := by decide
theorem test_decode_enchdr : decode 0x52000000 = some .enchdr := by decide
theorem test_decode_encrst : decode 0x53000000 = some .encrst := by decide
theorem test_decode_decbyte : decode 0x54020000 = some (.decbyte 2) := by decide
theorem test_decode_decend : decode 0x55000000 = some .decend := by decide
theorem test_decode_decrst : decode 0x56000000 = some .decrst := by decide
theorem test_decode_bpop : decode 0x57F00000 = some (.bpop 15) := by decide
theorem test_decode_spop : decode 0x58400000 = some (.spop 4) := by decide
theorem test_decode_bcnt : decode 0x59100000 = some (.bcnt 1) := by decide
theorem test_decode_scnt : decode 0x5A200000 = some (.scnt 2) := by decide
theorem test_decode_tmap1 : decode 0x60312000 = some (.tmap1 3 1 2) := by decide
theorem test_decode_tmap2 : decode 0x61312400 = some (.tmap2 3 1 2 4) := by decide
theorem test_decode_table_word : decodeTableWord 32 0x61312400 = some (.tmap2 3 1 2 4) := by decide +kernel

/-! One step of every command, at most two each; the comment names the row of 95_test_vectors.md or the rule. -/

-- V-RA-1
theorem test_step_nop : after (start [(1, 7)] [] []) 0x00000000 (fun t => (t.sx 1, t.faultRec)) = some (7, FaultRecord.clear) := by decide +kernel
-- V-RA-3
theorem test_step_xli : after (start [] [] []) 0x0110FFFB (fun t => t.sx 1) = some (-5) := by decide +kernel
-- V-RA-6
theorem test_step_wpack : after (start [(1, 2), (2, 1)] [] []) 0x02012000 (fun t => t.getP 0) = some ⟨0x2, 0x1⟩ := by decide +kernel
-- V-RA-7
theorem test_step_wpack_overlap : after (start [(1, 3), (2, 1)] [] []) 0x02012000 (State.faultRec) = some ⟨true, 9, 0x02012000⟩ := by decide +kernel
-- V-RA-10
theorem test_step_wrdn : after (start [] [(0, ⟨0x8000000000000000, 0x1⟩)] []) 0x03300000 (fun t => t.sx 3) = some 9223372036854775808 := by decide +kernel
-- V-RA-10
theorem test_step_wrdp : after (start [] [(0, ⟨0x8000000000000000, 0x1⟩)] []) 0x04400000 (fun t => t.sx 4) = some 1 := by decide +kernel
-- V-RA-12
theorem test_step_talloc : after (start [(2, 65)] [] []) 0x05220000 (fun t => t.getT 2) = some ⟨65, [⟨0, 0⟩, ⟨0, 0⟩]⟩ := by decide +kernel
-- V-RA-13
theorem test_step_talloc_negative : after (start [(1, -1)] [] []) 0x05110000 (State.faultRec) = some ⟨true, 3, 0x05110000⟩ := by decide +kernel
-- V-RA-17
theorem test_step_twrw_mask : after (start [(2, 1)] [(0, ⟨0, 0xFFFFFFFFFFFFFFFF⟩)] [(1, ⟨70, [⟨0, 0⟩, ⟨0, 0⟩]⟩)]) 0x06120000 (fun t => t.getT 1) = some ⟨70, [⟨0, 0⟩, ⟨0, 0x3F⟩]⟩ := by decide +kernel
-- V-RA-18
theorem test_step_twrw_bounds : after (start [(2, 1)] [(0, ⟨0, 1⟩)] [(1, ⟨5, [⟨0, 0⟩]⟩)]) 0x06120000 (State.faultRec) = some ⟨true, 2, 0x06120000⟩ := by decide +kernel
-- V-RA-20
theorem test_step_trdw : after (start [(2, 1)] [] [(1, ⟨66, [⟨0, 0⟩, ⟨0x2, 0⟩]⟩)]) 0x07312000 (fun t => t.getP 3) = some ⟨0x2, 0x0⟩ := by decide +kernel
-- V-RA-21
theorem test_step_trdw_empty : after (start [] [] []) 0x07312000 (State.faultRec) = some ⟨true, 2, 0x07312000⟩ := by decide +kernel
-- V-RA-22
theorem test_step_tlen : after (start [] [] [(1, twenty)]) 0x08410000 (fun t => t.sx 4) = some 4 := by decide +kernel
-- V-RA-22
theorem test_step_tnw_z1 : after (start [] [] [(2, TritArray.z1)]) 0x09720000 (fun t => t.sx 7) = some 1 := by decide +kernel
-- V-RA-23
theorem test_step_tmov : after (start [] [] [(1, twenty)]) 0x0A210000 (fun t => t.getT 2) = some twenty := by decide +kernel
-- V-RA-24
theorem test_step_tfromw : after (start [] [(0, ⟨0x100000000, 0x5⟩)] []) 0x0B100000 (fun t => t.getT 1) = some ⟨32, [⟨0, 0x5⟩]⟩ := by decide +kernel
-- V-RA-26
theorem test_step_xmov : after (start [(1, -5)] [] []) 0x0C210000 (fun t => t.sx 2) = some (-5) := by decide +kernel
-- V-RA-26
theorem test_step_pmov : after (start [] [(0, ⟨0x2, 0x1⟩)] []) 0x0D200000 (fun t => t.getP 2) = some ⟨0x2, 0x1⟩ := by decide +kernel
-- V-DB-1
theorem test_step_wget : after (start [(2, 1)] [(0, ⟨0x2, 0x1⟩)] []) 0x10102000 (fun t => t.sx 1) = some (-1) := by decide +kernel
-- V-DB-3
theorem test_step_wget_bounds : after (start [(2, 32)] [(0, ⟨0, 0x100000000⟩)] []) 0x10102000 (State.faultRec) = some ⟨true, 2, 0x10102000⟩ := by decide +kernel
-- V-DB-7
theorem test_step_wset_replaces : after (start [(2, -1)] [(0, ⟨0, 0x3⟩)] []) 0x11012000 (fun t => t.getP 0) = some ⟨0x1, 0x2⟩ := by decide +kernel
-- V-DB-10
theorem test_step_wset_bounds_first : after (start [(1, 32), (2, 2)] [(0, ⟨0, 0x3⟩)] []) 0x11012000 (State.faultRec) = some ⟨true, 2, 0x11012000⟩ := by decide +kernel
-- V-DB-12
theorem test_step_tget : after (start [(2, 3)] [] [(1, twenty)]) 0x12112000 (fun t => t.sx 1) = some 1 := by decide +kernel
-- V-DB-13
theorem test_step_tget_bounds : after (start [(2, 4)] [] [(1, twenty)]) 0x12112000 (State.faultRec) = some ⟨true, 2, 0x12112000⟩ := by decide +kernel
-- V-DB-16
theorem test_step_tset : after (start [(1, 3)] [] [(1, twenty)]) 0x13112000 (fun t => t.getT 1) = some ⟨4, [⟨0x5, 0x2⟩]⟩ := by decide +kernel
-- V-DB-18
theorem test_step_tset_bounds_first : after (start [(1, 5), (2, 2)] [] [(1, ⟨5, [⟨0, 0⟩]⟩)]) 0x13112000 (State.faultRec) = some ⟨true, 2, 0x13112000⟩ := by decide +kernel
-- V-DB-19
theorem test_step_wdig : after (start [(1, 100)] [] []) 0x14210000 (fun t => t.getP 2) = some ⟨0x4, 0x19⟩ := by decide +kernel
-- V-DB-21
theorem test_step_wdig_domain : after (start [(1, 365)] [] []) 0x14210000 (State.faultRec) = some ⟨true, 6, 0x14210000⟩ := by decide +kernel
-- V-DB-24
theorem test_step_wneg_view : after (start [] [(0, ⟨0x10000000000, 0x1⟩)] []) 0x15100000 (fun t => t.getP 1) = some ⟨0x1, 0x0⟩ := by decide +kernel
-- V-DB-25
theorem test_step_tneg : after (start [] [] [(1, twenty)]) 0x16310000 (fun t => t.getT 3) = some ⟨4, [⟨0xA, 0x5⟩]⟩ := by decide +kernel
-- V-FW-1
theorem test_step_wadd : after (start [] [(2, ⟨0, 0x5⟩), (3, ⟨0, 0x5⟩)] []) 0x20123001 (fun t => t.getP 1) = some ⟨0x5, 0xA⟩ := by decide +kernel
-- V-FW-2
theorem test_step_wadd_wraps : after (start [] [(2, ⟨0, 0xFFFFFFFF⟩), (3, ⟨0, 0x1⟩)] []) 0x20123000 (fun t => (t.getP 1, t.cf)) = some (⟨0xFFFFFFFF, 0⟩, ⟨false, false⟩) := by decide +kernel
-- V-FW-7
theorem test_step_wsub : after (start [] [(2, ⟨0x3, 0x4⟩), (3, ⟨0x2, 0x5⟩)] []) 0x21123000 (fun t => t.getP 1) = some ⟨0x2, 0x1⟩ := by decide +kernel
-- V-FW-8
theorem test_step_wsub_wraps : after (start [] [(2, ⟨0xFFFFFFFF, 0⟩), (3, ⟨0, 0x1⟩)] []) 0x21123000 (fun t => t.getP 1) = some ⟨0, 0xFFFFFFFF⟩ := by decide +kernel
-- V-FW-9
theorem test_step_waddc : after (start [] [(2, ⟨0, 0xFFFFFFFF⟩), (3, ⟨0, 0x1⟩)] []) 0x22123000 (fun t => (t.getP 1, t.cf)) = some (⟨0xFFFFFFFF, 0⟩, ⟨false, true⟩) := by decide +kernel
-- V-FW-12
theorem test_step_waddc_carry_in : after ((start [] [(2, ⟨0, 0x2⟩), (3, ⟨0, 0x3⟩)] []).setCF ⟨false, true⟩) 0x22123000 (fun t => (t.getP 1, t.cf)) = some (⟨0x1, 0x4⟩, ⟨false, false⟩) := by decide +kernel
-- V-FW-13
theorem test_step_wmul : after (start [] [(2, ⟨0x5, 0xA⟩), (3, ⟨0x2, 0x1⟩)] []) 0x23123000 (fun t => t.getP 1) = some ⟨0xF, 0x0⟩ := by decide +kernel
-- V-FW-16
theorem test_step_wmul_wraps : after (start [] [(2, ⟨0, 0xFFFFFFFFFFFFFFFF⟩), (3, ⟨0, 0xFFFFFFFFFFFFFFFF⟩)] []) 0x23123001 (fun t => t.getP 1) = some ⟨0xAAAAAAAAAAAAAAAA, 0x5555555555555555⟩ := by decide +kernel
-- V-FW-21
theorem test_step_wshl_top : after (start [(3, 31)] [(2, ⟨0, 0x1⟩)] []) 0x24123000 (fun t => t.getP 1) = some ⟨0, 0x80000000⟩ := by decide +kernel
-- V-FW-19
theorem test_step_wshl_negative : after (start [(3, -1)] [(2, ⟨0x5, 0xA⟩)] []) 0x24123000 (fun t => t.getP 1) = some ⟨0x2, 0x5⟩ := by decide +kernel
-- V-FW-23
theorem test_step_wshr_rounds : after (start [(3, 1)] [(2, ⟨0, 0x3⟩)] []) 0x25123000 (fun t => t.getP 1) = some ⟨0, 0x1⟩ := by decide +kernel
-- V-FW-24
theorem test_step_wshr_negative : after (start [(3, -2)] [(2, ⟨0, 0x1⟩)] []) 0x25123000 (fun t => t.getP 1) = some ⟨0, 0x4⟩ := by decide +kernel
-- V-FW-25
theorem test_step_wtoint : after (start [] [(2, ⟨0, 0x69⟩)] []) 0x26120005 (fun t => t.sx 1) = some 1000 := by decide +kernel
-- V-FW-26
theorem test_step_wtoint_overflow : after (start [] [(2, ⟨0, 0xFFFFFFFF⟩)] []) 0x26120000 (State.faultRec) = some ⟨true, 7, 0x26120000⟩ := by decide +kernel
-- V-FW-33
theorem test_step_wfromint_low_bits : after (start [(1, 30064771077)] [] []) 0x27110000 (fun t => t.getP 1) = some ⟨0x3, 0x4⟩ := by decide +kernel
-- V-FW-34
theorem test_step_wfromint_overflow : after (start [(1, 926510094425921)] [] []) 0x27110002 (State.faultRec) = some ⟨true, 7, 0x27110002⟩ := by decide +kernel
-- V-FW-38
theorem test_step_wcnt_32 : after (start [] [(2, ⟨0x10000000000, 0x1⟩)] []) 0x28120000 (fun t => t.sx 1) = some 1 := by decide +kernel
-- V-FW-38
theorem test_step_wcnt_64 : after (start [] [(2, ⟨0x10000000000, 0x1⟩)] []) 0x28320001 (fun t => t.sx 3) = some 2 := by decide +kernel
-- V-FW-39
theorem test_step_cfrd : after ((start [] [] []).setCF ⟨true, false⟩) 0x29200000 (fun t => t.sx 2) = some (-1) := by decide +kernel
-- V-FW-39
theorem test_step_cfwr : after (start [(1, -1)] [] []) 0x2A010000 (State.cf) = some ⟨true, false⟩ := by decide +kernel
-- V-FW-40
theorem test_step_cfwr_domain : after (start [(1, 2)] [] []) 0x2A010000 (State.faultRec) = some ⟨true, 6, 0x2A010000⟩ := by decide +kernel
-- V-AP-1
theorem test_step_tadd : after (start [] [] [(1, twenty), (2, ⟨2, [⟨0x2, 0x1⟩]⟩)]) 0x30312000 (fun t => t.getT 3) = some ⟨4, [⟨0x4, 0x8⟩]⟩ := by decide +kernel
-- V-AP-2
theorem test_step_tadd_new_word : after (start [] [] [(1, ⟨64, [⟨0, 0xFFFFFFFFFFFFFFFF⟩]⟩), (2, ⟨1, [⟨0, 1⟩]⟩)]) 0x30312000 (fun t => t.getT 3) = some ⟨65, [⟨0xFFFFFFFFFFFFFFFF, 0⟩, ⟨0, 1⟩]⟩ := by decide +kernel
-- V-AP-1
theorem test_step_tsub : after (start [] [] [(1, twenty), (2, ⟨2, [⟨0x2, 0x1⟩]⟩)]) 0x31412000 (fun t => t.getT 4) = some ⟨4, [⟨0x4, 0xB⟩]⟩ := by decide +kernel
-- V-AP-6
theorem test_step_tsub_self : after (start [] [] [(1, twenty)]) 0x31111000 (fun t => t.getT 1) = some TritArray.empty := by decide +kernel
-- V-AP-1
theorem test_step_tmul : after (start [] [] [(1, twenty), (2, ⟨2, [⟨0x2, 0x1⟩]⟩)]) 0x32512000 (fun t => t.getT 5) = some ⟨4, [⟨0xF, 0⟩]⟩ := by decide +kernel
-- V-AP-11
theorem test_step_tmul_capacity : after (small (start [] [] [(1, ⟨65, [⟨0, 0⟩, ⟨0, 1⟩]⟩), (2, ⟨65, [⟨0, 0⟩, ⟨0, 1⟩]⟩)])) 0x32312000 (State.faultRec) = some ⟨true, 8, 0x32312000⟩ := by decide +kernel
-- V-AP-12
theorem test_step_tshl : after (start [(3, 65)] [] [(1, ⟨128, [⟨1, 0⟩, ⟨0, 0⟩]⟩)]) 0x33213000 (fun t => t.getT 2) = some ⟨66, [⟨0, 0⟩, ⟨0x2, 0⟩]⟩ := by decide +kernel
-- V-AP-16
theorem test_step_tshl_ceiling_on_zero : after (start [(3, 1048577)] [] []) 0x33213000 (State.faultRec) = some ⟨true, 5, 0x33213000⟩ := by decide +kernel
-- V-AP-21
theorem test_step_tshr_rounds : after (start [(3, 1)] [] [(1, ⟨4, [⟨0xA, 0x5⟩]⟩)]) 0x34213000 (fun t => t.getT 2) = some ⟨3, [⟨0x5, 0x2⟩]⟩ := by decide +kernel
-- V-AP-22
theorem test_step_tshr_to_z1 : after (start [(3, 4)] [] [(1, twenty)]) 0x34213000 (fun t => t.getT 2) = some TritArray.z1 := by decide +kernel
-- V-AP-26
theorem test_step_ttrim : after (start [] [] [(1, ⟨32, [⟨0, 0x5⟩]⟩)]) 0x35210000 (fun t => t.getT 2) = some ⟨3, [⟨0, 0x5⟩]⟩ := by decide +kernel
-- V-AP-26
theorem test_step_ttrim_z1 : after (start [] [] [(3, TritArray.z1), (4, twenty)]) 0x35430000 (fun t => t.getT 4) = some TritArray.empty := by decide +kernel
-- V-AP-27
theorem test_step_tisz_zero : after (start [] [] [(2, ⟨5, [⟨0, 0⟩]⟩)]) 0x36220000 (fun t => t.sx 2) = some 1 := by decide +kernel
-- V-AP-27
theorem test_step_tisz_nonzero : after (start [(3, 9)] [] [(3, ⟨1, [⟨1, 0⟩]⟩)]) 0x36330000 (fun t => t.sx 3) = some 0 := by decide +kernel
-- V-AP-28
theorem test_step_tcnt : after (start [] [] [(2, ⟨128, [⟨0, 0xFFFFFFFFFFFFFFFF⟩, ⟨0, 0xFFFFFFFFFFFFFFFF⟩]⟩)]) 0x37220000 (fun t => t.sx 2) = some 128 := by decide +kernel
-- V-AP-29
theorem test_step_ttoint : after (start [] [] [(1, ⟨4, [⟨0xF, 0⟩]⟩)]) 0x38110002 (fun t => t.sx 1) = some (-40) := by decide +kernel
-- V-AP-30
theorem test_step_ttoint_overflow : after (start [] [] [(1, ⟨21, [⟨0xB4629, 0x1001D6⟩]⟩)]) 0x38110000 (State.faultRec) = some ⟨true, 7, 0x38110000⟩ := by decide +kernel
-- V-AP-33
theorem test_step_tfromint_low_bits : after (start [(1, 8589934591)] [] []) 0x39110000 (fun t => t.getT 1) = some ⟨1, [⟨1, 0⟩]⟩ := by decide +kernel
-- V-AP-34
theorem test_step_tfromint_least : after (start [(1, (-0x80000000000000000000000000000000))] [] []) 0x39110004 (fun t => t.getT 1) = some ⟨81, [⟨0x91911C1688440622, 0x6046A22144AAE109⟩, ⟨0x16985, 0x420⟩]⟩ := by decide +kernel
-- V-SP-2
theorem test_step_tsplice_from_end : after (start [(3, -3), (4, -1)] [] [(2, ⟨5, [⟨0x12, 0x9⟩]⟩)]) 0x40123400 (fun t => t.getT 1) = some ⟨2, [⟨0, 0x2⟩]⟩ := by decide +kernel
-- V-SP-4
theorem test_step_tsplice_bounds : after (start [(3, -6), (4, 2)] [] [(2, ⟨5, [⟨0x12, 0x9⟩]⟩)]) 0x40123400 (State.faultRec) = some ⟨true, 2, 0x40123400⟩ := by decide +kernel
-- V-CD-27
theorem test_step_encsym : after ((start [(1, 13)] [] []).setEnc ⟨4, 80, []⟩) 0x50010000 (State.enc) = some ⟨2, 8, [242]⟩ := by decide +kernel
-- V-CD-5
theorem test_step_encsym_domain : after (start [(1, 14)] [] []) 0x50010000 (State.faultRec) = some ⟨true, 6, 0x50010000⟩ := by decide +kernel
-- V-CD-25
theorem test_step_encend_data : after ((start [] [] []).setEnc ⟨4, 80, []⟩) 0x51000000 (State.enc) = some ⟨0, 0, [80]⟩ := by decide +kernel
-- V-CD-26
theorem test_step_encend_terminator : after ((start [] [] []).setEnc ⟨2, 8, []⟩) 0x51000000 (State.enc) = some ⟨0, 0, [247]⟩ := by decide +kernel
-- V-CD-2
theorem test_step_enchdr : after (start [] [] []) 0x52000000 (State.enc) = some ⟨0, 0, [245, 244]⟩ := by decide +kernel
-- V-FL-7
theorem test_step_enchdr_state_first : after ((small (start [] [] [])).setEnc ⟨3, 13, [1, 2]⟩) 0x52000000 (State.faultRec) = some ⟨true, 13, 0x52000000⟩ := by decide +kernel
-- V-CD-7
theorem test_step_encrst : after ((start [] [] []).setEnc ⟨1, 1, [176]⟩) 0x53000000 (State.enc) = some ⟨0, 0, []⟩ := by decide +kernel
-- V-CD-17
theorem test_step_decbyte_terminator : after ((start [(2, 247)] [] []).setDec ⟨1, 2, []⟩) 0x54020000 (State.dec) = some ⟨0, 0, [13]⟩ := by decide +kernel
-- V-CD-21
theorem test_step_decbyte_full : after ((small (start [] [] [])).setDec ⟨1, 0, [5]⟩) 0x54010000 (State.faultRec) = some ⟨true, 11, 0x54010000⟩ := by decide +kernel
-- V-CD-8
theorem test_step_decend : after ((start [] [] []).setDec ⟨1, 0, [-13, -13, -13]⟩) 0x55000000 (State.dec) = some ⟨0, 0, [-13, -13, -13]⟩ := by decide +kernel
-- 45_stream_codec.md R262
theorem test_step_decrst : after ((start [] [] []).setDec ⟨1, 2, [-13, 4]⟩) 0x56000000 (State.dec) = some ⟨0, 0, []⟩ := by decide +kernel
-- V-CD-24
theorem test_step_bpop : after ((start [] [] []).setEnc ⟨0, 0, [245, 244, 13]⟩) 0x57300000 (fun t => (t.sx 3, t.enc.fifo)) = some (245, [244, 13]) := by decide +kernel
-- V-CD-22
theorem test_step_bpop_empty : after (start [] [] []) 0x57100000 (State.faultRec) = some ⟨true, 12, 0x57100000⟩ := by decide +kernel
-- V-CD-24
theorem test_step_spop : after ((start [] [] []).setDec ⟨0, 0, [-13, 2]⟩) 0x58400000 (fun t => (t.sx 4, t.dec.fifo)) = some (-13, [2]) := by decide +kernel
-- V-CD-23
theorem test_step_spop_empty : after (start [] [] []) 0x58100000 (State.faultRec) = some ⟨true, 12, 0x58100000⟩ := by decide +kernel
-- V-CD-24
theorem test_step_bcnt : after ((start [] [] []).setEnc ⟨0, 0, [245, 244, 13]⟩) 0x59100000 (fun t => t.sx 1) = some 3 := by decide +kernel
-- V-CD-24
theorem test_step_scnt : after ((start [] [] []).setDec ⟨0, 0, [-13, -13, -13]⟩) 0x5A200000 (fun t => t.sx 2) = some 3 := by decide +kernel
-- V-TM-1
theorem test_step_tmap1_negates : after (start [] [] [(1, twenty), (2, ⟨3, [⟨0x4, 0x1⟩]⟩)]) 0x60312000 (fun t => t.getT 3) = some ⟨4, [⟨0xA, 0x5⟩]⟩ := by decide +kernel
-- V-TM-4
theorem test_step_tmap1_table : after (start [] [] [(1, twenty), (2, ⟨4, [⟨0, 0xF⟩]⟩)]) 0x60312000 (State.faultRec) = some ⟨true, 4, 0x60312000⟩ := by decide +kernel
-- V-TM-7
theorem test_step_tmap2_minimum : after (start [] [] [(1, twenty), (2, ⟨3, [⟨0x2, 0x5⟩]⟩), (4, ⟨9, [⟨0x4F, 0x100⟩]⟩)]) 0x61312400 (fun t => t.getT 3) = some ⟨4, [⟨0x7, 0⟩]⟩ := by decide +kernel
-- V-TM-9
theorem test_step_tmap2_table : after (start [] [] [(1, twenty), (2, ⟨3, [⟨0x2, 0x5⟩]⟩), (4, ⟨8, [⟨0x80, 0x1⟩]⟩)]) 0x61312400 (State.faultRec) = some ⟨true, 4, 0x61312400⟩ := by decide +kernel

/-! Witnesses: for every statement with hypotheses, states and operands that meet them, clause by clause, at the ends of
the ranges. `goesOn` says of an outcome that it is a next state (`next_of_goesOn`). -/

/-- A state whose port holds one event. -/
def withPort (s : State) (es : List HostEvent) : State := { s with port := es }

/-- A state in which a fault is recorded. -/
def faulted (s : State) : State := s.setFaultRec ⟨true, 2, 0x07312000⟩

/-- H_k as k trits +1 in a word pair. -/
def ones (k : Nat) : WordPair := balancedPair k (tritMax k)

/-- An array with the value 3^127, the top trit of two words set. -/
def topTrit : TritArray := ⟨128, [⟨0, 0⟩, ⟨0, 0x8000000000000000⟩]⟩

theorem witness_EncodeDecodeAgree : ∃ w i, decode w = some i := ⟨0x20123001, .wadd .w64 1 2 3, by decide⟩

theorem witness_DecodesExactlyLegalWords :
    ∃ w : Word, ∃ r ∈ opcodeMap, ∃ q ∈ opcodeMap, w &&& r.mask = r.fixedBits ∧ w &&& q.mask = q.fixedBits ∧
      ¬(r.hasN = true ∧ nField w = 3) :=
  ⟨0x00000000, ⟨"NOP", 0x00000000, 0xFFFFFFFF, false⟩, by decide, ⟨"NOP", 0x00000000, 0xFFFFFFFF, false⟩, by decide, by decide⟩

theorem witness_StepRunsDecodedCommand : ∃ (s : State) (w : Word) (i : Instr) (rest : List HostEvent),
    s.port = s.cmdWrite w :: rest ∧ s.resetAsserted = false ∧ s.faultRec.fault = false ∧ decode w = some i :=
  ⟨State.reset.withFetchWord 32 0x0110FFFB, 0x0110FFFB, .xli 1 (-5), [], by decide⟩

/-- Both ends of every hole of the opcode map, a must-be-zero bit, and n = 3. -/
theorem witness_IllegalWordsFault :
    (State.reset.withFetchWord 32 0).port = State.reset.cmdWrite 0 :: [] ∧ State.reset.resetAsserted = false ∧
    State.reset.faultRec.fault = false ∧
    ([0x0E000000, 0x0F000000, 0x17000000, 0x1F000000, 0x2B000000, 0x2F000000, 0x3A000000, 0x3F000000, 0x41000000,
      0x4F000000, 0x5B000000, 0x5F000000, 0x62000000, 0xFF000000].all fun w : Word =>
      0x0E ≤ opField w ∧ opField w ≤ 0x0F ∨ 0x17 ≤ opField w ∧ opField w ≤ 0x1F ∨ 0x2B ≤ opField w ∧ opField w ≤ 0x2F ∨
        0x3A ≤ opField w ∧ opField w ≤ 0x3F ∨ 0x41 ≤ opField w ∧ opField w ≤ 0x4F ∨ 0x5B ≤ opField w ∧ opField w ≤ 0x5F ∨
        0x62 ≤ opField w) = true ∧
    (∃ r ∈ opcodeMap, opField r.fixedBits = opField 0x00000001 ∧ (0x00000001 : Word) &&& r.mask ≠ r.fixedBits) ∧
    ∃ r ∈ opcodeMap, opField r.fixedBits = opField 0x38110006 ∧ r.hasN = true ∧ nField 0x38110006 = 3 := by
  decide +kernel

/-- Commands, reads, X words from X0 word 0 to X15 word 3, CFG and STATUS, with a fault recorded. -/
theorem witness_FaultedEngineIgnoresCommands :
    ∃ s : State, s.faultRec.fault = true ∧ s.resetAsserted = false ∧
      (∃ w rest, s.port = s.cmdWrite w :: rest) ∧
      (∃ addr width rest, (withPort s [.read 0 32]).port = .read addr width :: rest) ∧
      (∀ r ∈ [(0 : XReg), 15], ∀ k ∈ [(0 : Fin 4), 3], ∃ rest,
        (withPort s [.write (s.params.hostBase + 0x100 + 0x10 * r + 4 * k) 32 7]).port =
          .write (s.params.hostBase + 0x100 + 0x10 * r + 4 * k) 32 7 :: rest) ∧
      (∃ rest, (withPort s [.write 0x18 32 1]).port = .write (s.params.hostBase + 0x18) 32 1 :: rest) ∧
      ∃ rest, (withPort s [.write 4 32 1]).port = .write (s.params.hostBase + 4) 32 1 :: rest ∧
        (1 : Word).getLsbD 0 = true :=
  ⟨withPort (faulted State.reset) [.write 0 32 0], rfl, rfl, ⟨0, [], rfl⟩, ⟨0, 32, [], rfl⟩,
    fun _ _ _ _ => ⟨[], rfl⟩, ⟨[], rfl⟩, [], rfl, by decide⟩

theorem witness_StatusWriteClearsRecord :
    ∃ s : State, s.resetAsserted = false ∧
      (∃ data rest, s.port = .write (s.params.hostBase + 4) 32 data :: rest ∧ data.getLsbD 0 = true ∧
        ∃ w i more, rest = s.cmdWrite w :: more ∧ decode w = some i) ∧
      ∃ data rest, (withPort s [.write 4 32 2]).port = .write (s.params.hostBase + 4) 32 data :: rest ∧
        data.getLsbD 0 = false :=
  ⟨withPort (faulted State.reset) [.write 4 32 1, .write 0 32 0x01200005], rfl,
    ⟨1, _, rfl, by decide, 0x01200005, .xli 2 5, [], rfl, by decide⟩, 2, [], rfl, by decide⟩

theorem witness_ClearAfterFaultRestoresState :
    ∃ (s t : State) (w data : Word) (rest : List HostEvent),
      s.port = s.cmdWrite w :: .write (s.params.hostBase + 4) 32 data :: rest ∧ s.resetAsserted = false ∧
      s.faultRec = FaultRecord.clear ∧ data.getLsbD 0 = true ∧ step s = .next t ∧ t.faultRec.fault = true :=
  ⟨withPort State.reset [.write 0 32 0x57100000, .write 4 32 1], _, 0x57100000, 1, [], rfl, rfl, rfl, by decide, rfl, rfl⟩

/-- Every register of the map, the first and the last reserved address among them. -/
theorem witness_ControlRegistersRead :
    ∀ off ∈ [0x000, 0x004, 0x008, 0x00C, 0x010, 0x014, 0x018, 0x01C, 0x020, 0x0FC],
      ∃ (s : State) (rest : List HostEvent), s.port = .read (s.params.hostBase + off) 32 :: rest ∧ s.resetAsserted = false ∧
        s.enc.fifo.length ≤ 255 ∧ s.dec.fifo.length ≤ 255 ∧ (0x020 ≤ off → off ≤ 0x0FC ∧ off % 4 = 0) := by
  intro off h
  refine ⟨withPort State.reset [.read (0 + off) 32], [], rfl, rfl, Nat.zero_le 255, Nat.zero_le 255, ?_⟩
  revert h
  revert off
  decide

/-- X0 word 0 and X15 word 3, written and read. -/
theorem witness_XWordAccess :
    ∀ r ∈ [(0 : XReg), 15], ∀ k ∈ [(0 : Fin 4), 3], ∃ (s t : State) (rest : List HostEvent), s.resetAsserted = false ∧ t.resetAsserted = false ∧
      s.port = .write (s.params.hostBase + 0x100 + 0x10 * r + 4 * k) 32 7 :: rest ∧
      t.port = .read (t.params.hostBase + 0x100 + 0x10 * r + 4 * k) 32 :: rest :=
  fun r _ k _ => ⟨withPort State.reset [.write (0 + 0x100 + 0x10 * r + 4 * k) 32 7],
    withPort State.reset [.read (0 + 0x100 + 0x10 * r + 4 * k) 32], [], rfl, rfl, rfl, rfl⟩

theorem witness_OtherRegisterWrites :
    ∀ off ∈ [0x008, 0x00C, 0x010, 0x014, 0x018, 0x01C, 0x020, 0x0FC], ∃ (s : State) (rest : List HostEvent),
      s.port = .write (s.params.hostBase + off) 32 7 :: rest ∧ s.resetAsserted = false ∧
      ((off ∈ [0x008, 0x00C, 0x010, 0x014, 0x01C] ∨ (0x020 ≤ off ∧ off ≤ 0x0FC ∧ off % 4 = 0)) ∨ off = 0x018) := by
  intro off h
  refine ⟨withPort State.reset [.write (0 + off) 32 7], [], rfl, rfl, ?_⟩
  revert h
  revert off
  decide

/-- Widths 16 and 64, an address just below the map, unaligned ones, and the first address above the map. -/
theorem witness_UnperformedAccess :
    ∀ a ∈ [(0x110, 16), (0x110, 64), (0x00F, 32), (0x111, 32), (0x112, 32), (0x210, 32)], ∃ (s t : State) (rest : List HostEvent),
      s.params.hostBase = 0x010 ∧ t.params.hostBase = 0x010 ∧ s.resetAsserted = false ∧ t.resetAsserted = false ∧
      s.port = .write a.1 a.2 7 :: rest ∧ t.port = .read a.1 a.2 :: rest ∧
      (a.2 ≠ 32 ∨ a.1 < 0x010 ∨ (a.1 - 0x010) % 4 ≠ 0 ∨ 0x1FF < a.1 - 0x010) := by
  intro a h
  refine ⟨{ State.reset with params := ⟨2, 0, 2, 0x010⟩, port := [.write a.1 a.2 7] },
    { State.reset with params := ⟨2, 0, 2, 0x010⟩, port := [.read a.1 a.2] }, [], rfl, rfl, rfl, rfl, rfl, rfl, ?_⟩
  revert h
  revert a
  decide

theorem witness_ResetEvent :
    (∃ s rest, (s : State).port = .assertReset :: rest) ∧
    (∃ (s : State) (rest : List HostEvent), s.resetAsserted = true ∧ s.port = .write 0x100 32 1 :: rest) ∧
    (∃ (s : State) (rest : List HostEvent), s.resetAsserted = true ∧ s.port = .read 0x100 32 :: rest) ∧
    ∃ s rest, (s : State).port = .releaseReset :: rest :=
  ⟨⟨withPort (faulted State.reset) [.assertReset], [], rfl⟩,
    ⟨{ State.reset with resetAsserted := true, port := [.write 0x100 32 1] }, [], rfl, rfl⟩,
    ⟨{ State.reset with resetAsserted := true, port := [.read 0x100 32] }, [], rfl, rfl⟩,
    ⟨withPort State.reset [.releaseReset], [], rfl⟩⟩

theorem witness_EveryStepGoesOn : State.reset.port = [] := rfl

/-- The invariant holds of a state with a command waiting and a well-formed array, and its next step goes on. -/
theorem witness_StepKeepsInvariant : ∃ s t : State, s.Inv ∧ step s = .next t := by
  refine ⟨(State.reset.setT 1 twenty).withFetchWord 32 0x16310000, _, ?_, rfl⟩
  have hwf : twenty.Wf := ⟨by decide, by decide, by decide⟩
  have hz : TritArray.empty.Wf := ⟨by decide, by decide, by decide⟩
  have ht : ∀ r : TReg, ((State.reset.setT 1 twenty).withFetchWord 32 0x16310000).getT r =
      if r = 1 then twenty else TritArray.empty := by decide
  refine { params := by decide, pairs := by decide, arrays := fun r => ?_, capacity := by decide, carry := by decide,
           record := by decide, encoder := by decide, bytes := by decide, decoder := by decide, symbols := by decide,
           fifos := by decide, reset := fun h => by cases h }
  rw [ht]
  split
  · exact hwf
  · exact hz

theorem witness_FaultMechanism : ∃ (s t : State) (w : Word) (rest : List HostEvent), s.port = s.cmdWrite w :: rest ∧
    s.resetAsserted = false ∧ step s = .next t :=
  ⟨State.reset.withFetchWord 32 0x0E000000, _, 0x0E000000, [], rfl, rfl, rfl⟩

theorem witness_FaultsOfEachCommand :
    (∃ t, exec .nop State.reset = .next t ∧ t.faultRec = State.reset.faultRec) ∧
    ∃ t, exec (.bpop 1) State.reset = .next t ∧ t.faultRec = ⟨true, 12, encode (.bpop 1)⟩ :=
  ⟨⟨_, rfl, rfl⟩, _, rfl, rfl⟩

theorem witness_CommandFrame : ∃ t, exec (.xmov 2 1) State.reset = .next t ∧ (footprint (.xmov 2 1)).x ≠ some 3 ∧
    (footprint (.xmov 2 1)).p ≠ some 0 ∧ (footprint (.xmov 2 1)).t ≠ some 0 ∧ (footprint (.xmov 2 1)).carry = false ∧
    (footprint (.xmov 2 1)).encoder = false ∧ (footprint (.xmov 2 1)).decoder = false :=
  ⟨_, rfl, by decide⟩

theorem witness_WhoReadsCarryAndPolicy : ∃ (i : Instr) (s t : State), (∀ w d a b, i ≠ .waddc w d a b) ∧
    (∀ d, i ≠ .cfrd d) ∧ (∀ a, i ≠ .cfwr a) ∧ (∀ a, i ≠ .decbyte a) ∧ exec i s = .next t :=
  ⟨.xmov 2 1, State.reset, _, nofun, nofun, nofun, nofun, rfl⟩

theorem witness_WpackPacks :
    (∃ s : State, ∀ i < 64, ¬((s.getX 1).getLsbD i = true ∧ (s.getX 2).getLsbD i = true)) ∧
    (∃ s : State, (s.getX 1).getLsbD 0 = true ∧ (s.getX 2).getLsbD 0 = true) ∧
    ∃ s : State, (s.getX 1).getLsbD 63 = true ∧ (s.getX 2).getLsbD 63 = true :=
  ⟨⟨start [(1, 2), (2, 1)] [] [], by decide +kernel⟩, ⟨start [(1, 1), (2, 1)] [] [], by decide⟩,
    start [(1, -1), (2, -1)] [] [], by decide⟩

/-- Lengths 0 and 64 * MAX_WORDS, -1, and one more than fits. -/
theorem witness_TallocAllocates :
    (∀ l ∈ [0, 128], ∃ s : State, 0 ≤ s.sx 1 ∧ s.sx 1 = l ∧ s.sx 1 ≤ 64 * s.params.maxWords) ∧
    (∃ s : State, s.sx 1 = -1) ∧ ∃ s : State, (64 * (s.params.maxWords : Int) < s.sx 1) ∧ s.sx 1 = 129 := by
  refine ⟨fun l hl => ⟨small (start [(1, l)] [] []), ?_⟩, ⟨start [(1, -1)] [] [], by decide⟩,
    small (start [(1, 129)] [] []), by decide⟩
  revert hl
  revert l
  decide

/-- The first and the last word, and the indices just outside. -/
theorem witness_TwrwWritesUnderMask :
    ∃ s : State, (s.getT 1).wordCount = 2 ∧ s.sx 1 = 0 ∧ s.sx 2 = 1 ∧ s.sx 3 = -1 ∧ s.sx 4 = 2 :=
  ⟨start [(1, 0), (2, 1), (3, -1), (4, 2)] [] [(1, topTrit)], by decide +kernel⟩

/-- The first and the last word, the first and the last trit of both widths and of an array, and the indices outside. -/
theorem witness_IndexedReads :
    ∃ s : State, (s.getT 1).wordCount = 2 ∧ (s.getT 2).len = 4 ∧
      s.sx 0 = 0 ∧ s.sx 1 = 1 ∧ s.sx 2 = -1 ∧ s.sx 3 = 2 ∧ s.sx 4 = Width.w32.trits - 1 ∧ s.sx 5 = Width.w64.trits - 1 ∧
      s.sx 6 = Width.w32.trits ∧ s.sx 7 = Width.w64.trits ∧ s.sx 8 = 3 ∧ s.sx 9 = 4 :=
  ⟨start [(1, 1), (2, -1), (3, 2), (4, 31), (5, 63), (6, 32), (7, 64), (8, 3), (9, 4)] [] [(1, topTrit), (2, twenty)],
    by decide +kernel⟩

theorem witness_TfromwKeepsWidth : ∃ s : State, (s.getP 0).Valid := ⟨start [] [(0, ⟨2, 1⟩)] [], by decide⟩

/-- Positions 0, W - 1, -1 and W, the last trit of an array and the one past it, and values -2, -1, 0, 1, 2. -/
theorem witness_TritWrites :
    ∃ s : State, (s.getP 0).Valid ∧ (s.getT 1).Wf ∧ (s.getT 1).len = 128 ∧ s.sx 0 = 0 ∧ s.sx 1 = 31 ∧ s.sx 2 = 63 ∧
      s.sx 3 = -1 ∧ s.sx 4 = 32 ∧ s.sx 5 = 64 ∧ s.sx 6 = 127 ∧ s.sx 7 = 128 ∧ s.sx 8 = -2 ∧ s.sx 9 = 2 ∧ s.sx 10 = 1 :=
  ⟨start [(1, 31), (2, 63), (3, -1), (4, 32), (5, 64), (6, 127), (7, 128), (8, -2), (9, 2), (10, 1)] [(0, ⟨2, 1⟩)]
    [(1, topTrit)], by decide +kernel, ⟨by decide +kernel, by decide +kernel, by decide +kernel⟩, by decide +kernel⟩

theorem witness_WdigMakesDigits : ∃ s : State, s.sx 1 = -364 ∧ s.sx 2 = 364 ∧ s.sx 3 = -365 ∧ s.sx 4 = 365 :=
  ⟨start [(1, -364), (2, 364), (3, -365), (4, 365)] [] [], by decide +kernel⟩

theorem witness_NegationIsExact : ∃ s : State, (s.getP 0).Valid ∧ (s.getT 1).Canonical :=
  ⟨start [] [(0, ⟨2, 1⟩)] [(1, twenty)], by decide +kernel⟩

theorem witness_WaddcChains : ∃ s t u : State, (3 : PReg) ≠ 2 ∧ (3 : PReg) ≠ 6 ∧ (3 : PReg) ≠ 4 ∧
    exec (.waddc .w64 3 1 5) s = .next t ∧ exec (.waddc .w64 4 2 6) t = .next u :=
  ⟨start [] [(1, ones 64), (5, ones 64), (2, ⟨2, 1⟩)] [], _, _, by decide, by decide, by decide, rfl, rfl⟩

theorem witness_WsubUndoesWadd : ∃ s t : State, (s.getP 2).Valid ∧ (1 : PReg) ≠ 3 ∧ exec (.wadd .w32 1 2 3) s = .next t :=
  ⟨start [] [(2, ⟨2, 1⟩), (3, ones 32)] [], _, by decide, by decide, rfl⟩

theorem witness_CarryAccess : ∃ s : State, s.sx 0 = 0 ∧ s.sx 1 = -1 ∧ s.sx 2 = 1 ∧ s.sx 3 = -2 ∧ s.sx 4 = 2 :=
  ⟨start [(1, -1), (2, 1), (3, -2), (4, 2)] [] [], by decide +kernel⟩

theorem witness_FixedWidthShiftsMoveTrits : ∃ s : State, (s.getP 2).Valid := ⟨start [] [(2, ⟨2, 1⟩)] [], by decide⟩

/-- Amounts 0 and W - 1 at both widths. -/
theorem witness_FixedWidthShiftValues : ∃ s : State, s.sx 0 = (0 : Nat) ∧ 0 < Width.w32.trits ∧ 0 < Width.w64.trits ∧
    s.sx 1 = (31 : Nat) ∧ 31 < Width.w32.trits ∧ s.sx 2 = (63 : Nat) ∧ 63 < Width.w64.trits :=
  ⟨start [(1, 31), (2, 63)] [] [], by decide +kernel⟩

/-- The ends of the 32-bit range and the values just outside. -/
theorem witness_WtointConverts : ∃ s : State,
    s.pval .w32 1 = -(2 ^ (NativeWidth.n32.bits - 1)) ∧ s.pval .w32 2 = 2 ^ (NativeWidth.n32.bits - 1) - 1 ∧
    s.pval .w32 3 = -(2 ^ (NativeWidth.n32.bits - 1)) - 1 ∧ s.pval .w32 4 = 2 ^ (NativeWidth.n32.bits - 1) :=
  ⟨start [] [(1, balancedPair 32 (-2147483648)), (2, balancedPair 32 2147483647), (3, balancedPair 32 (-2147483649)),
    (4, balancedPair 32 2147483648)] [], by decide +kernel⟩

/-- The ends of the 32-trit range and the values just outside, as 64-bit integers. -/
theorem witness_WfromintConverts : ∃ s : State,
    s.sintN .n64 1 = -tritMax Width.w32.trits ∧ s.sintN .n64 2 = tritMax Width.w32.trits ∧
    s.sintN .n64 3 = -tritMax Width.w32.trits - 1 ∧ s.sintN .n64 4 = tritMax Width.w32.trits + 1 :=
  ⟨start [(1, -926510094425920), (2, 926510094425920), (3, -926510094425921), (4, 926510094425921)] [] [],
    by decide +kernel⟩

theorem witness_CountsAndZeroTest : ∃ s : State, (s.getP 0).Valid ∧ (s.getT 1).Wf ∧ (s.getT 1).trit 0 ≠ 0 ∧
    ∀ i : Nat, (s.getT 2).trit i = 0 :=
  ⟨start [] [(0, ⟨2, 1⟩)] [(1, twenty)], by decide +kernel, ⟨by decide +kernel, by decide +kernel, by decide +kernel⟩,
    by decide +kernel, fun i => by
      have h : (start [] [(0, ⟨2, 1⟩)] [(1, twenty)]).getT 2 = TritArray.empty := by decide +kernel
      rw [h]
      simp [TritArray.trit, TritArray.word, TritArray.empty, WordPair.trit, WordPair.zero, trit]⟩

/-- Values at and just beyond the ends of what MAX_WORDS = 2 holds, for each of the three commands. -/
theorem witness_ArbitraryArithmeticIsExact : ∃ s : State,
    s.FitsCapacity ((s.getT 1).tval + (s.getT 3).tval) ∧ ¬s.FitsCapacity ((s.getT 1).tval + (s.getT 2).tval) ∧
    s.FitsCapacity ((s.getT 1).tval - (s.getT 3).tval) ∧ ¬s.FitsCapacity ((s.getT 4).tval - (s.getT 2).tval) ∧
    s.FitsCapacity ((s.getT 1).tval * (s.getT 2).tval) ∧ ¬s.FitsCapacity ((s.getT 1).tval * (s.getT 5).tval) :=
  ⟨small (start [] [] [(1, ⟨128, [ones 64, ones 64]⟩), (2, ⟨1, [⟨0, 1⟩]⟩), (4, ⟨128, [(ones 64).swap, (ones 64).swap]⟩),
    (5, ⟨2, [⟨1, 2⟩]⟩)]), by decide +kernel⟩

theorem witness_AddLaws : ∃ s : State, (s.getT 1).Canonical ∧ (s.getT 1).Valid ∧
    (s.getT 1).wordCount ≤ s.params.maxWords ∧ (s.getT 2).tval = 0 ∧ s.FitsCapacity (s.getT 1).tval ∧
    s.FitsCapacity ((s.getT 1).tval + (s.getT 2).tval) ∧
    (3 : TReg) ≠ 2 ∧ (3 : TReg) ≠ 4 :=
  ⟨small (start [] [] [(1, twenty), (2, ⟨70, [⟨0, 0⟩, ⟨0, 0⟩]⟩)]), by decide +kernel⟩

/-- The same values in other words and lengths. -/
theorem witness_ResultsDependOnValues : ∃ (s t t' : State) (A B : TritArray), (1 : TReg) ≠ 2 ∧
    A.tval = (s.getT 1).tval ∧ B.tval = (s.getT 2).tval ∧ A ≠ s.getT 1 ∧ B ≠ s.getT 2 ∧
    exec (.tadd 3 1 2) s = .next t ∧ exec (.tadd 3 1 2) ((s.setT 1 A).setT 2 B) = .next t' := by
  have h : goesOn (exec (.tadd 3 1 2) (start [] [] [(1, twenty)])) = true := by decide +kernel
  have h' : goesOn (exec (.tadd 3 1 2)
      (((start [] [] [(1, twenty)]).setT 1 ⟨70, [⟨0x5, 0xA⟩, ⟨0, 0⟩]⟩).setT 2 TritArray.z1)) = true := by decide +kernel
  obtain ⟨t, ht⟩ := next_of_goesOn h
  obtain ⟨t', ht'⟩ := next_of_goesOn h'
  exact ⟨_, t, t', _, _, by decide, by decide +kernel, by decide +kernel, by decide +kernel, by decide +kernel, ht, ht'⟩

theorem witness_TtrimCanonicalizes : ∃ s : State, (s.getT 1).Wf :=
  ⟨start [] [] [(1, ⟨5, [⟨0, 0⟩]⟩)], ⟨by decide +kernel, by decide +kernel, by decide +kernel⟩⟩

/-- TSHL by k and TSHR by -k, with k = MAX_SHIFT, one more, and the largest k whose result fits, for a nonzero and a zero
value. -/
theorem witness_LeftShiftOfArrays : ∃ s : State,
    (s.sx 1 = (201 : Nat) ∧ s.sx 2 = -(201 : Nat) ∧ s.params.maxShift < 201) ∧
    (s.sx 3 = (124 : Nat) ∧ s.sx 4 = -(124 : Nat) ∧ 124 ≤ s.params.maxShift ∧ (s.getT 1).tval ≠ 0 ∧
      s.FitsCapacity ((s.getT 1).tval * pow3 124)) ∧
    (s.sx 5 = (200 : Nat) ∧ s.sx 6 = -(200 : Nat) ∧ 200 ≤ s.params.maxShift ∧ (s.getT 2).tval = 0 ∧
      1 ≤ s.params.maxWords) ∧
    ¬s.FitsCapacity ((s.getT 1).tval * pow3 200) :=
  ⟨small (start [(1, 201), (2, -201), (3, 124), (4, -124), (5, 200), (6, -200)] [] [(1, twenty)]), by decide +kernel⟩

/-- TSHR by k and TSHL by -k, to a nonzero and to a zero result. -/
theorem witness_RightShiftOfArrays : ∃ s : State, s.sx 1 = (1 : Nat) ∧ s.sx 2 = -(1 : Nat) ∧ 0 < 1 ∧ s.sx 3 = (4 : Nat) ∧
    1 ≤ s.params.maxWords ∧ (s.getT 1).wordCount ≤ s.params.maxWords ∧ ((s.getT 1).shiftDown 4).tval = 0 ∧
    ((s.getT 1).shiftDown 1).tval ≠ 0 :=
  ⟨small (start [(1, 1), (2, -1), (3, 4)] [] [(1, twenty)]), by decide +kernel⟩

/-- The ends of the 32-bit range and the values just outside. -/
theorem witness_ArbitraryConversions : ∃ s : State,
    (s.getT 1).tval = -(2 ^ (NativeWidth.n32.bits - 1)) ∧ (s.getT 2).tval = 2 ^ (NativeWidth.n32.bits - 1) - 1 ∧
    (s.getT 3).tval = -(2 ^ (NativeWidth.n32.bits - 1)) - 1 ∧ (s.getT 4).tval = 2 ^ (NativeWidth.n32.bits - 1) :=
  ⟨start [] [] [(1, canon (-2147483648)), (2, canon 2147483647), (3, canon (-2147483649)), (4, canon 2147483648)],
    by decide +kernel⟩

/-- The whole array, the empty range at its end, the range from -L, and one bad range of each kind. -/
theorem witness_SpliceIsCorrect :
    ∀ r ∈ [((0, 4), (0, 4)), ((4, 4), (4, 4)), ((-4, -1), (0, 3)), ((-5, 2), (-1, 2)), ((3, 2), (3, 2)), ((0, 5), (0, 5))],
      ∃ s : State, (r.2.1 = (if s.sx 1 < 0 then s.sx 1 + (s.getT 1).len else s.sx 1)) ∧
        (r.2.2 = (if s.sx 2 < 0 then s.sx 2 + (s.getT 1).len else s.sx 2)) ∧
        ((0 ≤ r.2.1 ∧ r.2.1 ≤ r.2.2 ∧ r.2.2 ≤ (s.getT 1).len) ∨
          (r.2.1 < 0 ∨ r.2.2 < r.2.1 ∨ (s.getT 1).len < r.2.2)) := by
  intro r h
  refine ⟨start [(1, r.1.1), (2, r.1.2)] [] [(1, twenty)], ?_⟩
  revert h
  revert r
  decide +kernel

theorem witness_SpliceByWordsAgrees : ∃ s : State, (s.getT 1).Wf ∧ s.sx 1 = (60 : Nat) ∧ s.sx 2 = (128 : Nat) ∧
    60 < 128 ∧ 128 ≤ (s.getT 1).len :=
  ⟨start [(1, 60), (2, 128)] [] [(1, topTrit)], ⟨by decide +kernel, by decide +kernel, by decide +kernel⟩,
    by decide +kernel⟩

theorem witness_TableMaps : ∃ s : State, (s.getT 2).len = 3 ∧ (s.getT 3).len ≠ 3 ∧ (s.getT 4).len = 9 ∧
    (s.getT 1).len ≠ (s.getT 2).len ∧ (s.getT 5).len ≠ 9 :=
  ⟨start [] [] [(1, twenty), (2, ⟨3, [⟨4, 1⟩]⟩), (3, ⟨4, [⟨0, 0xF⟩]⟩), (4, ⟨9, [⟨0x4F, 0x100⟩]⟩), (5, ⟨8, [⟨0, 1⟩]⟩)],
    by decide +kernel⟩

/-- Symbols -14, -13, 13 and 14; offsets 1, 2 and 4; a FIFO with one place left and a full one. -/
theorem witness_EncsymEncodes : ∃ s : State, s.sx 1 = -14 ∧ s.sx 2 = -13 ∧ s.sx 3 = 13 ∧ s.sx 4 = 14 ∧
    (∀ e ∈ [(⟨1, 2, [9]⟩ : Encoder), ⟨2, 8, [9]⟩, ⟨4, 80, [9]⟩], (s.setEnc e).enc.Legal ∧
      (s.setEnc e).enc.fifo.length < s.params.fifoDepth) ∧
    (s.setEnc ⟨4, 80, [9, 9]⟩).enc.Legal ∧ (s.setEnc ⟨4, 80, [9, 9]⟩).enc.fifo.length = s.params.fifoDepth ∧
    ((80 + (13 + 13) * 3 ^ 4 : Nat) : Int) = (80 : BitVec 8).toNat + (s.sx 3 + 13) * 3 ^ 4 :=
  ⟨small (start [(1, -14), (2, -13), (3, 13), (4, 14)] [] []), by decide +kernel⟩

theorem witness_EncoderEndAndHeader : ∃ s : State, s.enc.Legal ∧ s.enc.off = 0 ∧
    s.enc.fifo.length + 2 ≤ s.params.fifoDepth ∧
    ((s.setEnc ⟨3, 26, [9]⟩).enc.Legal ∧ 3 ≤ (s.setEnc ⟨3, 26, [9]⟩).enc.off.toNat ∧
      (s.setEnc ⟨3, 26, [9]⟩).enc.fifo.length < s.params.fifoDepth) ∧
    ((s.setEnc ⟨1, 2, [9]⟩).enc.Legal ∧ (s.setEnc ⟨1, 2, [9]⟩).enc.fifo.length < s.params.fifoDepth) ∧
    ((s.setEnc ⟨2, 8, [9, 9]⟩).enc.Legal ∧ (s.setEnc ⟨2, 8, [9, 9]⟩).enc.off ≠ 0 ∧
      (s.setEnc ⟨2, 8, [9, 9]⟩).enc.fifo.length = s.params.fifoDepth) ∧
    s.params.fifoDepth < (s.setEnc ⟨0, 0, [9]⟩).enc.fifo.length + 2 :=
  ⟨small State.reset, by decide +kernel⟩

/-- Offsets 0, 1 and 2, bytes 0 and 242, with room and without. -/
theorem witness_DecbyteDecodesData : ∃ s : State, s.sx 1 = (0 : Nat) ∧ s.sx 2 = (242 : Nat) ∧
    (∀ d ∈ [(⟨0, 0, []⟩ : Decoder), ⟨1, 2, []⟩, ⟨2, 8, []⟩], (s.setDec d).dec.Legal ∧
      (s.setDec d).dec.fifo.length + 2 ≤ s.params.fifoDepth) ∧
    s.params.fifoDepth < (s.setDec ⟨0, 0, [5, 5]⟩).dec.fifo.length + 1 ∧ (s.setDec ⟨0, 0, [5, 5]⟩).dec.Legal ∧
    s.params.fifoDepth < (s.setDec ⟨1, 2, [5]⟩).dec.fifo.length + 2 ∧ (s.setDec ⟨1, 2, [5]⟩).dec.Legal :=
  ⟨small (start [(1, 0), (2, 242)] [] []), by decide +kernel⟩

/-- The bytes -1 and 256, then 243 to 255 at each offset: the terminators just inside and just outside what the encoder
emits at offsets 1 (t < 9) and 2 (t < 3). -/
theorem witness_DecbyteDecodesMarkers : ∃ s : State, s.sx 1 = -1 ∧ s.sx 2 = 256 ∧
    s.sx 3 = (243 : Nat) ∧ s.sx 4 = (244 : Nat) ∧ s.sx 5 = (245 : Nat) ∧ s.sx 6 = (246 : Nat) ∧ s.sx 7 = (247 : Nat) ∧
    s.sx 8 = (252 : Nat) ∧ s.sx 9 = (253 : Nat) ∧ s.sx 10 = (255 : Nat) ∧
    (∀ d ∈ [(⟨0, 0, []⟩ : Decoder), ⟨1, 2, [5]⟩, ⟨2, 8, [5]⟩], (s.setDec d).dec.Legal ∧
      (s.setDec d).dec.fifo.length < s.params.fifoDepth) ∧
    ((s.setDec ⟨1, 2, [5, 5]⟩).dec.Legal ∧ (s.setDec ⟨1, 2, [5, 5]⟩).dec.fifo.length = s.params.fifoDepth) ∧
    s.f0f = false ∧ (s.setF0f true).f0f = true ∧
    (255 - 247 < 3 ^ (3 - 1) ∧ 3 ^ (3 - 1) ≤ 255 - 246) ∧ 255 - 253 < 3 ^ (3 - 2) ∧ 3 ^ (3 - 2) ≤ 255 - 252 :=
  ⟨small (start [(1, -1), (2, 256), (3, 243), (4, 244), (5, 245), (6, 246), (7, 247), (8, 252), (9, 253), (10, 255)] [] []),
    by decide +kernel⟩

theorem witness_FifoAccess : ∃ s : State, (∃ b rest, s.enc.fifo = b :: rest) ∧ (∃ v rest, s.dec.fifo = v :: rest) ∧
    State.reset.enc.fifo = [] ∧ State.reset.dec.fifo = [] :=
  ⟨(State.reset.setEnc ⟨0, 0, [245]⟩).setDec ⟨0, 0, [-13]⟩, ⟨245, [], rfl⟩, ⟨-13, [], rfl⟩, rfl, rfl⟩

theorem witness_CodecRoundTrip : ∃ s : State, (∀ v ∈ ([-13, 0, 13] : List Int), -13 ≤ v ∧ v ≤ 13) ∧
    s.enc = ⟨0, 0, []⟩ ∧ s.dec = ⟨0, 0, []⟩ ∧ s.faultRec.fault = false ∧
    ([-13, 0, 13] : List Int).length + 4 ≤ s.params.fifoDepth :=
  ⟨State.reset, by decide⟩

theorem witness_BitwiseAddLoopAgrees : ∃ s t : State, (s.getP 2).Valid ∧ (s.getP 3).Valid ∧ s.cf.Valid ∧
    exec (.waddc .w32 1 2 3) s = .next t :=
  ⟨(start [] [(2, ones 32), (3, ⟨2, 1⟩)] []).setCF ⟨false, true⟩, _, by decide +kernel, by decide, by decide, rfl⟩

theorem witness_AddByWordsAgrees : ∃ s : State, s.FitsCapacity ((s.getT 1).tval + (s.getT 2).tval) :=
  ⟨small (start [] [] [(1, ⟨64, [ones 64]⟩), (2, twenty)]), by decide +kernel⟩

/-- The decoder of the spec's scenario 2: the two bytes 0, 0 give three symbols (45_stream_codec.md R269, V-CD-8). -/
theorem test_two_zero_bytes :
    (decodeBytes [0, 0] State.reset).map (fun t => t.dec) = some ⟨1, 0, [-13, -13, -13]⟩ := by decide +kernel

/-- The host port: an X word written, and a STATUS read after a fault (V-HM-3, V-HM-4). -/
theorem test_port_x_write :
    (match step (withPort (start [(2, -1)] [] []) [.write 0x120 32 7]) with
      | .next t => some (t.sx 2)
      | _ => none) = some (-4294967289) := by decide +kernel

theorem test_port_status_read :
    (match step (withPort (State.reset.setFaultRec ⟨true, 1, 1⟩) [.read 4 32]) with
      | .next t => some t.rdata
      | _ => none) = some 0x00000101 := by decide +kernel

end Sys2Proof.Tests
end

section
/-! What the array and codec operations keep: the form a T register may hold (10_state.md R22, R25, R26, R28), and the
legal values and levels of the two halves of the codec (R35, R36, R39). -/

namespace Sys2Proof.Machine

/-! Word pairs at and above a position. -/

theorem WordPair.zero_zeroFrom (k : Nat) : WordPair.zero.ZeroFrom k := fun i _ _ => by simp [WordPair.zero]

/-- A pair with nothing set at all is the pair of zero trits. -/
theorem WordPair.eq_zero_of_zeroFrom {a : WordPair} (h : a.ZeroFrom 0) : a = WordPair.zero := by
  obtain ⟨n, p⟩ := a
  have hn : n = 0 := BitVec.eq_of_getLsbD_eq fun i hi => by simpa using (h i hi (Nat.zero_le i)).1
  have hp : p = 0 := BitVec.eq_of_getLsbD_eq fun i hi => by simpa using (h i hi (Nat.zero_le i)).2
  rw [hn, hp, WordPair.zero]

/-- Writing a trit below position k sets nothing from k on. -/
theorem WordPair.setTrit_zeroFrom {a : WordPair} {j k : Nat} (h : a.ZeroFrom k) (hj : j < k) (v : Int) :
    (a.setTrit j v).ZeroFrom k := by
  intro i hi hk
  have hij : i ≠ j := by omega
  have ha := h i hi hk
  simp only [WordPair.setTrit, BitVec.getLsbD_or, BitVec.getLsbD_and, apply_ite (fun w : TritBits => w.getLsbD i),
    getLsbD_bit hi, ha, hij]
  simp

theorem WordPair.shl_valid {a : WordPair} (h : a.Valid) (w : Nat) (k : Int) : (a.shl w k).Valid := by
  rw [WordPair.shl]
  split
  · exact WordPair.shiftDown_valid h _ _
  · exact WordPair.shiftUp_valid h _ _

theorem WordPair.shr_valid {a : WordPair} (h : a.Valid) (w : Nat) (k : Int) : (a.shr w k).Valid := by
  rw [WordPair.shr]
  split
  · exact WordPair.shiftUp_valid h _ _
  · exact WordPair.shiftDown_valid h _ _

/-! Well-formed arrays. -/

/-- The masking invariant, said of each word. -/
theorem TritArray.masked_iff {a : TritArray} : a.Masked ↔ ∀ j < a.wordCount, (a.word j).ZeroFrom (a.len - 64 * j) :=
  ⟨fun h j hj b hb hl => h j hj b hb (by omega), fun h j hj b hb hl => h j hj b hb (by omega)⟩

/-- A well-formed array has the words that its length takes. -/
theorem TritArray.Wf.wordsFor_le {a : TritArray} (h : a.Wf) : wordsFor a.len ≤ a.wordCount := by
  rcases h.count with hc | rfl
  · exact hc.ge
  · decide

theorem TritArray.empty_wf : TritArray.empty.Wf := canon_zero ▸ canon_wf 0

/-- An all-zero array is well formed, whatever its length (40_register_access.md R106). -/
theorem zeroArray_wf (len : Nat) : TritArray.Wf ⟨len, List.replicate (wordsFor len) WordPair.zero⟩ where
  valid w hw := by
    rw [List.eq_of_mem_replicate hw]
    exact WordPair.zero_valid
  masked := TritArray.masked_iff.2 fun j hj => by
    have hw : TritArray.word ⟨len, List.replicate (wordsFor len) WordPair.zero⟩ j = WordPair.zero := by
      rw [TritArray.word_of_lt hj]
      exact List.getElem_replicate ..
    rw [hw]
    exact WordPair.zero_zeroFrom _
  count := .inl (by simp [TritArray.wordCount])

theorem wordsFor_trits (w : Width) : wordsFor w.trits = 1 := by cases w <;> decide

/-- An array of one word that fills its W trits (40_register_access.md R112). -/
theorem singleWord_wf (w : Width) {a : WordPair} (h : a.Valid) : TritArray.Wf ⟨w.trits, [a.keepLow w.trits]⟩ where
  valid b hb := by
    rw [List.mem_singleton.1 hb]
    exact WordPair.keepLow_valid h _
  masked := TritArray.masked_iff.2 fun j hj => by
    obtain rfl : j = 0 := by simpa [TritArray.wordCount] using hj
    exact WordPair.keepLow_zeroFrom a w.trits
  count := .inl (wordsFor_trits w).symm

/-- The words of an array after word j is replaced. -/
theorem TritArray.word_set {a : TritArray} {j : Nat} (hj : j < a.wordCount) (w : WordPair) (k : Nat) :
    TritArray.word { a with words := a.words.set j w } k = if k = j then w else a.word k := by
  simp only [TritArray.wordCount] at hj
  by_cases hk : k = j
  · subst hk
    simp [TritArray.word, List.getD_eq_getElem?_getD, hj]
  · simp [TritArray.word, List.getD_eq_getElem?_getD, hk, List.getElem?_set_ne (Ne.symm hk)]

/-- Replacing a word by a valid one that respects the mask keeps an array well formed; in Z1 that word is zero again. -/
theorem TritArray.Wf.set {a : TritArray} (h : a.Wf) {j : Nat} (hj : j < a.wordCount) {w : WordPair} (hv : w.Valid)
    (hz : w.ZeroFrom (a.len - 64 * j)) : TritArray.Wf { a with words := a.words.set j w } where
  valid b hb := by
    rcases List.mem_or_eq_of_mem_set hb with hb | rfl
    · exact h.valid b hb
    · exact hv
  masked := TritArray.masked_iff.2 fun k hk => by
    rw [TritArray.word_set hj]
    split
    · next hkj => exact hkj ▸ hz
    · exact TritArray.masked_iff.1 h.masked k (by simpa [TritArray.wordCount] using hk)
  count := by
    rcases h.count with hc | rfl
    · exact .inl (by simpa [TritArray.wordCount] using hc)
    · obtain rfl : j = 0 := by simpa [TritArray.wordCount, TritArray.z1] using hj
      exact .inr (by rw [WordPair.eq_zero_of_zeroFrom hz]; rfl)

/-- Negation keeps an array well formed (41_dual_bitvector.md R136). -/
theorem TritArray.Wf.mapSwap {a : TritArray} (h : a.Wf) : TritArray.Wf { a with words := a.words.map WordPair.swap } where
  valid b hb := by
    obtain ⟨w, hw, rfl⟩ := List.mem_map.1 hb
    exact WordPair.swap_valid (h.valid w hw)
  masked j hj b hb hl := by
    have hj' : j < a.words.length := by simpa [TritArray.wordCount] using hj
    have hm := h.masked j hj' b hb hl
    rw [TritArray.word_of_lt hj'] at hm
    rw [TritArray.word_of_lt (by simpa using hj'), List.getElem_map]
    exact hm.symm
  count := by
    rcases h.count with hc | rfl
    · exact .inl (by simpa [TritArray.wordCount] using hc)
    · exact .inr rfl

/-- What a T register of a machine of MAX_WORDS = n may hold (10_state.md R22, R25, R26, R28). -/
structure TritArray.Fits (a : TritArray) (n : Nat) : Prop where
  wf : a.Wf
  wordCount_le : a.wordCount ≤ n

theorem TritArray.empty_fits (n : Nat) : TritArray.empty.Fits n := ⟨TritArray.empty_wf, Nat.zero_le n⟩

/-- An array of given trits fits where its length does. -/
theorem arrayOfTrits_fits {len n : Nat} (h : wordsFor len ≤ n) (f : Nat → Int) : (arrayOfTrits len f).Fits n :=
  ⟨arrayOfTrits_wf len f, by rwa [arrayOfTrits_wordCount]⟩

theorem wordsFor_mono {k m : Nat} (h : k ≤ m) : wordsFor k ≤ wordsFor m := by
  simp only [wordsFor]
  omega

/-- The words of an array that fits cover every length up to its own. -/
theorem TritArray.Fits.wordsFor_le {a : TritArray} {n : Nat} (h : a.Fits n) {len : Nat} (hl : len ≤ a.len) :
    wordsFor len ≤ n :=
  (wordsFor_mono hl).trans (h.wf.wordsFor_le.trans h.wordCount_le)

theorem TritArray.Fits.set {a : TritArray} {n : Nat} (h : a.Fits n) {j : Nat} (hj : j < a.wordCount) {w : WordPair}
    (hv : w.Valid) (hz : w.ZeroFrom (a.len - 64 * j)) : TritArray.Fits { a with words := a.words.set j w } n :=
  ⟨h.wf.set hj hv hz, by simpa [TritArray.wordCount] using h.wordCount_le⟩

theorem TritArray.Fits.mapSwap {a : TritArray} {n : Nat} (h : a.Fits n) :
    TritArray.Fits { a with words := a.words.map WordPair.swap } n :=
  ⟨h.wf.mapSwap, by simpa [TritArray.wordCount] using h.wordCount_le⟩

/-- Writing a trit below the length of an array keeps what it may hold (41_dual_bitvector.md R133). -/
theorem TritArray.Fits.setTrit {a : TritArray} {n : Nat} (h : a.Fits n) {i : Nat} (hi : i < a.len) (v : Int) :
    TritArray.Fits { a with words := a.words.set (i / 64) ((a.word (i / 64)).setTrit (i % 64) v) } n := by
  have hj : i / 64 < a.wordCount := by
    have := h.wf.wordsFor_le
    simp only [wordsFor] at this
    omega
  exact h.set hj (WordPair.setTrit_valid (TritArray.word_valid h.wf.valid _) _ _)
    (WordPair.setTrit_zeroFrom (TritArray.masked_iff.1 h.wf.masked _ hj) (by omega) v)

/-- The canonical form takes no more words than any array of the value (43_arbitrary_precision.md R200). -/
theorem TritArray.Fits.canon_tval {a : TritArray} {n : Nat} (h : a.Fits n) : (canon a.tval).Fits n := by
  refine ⟨canon_wf _, (canon_wordCount_le.2 ?_).trans h.wordCount_le⟩
  rw [TritArray.tval_eq]
  exact tritSum_bounds fun i _ => a.trit_bounds i

/-- A native integer of at most 128 bits takes at most two words (43_arbitrary_precision.md R204). -/
theorem canon_sintN_fits (s : State) (n : NativeWidth) (r : XReg) {m : Nat} (hm : 2 ≤ m) :
    (canon (s.sintN n r)).Fits m := by
  refine ⟨canon_wf _, (canon_wordCount_le.2 ?_).trans hm⟩
  have hb := sintN_bounds s n r
  have ht : (2 ^ 127 : Int) ≤ tritMax (64 * 2) := by norm_num [tritMax]
  cases n <;> norm_num [NativeWidth.bits] at hb ht ⊢ <;> omega

/-! The encoder. -/

/-- What the encoder may hold when the FIFO depth is n (10_state.md R35, R39, 45_stream_codec.md R259, R267). -/
structure Encoder.Good (e : Encoder) (n : Nat) : Prop where
  legal : e.Legal
  bytes : e.BytesOk
  level : e.fifo.length ≤ n

theorem Encoder.empty_good (n : Nat) : Encoder.Good ⟨0, 0, []⟩ n := ⟨by decide, by decide, Nat.zero_le n⟩

/-- Taking the oldest byte. -/
theorem Encoder.Good.pop {e : Encoder} {n : Nat} (h : e.Good n) {b : Byte} {rest : List Byte} (hf : e.fifo = b :: rest) :
    Encoder.Good { e with fifo := rest } n where
  legal := h.legal
  bytes c hc := h.bytes c (hf ▸ List.mem_cons_of_mem b hc)
  level := by
    have := h.level
    simp only [hf, List.length_cons] at this
    exact Nat.le_of_succ_le this

/-- A byte the encoder may emit: a data byte, a terminator of one or two digits, or a marker. -/
def emittable (b : Nat) : Prop := b < 256 ∧ b ≠ 243 ∧ b ≠ 246

theorem emittable_ofNat {b : Nat} (h : emittable b) : BitVec.ofNat 8 b ≠ 243 ∧ BitVec.ofNat 8 b ≠ 246 := by
  obtain ⟨hlt, h243, h246⟩ := h
  constructor <;> intro he <;> have := congrArg BitVec.toNat he <;>
    simp only [BitVec.toNat_ofNat, Nat.mod_eq_of_lt hlt] at this
  · exact h243 this
  · exact h246 this

/-- Pushing bytes the encoder may emit, with legal pending digits, where they have room. -/
theorem Encoder.Good.push {e : Encoder} {n : Nat} (h : e.Good n) {p acc : Nat} (hp : p ≤ 4) (ha : acc < 3 ^ p)
    {out : List Nat} (hb : ∀ b ∈ out, emittable b) (hr : e.fifo.length + out.length ≤ n) :
    Encoder.Good ⟨BitVec.ofNat 3 p, BitVec.ofNat 8 acc, e.fifo ++ out.map (BitVec.ofNat 8)⟩ n where
  legal := by
    have h81 : 3 ^ p ≤ 81 := Nat.pow_le_pow_right (n := 3) (by norm_num) hp
    have hp' : p % 2 ^ 3 = p := Nat.mod_eq_of_lt (by omega)
    have ha' : acc % 2 ^ 8 = acc := Nat.mod_eq_of_lt (by omega)
    simp only [Encoder.Legal, BitVec.toNat_ofNat, hp', ha']
    exact ⟨hp, ha⟩
  bytes b hm := by
    rcases List.mem_append.1 hm with hm | hm
    · exact h.bytes b hm
    · obtain ⟨c, hc, rfl⟩ := List.mem_map.1 hm
      exact emittable_ofNat (hb c hc)
  level := by simpa using hr

/-- What ENCEND pushes may be emitted (45_stream_codec.md R253, R259). -/
theorem encFlush_emittable {p acc : Nat} (hp : p ≤ 4) (ha : acc < 3 ^ p) : ∀ b ∈ encFlush p acc, emittable b := by
  interval_cases p <;> simp [encFlush, emittable] <;> omega

/-! The decoder. -/

/-- What the decoder may hold when the FIFO depth is n (10_state.md R36, R39). -/
structure Decoder.Good (d : Decoder) (n : Nat) : Prop where
  legal : d.Legal
  symbols : d.SymbolsOk
  level : d.fifo.length ≤ n

theorem Decoder.empty_good (n : Nat) : Decoder.Good ⟨0, 0, []⟩ n := ⟨by decide, by decide, Nat.zero_le n⟩

/-- Taking the oldest symbol. -/
theorem Decoder.Good.pop {d : Decoder} {n : Nat} (h : d.Good n) {v : Int} {rest : List Int} (hf : d.fifo = v :: rest) :
    Decoder.Good { d with fifo := rest } n where
  legal := h.legal
  symbols c hc := h.symbols c (hf ▸ List.mem_cons_of_mem v hc)
  level := by
    have := h.level
    simp only [hf, List.length_cons] at this
    exact Nat.le_of_succ_le this

/-- Discarding the pending digits (45_stream_codec.md R261). -/
theorem Decoder.Good.discard {d : Decoder} {n : Nat} (h : d.Good n) : Decoder.Good { d with off := 0, pend := 0 } n :=
  ⟨by simp [Decoder.Legal], h.symbols, h.level⟩

/-- Pushing symbols in [-13, 13], with legal pending digits, where they have room. -/
theorem Decoder.Good.push {d : Decoder} {n : Nat} (h : d.Good n) {q pend : Nat} (hq : q ≤ 2) (hp : pend < 3 ^ q)
    {out : List Int} (hv : ∀ v ∈ out, -13 ≤ v ∧ v ≤ 13) (hr : d.fifo.length + out.length ≤ n) :
    Decoder.Good ⟨BitVec.ofNat 2 q, BitVec.ofNat 8 pend, d.fifo ++ out⟩ n where
  legal := by
    have h9 : 3 ^ q ≤ 9 := Nat.pow_le_pow_right (n := 3) (by norm_num) hq
    have hq' : q % 2 ^ 2 = q := Nat.mod_eq_of_lt (by omega)
    have hp' : pend % 2 ^ 8 = pend := Nat.mod_eq_of_lt (by omega)
    simp only [Decoder.Legal, BitVec.toNat_ofNat, hq', hp']
    exact ⟨hq, hp⟩
  symbols v hm := (List.mem_append.1 hm).elim (h.symbols v) (hv v)
  level := by simpa using hr

/-- The only fault of a byte is E_CODEC (45_stream_codec.md R260). -/
theorem decByte_error {f0f : Bool} {q pend b : Nat} {e : ErrorCode} (h : decByte f0f q pend b = .error e) : e = .codec := by
  simp only [decByte, decTerminator] at h
  split_ifs at h <;> simp_all

/-- The last symbol of a group: t fills the digits that the pending ones leave (45_stream_codec.md R258). -/
theorem terminator_symbol_bounds {q pend t : Nat} (hq : q ≤ 2) (hp : pend < 3 ^ q) (ht : t < 3 ^ (3 - q)) :
    -13 ≤ ((pend + t * 3 ^ q : Nat) : Int) - 13 ∧ ((pend + t * 3 ^ q : Nat) : Int) - 13 ≤ 13 := by
  interval_cases q <;> omega

/-- A byte leaves a legal decoder legal, and its symbols lie in [-13, 13]. -/
theorem decByte_legal {f0f : Bool} {q pend b : Nat} {r : Nat × Nat × List Int} (hq : q ≤ 2) (hp : pend < 3 ^ q)
    (h : decByte f0f q pend b = .ok r) : r.1 ≤ 2 ∧ r.2.1 < 3 ^ r.1 ∧ ∀ v ∈ r.2.2, -13 ≤ v ∧ v ≤ 13 := by
  rw [decByte] at h
  split_ifs at h with hdata h243 hmark
  · obtain rfl := Except.ok.inj h
    exact decData_legal hq hp hdata
  · obtain rfl := Except.ok.inj h
    simp
  · rcases decTerminator_cases f0f q pend b with ⟨-, -, he⟩ | ⟨-, -, he⟩ | ⟨-, -, he⟩ | ⟨-, ht, he⟩ <;> rw [he] at h
    · cases h
    · obtain rfl := Except.ok.inj h
      simp
    · cases h
    · obtain rfl := Except.ok.inj h
      simpa using terminator_symbol_bounds hq hp ht

end Sys2Proof.Machine
end

section
/-! What each command can do, said once: it goes on either with a fault of its list or with writes that its footprint
names, and what it writes may stand there when the state before kept the invariants (10_state.md R43, 60_exceptions.md R300,
R302). -/

namespace Sys2Proof.Machine

theorem State.Inv.fits {s : State} (h : s.Inv) (r : TReg) : (s.getT r).Fits s.params.maxWords := ⟨h.arrays r, h.capacity r⟩

theorem State.Inv.encGood {s : State} (h : s.Inv) : s.enc.Good s.params.fifoDepth := ⟨h.encoder, h.bytes, h.fifos.1⟩

theorem State.Inv.decGood {s : State} (h : s.Inv) : s.dec.Good s.params.fifoDepth := ⟨h.decoder, h.symbols, h.fifos.2⟩

/-- The ranges of the parameters (00_scope.md R5). -/
theorem Params.legal_iff {p : Params} : p.legal = true ↔ 2 ≤ p.maxWords ∧ 2 ≤ p.fifoDepth ∧ p.fifoDepth ≤ 255 := by
  simp [Params.legal, and_assoc]

theorem State.Inv.two_le_maxWords {s : State} (h : s.Inv) : 2 ≤ s.params.maxWords := (Params.legal_iff.1 h.params).1

/-- t is s after writes that the footprint of i names, each of a value that may stand there if s keeps the invariants. -/
inductive Writes (i : Instr) (s : State) : State → Prop
  | nothing : Writes i s s
  | x {t : State} {d : XReg} {v : Scalar} : (footprint i).x = some d → Writes i s t → Writes i s (t.setX d v)
  | p {t : State} {d : PReg} {v : WordPair} : (footprint i).p = some d → (s.Inv → v.Valid) → Writes i s t →
      Writes i s (t.setP d v)
  | t {t : State} {d : TReg} {v : TritArray} : (footprint i).t = some d → (s.Inv → v.Fits s.params.maxWords) →
      Writes i s t → Writes i s (t.setT d v)
  | carry {t : State} {c : CarryTrit} : (footprint i).carry = true → c.Valid → Writes i s t → Writes i s (t.setCF c)
  | encoder {t : State} {e : Encoder} : (footprint i).encoder = true → (s.Inv → e.Good s.params.fifoDepth) →
      Writes i s t → Writes i s (t.setEnc e)
  | decoder {t : State} {d : Decoder} : (footprint i).decoder = true → (s.Inv → d.Good s.params.fifoDepth) →
      Writes i s t → Writes i s (t.setDec d)

/-- The command i, run on s, ends in o: it goes on, with writes of its own or with a fault of its list. -/
inductive Effect (i : Instr) (s : State) : Outcome → Prop
  | writes {t : State} : Writes i s t → Effect i s (.next t)
  | fault {e : ErrorCode} : e ∈ (footprint i).faults → Effect i s (.next (s.raise e (encode i)))

theorem Effect.next {i : Instr} {s : State} {o : Outcome} (h : Effect i s o) : ∃ t, o = .next t := by
  cases h <;> exact ⟨_, rfl⟩

/-! The shapes of an arm. In a list of faults `.head _` is the first and `.tail _ (.head _)` the second. -/

theorem Effect.setX {i : Instr} {s : State} {d : XReg} {v : Scalar} (h : (footprint i).x = some d) :
    Effect i s (.next (s.setX d v)) := .writes (.x h .nothing)

theorem Effect.setP {i : Instr} {s : State} {d : PReg} {v : WordPair} (h : (footprint i).p = some d)
    (hv : s.Inv → v.Valid) : Effect i s (.next (s.setP d v)) := .writes (.p h hv .nothing)

theorem Effect.setT {i : Instr} {s : State} {d : TReg} {v : TritArray} (h : (footprint i).t = some d)
    (hv : s.Inv → v.Fits s.params.maxWords) : Effect i s (.next (s.setT d v)) := .writes (.t h hv .nothing)

theorem Effect.setEnc {i : Instr} {s : State} {e : Encoder} (h : (footprint i).encoder = true)
    (hv : s.Inv → e.Good s.params.fifoDepth) : Effect i s (.next (s.setEnc e)) := .writes (.encoder h hv .nothing)

theorem Effect.setDec {i : Instr} {s : State} {d : Decoder} (h : (footprint i).decoder = true)
    (hv : s.Inv → d.Good s.params.fifoDepth) : Effect i s (.next (s.setDec d)) := .writes (.decoder h hv .nothing)

/-- A fault of the command's list. -/
theorem Effect.fail {i : Instr} {s : State} {e : ErrorCode} (h : e ∈ (footprint i).faults) : Effect i s (s.fail i e) :=
  .fault h

/-- A write of a well-formed array after the capacity check. -/
theorem Effect.writeT {i : Instr} {s : State} {d : TReg} {v : TritArray} (h : (footprint i).t = some d)
    (hf : .capacity ∈ (footprint i).faults) (hv : v.Wf) : Effect i s (s.writeT i d v) := by
  by_cases hle : v.wordCount ≤ s.params.maxWords
  · rw [writeT_of_le hle]
    exact .setT h fun _ => ⟨hv, hle⟩
  · rw [writeT_of_lt (by omega)]
    exact .fault hf

/-- A check that raises a fault, and what follows when it passes. -/
theorem Effect.check {i : Instr} {s : State} {c : Prop} [Decidable c] {e : ErrorCode} {o : Outcome}
    (hf : e ∈ (footprint i).faults) (ho : ¬c → Effect i s o) : Effect i s (if c then s.fail i e else o) := by
  split
  · exact .fail hf
  · exact ho ‹_›

/-! The commands with checks or results of their own. -/

theorem effect_talloc (d : TReg) (a : XReg) (s : State) : Effect (.talloc d a) s (execTalloc d a s) :=
  .check (.head _) fun _ => .check (.tail _ (.head _)) fun hcap =>
    .setT rfl fun _ => ⟨zeroArray_wf _, by simpa [TritArray.wordCount] using hcap⟩

theorem effect_twrw (d : TReg) (a : XReg) (b : PReg) (s : State) : Effect (.twrw d a b) s (execTwrw d a b s) :=
  .check (.head _) fun hin => .setT rfl fun h => by
    have hj := inBounds_iff.1 (by simpa using hin)
    exact (h.fits d).set (by omega) (WordPair.keepLow_valid (h.pairs b) _) (WordPair.keepLow_zeroFrom _ _)

theorem effect_tset (d : TReg) (a b : XReg) (s : State) : Effect (.tset d a b) s (execTset d a b s) :=
  .check (.head _) fun hin => .check (.tail _ (.head _)) fun _ => .setT rfl fun h => by
    have hi := inBounds_iff.1 (by simpa using hin)
    exact (h.fits d).setTrit (by omega) _

theorem effect_tshl (d a : TReg) (b : XReg) (s : State) : Effect (.tshl d a b) s (execTshl d a b s) := by
  have hc : ErrorCode.capacity ∈ (footprint (.tshl d a b)).faults := .tail _ (.head _)
  unfold execTshl
  split
  · exact .check (.head _) fun _ => .writeT rfl hc (canonOrZ1_spec _).2.1
  · exact .writeT rfl hc (canonOrZ1_spec _).2.1

theorem effect_tshr (d a : TReg) (b : XReg) (s : State) : Effect (.tshr d a b) s (execTshr d a b s) := by
  have hc : ErrorCode.capacity ∈ (footprint (.tshr d a b)).faults := .tail _ (.head _)
  unfold execTshr
  split
  · exact .writeT rfl hc (canonOrZ1_spec _).2.1
  · exact .check (.head _) fun _ => .writeT rfl hc (canonOrZ1_spec _).2.1

theorem effect_tsplice (d a : TReg) (b c : XReg) (s : State) : Effect (.tsplice d a b c) s (execTsplice d a b c s) := by
  refine .check (.head _) fun hr => ?_
  split
  · exact .setT rfl fun _ => TritArray.empty_fits _
  · exact .setT rfl fun h => arrayOfTrits_fits ((h.fits a).wordsFor_le (by omega)) _

theorem effect_tmap2 (d a b c : TReg) (s : State) : Effect (.tmap2 d a b c) s (execTmap2 d a b c s) :=
  .check (.head _) fun _ => .setT rfl fun h => arrayOfTrits_fits (by
    rcases le_total (s.getT a).len (s.getT b).len with hl | hl
    · rw [max_eq_right hl]
      exact (h.fits b).wordsFor_le le_rfl
    · rw [max_eq_left hl]
      exact (h.fits a).wordsFor_le le_rfl) _

/-- A push of at least one entry has passed the check of the FIFO level. -/
theorem level_le_of_checked {α β : Type} {s : State} {held : List α} {out : List β}
    (hheld : held.length ≤ s.params.fifoDepth) (h : ¬(out ≠ [] ∧ ¬s.fifoHasRoom held.length out.length)) :
    held.length + out.length ≤ s.params.fifoDepth := by
  by_cases hout : out = []
  · simpa [hout] using hheld
  · simpa [hout, State.fifoHasRoom] using h

theorem effect_encsym (a : XReg) (s : State) : Effect (.encsym a) s (execEncsym a s) :=
  .check (.head _) fun hsym => .check (.tail _ (.head _)) fun hroom => .setEnc rfl fun h => by
    obtain ⟨hp, ha⟩ := h.encoder
    obtain ⟨hp', ha', hb⟩ := encStep_legal hp ha (u := (s.sx a + 13).toNat) (by omega)
    exact h.encGood.push hp' ha' (fun b hm => by have := hb b hm; simp only [emittable]; omega)
      (level_le_of_checked h.encGood.level hroom)

theorem effect_encend (s : State) : Effect .encend s (execEncend s) :=
  .check (.head _) fun hroom => .setEnc rfl fun h =>
    h.encGood.push (p := 0) (acc := 0) (by decide) (by decide) (encFlush_emittable h.encoder.1 h.encoder.2)
      (level_le_of_checked h.encGood.level hroom)

theorem effect_enchdr (s : State) : Effect .enchdr s (execEnchdr s) :=
  .check (.head _) fun _ => .check (.tail _ (.head _)) fun hroom => .setEnc rfl fun h =>
    { legal := h.encoder
      bytes := fun b hb => (List.mem_append.1 hb).elim (h.bytes b) fun hb => by
        rcases List.mem_pair.1 hb with rfl | rfl <;> decide
      level := by simpa [State.fifoHasRoom] using hroom }

theorem effect_decbyte (a : XReg) (s : State) : Effect (.decbyte a) s (execDecbyte a s) := by
  refine .check (.head _) fun _ => ?_
  split
  next e he =>
    obtain rfl := decByte_error he
    exact .fail (.tail _ (.head _))
  next r hr =>
    refine .check (.tail _ (.tail _ (.head _))) fun hroom => .setDec rfl fun h => ?_
    obtain ⟨hq, hp, hv⟩ := decByte_legal h.decoder.1 h.decoder.2 hr
    exact h.decGood.push hq hp hv (by simpa [State.fifoHasRoom] using hroom)

theorem effect_bpop (d : XReg) (s : State) : Effect (.bpop d) s (execBpop d s) := by
  unfold execBpop
  split
  · exact .fail (.head _)
  next hf => exact .writes (.encoder rfl (fun h => h.encGood.pop hf) (.x rfl .nothing))

theorem effect_spop (d : XReg) (s : State) : Effect (.spop d) s (execSpop d s) := by
  unfold execSpop
  split
  · exact .fail (.head _)
  next hf => exact .writes (.decoder rfl (fun h => h.decGood.pop hf) (.x rfl .nothing))

/-- Every command goes on, with writes of its own or with a fault of its list. -/
theorem exec_effect (i : Instr) (s : State) : Effect i s (exec i s) := by
  cases i with
  | nop => exact .writes .nothing
  -- a scalar result may be any word
  | xli | wrdn | wrdp | tlen | tnw | xmov | wcnt | cfrd | tisz | tcnt | bcnt | scnt => exact .setX rfl
  | wget | tget | wtoint | ttoint => exact .check (.head _) fun _ => .setX rfl
  -- the balanced form of an integer is a valid pair
  | wadd | wsub | wmul => exact .setP rfl fun _ => balancedPair_valid _ _
  | wdig | wfromint => exact .check (.head _) fun _ => .setP rfl fun _ => balancedPair_valid _ _
  | waddc => exact .writes (.carry rfl (carryOf_valid _) (.p rfl (fun _ => balancedPair_valid _ _) .nothing))
  | cfwr => exact .check (.head _) fun _ => .writes (.carry rfl (carryOf_valid _) .nothing)
  | wpack => exact .check (.head _) fun hv => .setP rfl fun _ => not_not.1 hv
  | pmov d a => exact .setP rfl fun h => h.pairs a
  | trdw d a => exact .check (.head _) fun _ => .setP rfl fun h => TritArray.word_valid (h.arrays a).valid _
  | wset w d =>
    exact .check (.head _) fun _ => .check (.tail _ (.head _)) fun _ =>
      .setP rfl fun h => WordPair.setTrit_valid (WordPair.keepLow_valid (h.pairs d) _) _ _
  | wneg w d a => exact .setP rfl fun h => WordPair.swap_valid (WordPair.keepLow_valid (h.pairs a) _)
  | wshl w d a => exact .setP rfl fun h => WordPair.shl_valid (h.pairs a) _ _
  | wshr w d a => exact .setP rfl fun h => WordPair.shr_valid (h.pairs a) _ _
  -- arithmetic results are canonical, hence well formed
  | tadd | tsub | tmul => exact .writeT rfl (.head _) (canon_wf _)
  | tshl d a b => exact effect_tshl d a b s
  | tshr d a b => exact effect_tshr d a b s
  | ttrim d a => exact .setT rfl fun h => (h.fits a).canon_tval
  | tfromint n d a => exact .setT rfl fun h => canon_sintN_fits s n a h.two_le_maxWords
  | talloc d a => exact effect_talloc d a s
  | twrw d a b => exact effect_twrw d a b s
  | tset d a b => exact effect_tset d a b s
  | tmov d a => exact .setT rfl fun h => h.fits a
  | tfromw w d a =>
    exact .setT rfl fun h => ⟨singleWord_wf w (h.pairs a), (Nat.le_succ 1).trans h.two_le_maxWords⟩
  | tneg d a => exact .setT rfl fun h => (h.fits a).mapSwap
  | tsplice d a b c => exact effect_tsplice d a b c s
  | tmap1 d a b =>
    exact .check (.head _) fun _ => .setT rfl fun h => arrayOfTrits_fits ((h.fits a).wordsFor_le le_rfl) _
  | tmap2 d a b c => exact effect_tmap2 d a b c s
  | encsym a => exact effect_encsym a s
  | encend => exact effect_encend s
  | enchdr => exact effect_enchdr s
  | encrst => exact .setEnc rfl fun _ => Encoder.empty_good _
  | decbyte a => exact effect_decbyte a s
  | decend => exact .setDec rfl fun h => h.decGood.discard
  | decrst => exact .setDec rfl fun _ => Decoder.empty_good _
  | bpop d => exact effect_bpop d s
  | spop d => exact effect_spop d s

/-- Every command goes on (60_exceptions.md R302). -/
theorem exec_next (i : Instr) (s : State) : ∃ t, exec i s = .next t := (exec_effect i s).next

/-- All a command can do to the state. -/
theorem exec_cases {i : Instr} {s t : State} (h : exec i s = .next t) :
    Writes i s t ∨ ∃ e ∈ (footprint i).faults, t = s.raise e (encode i) := by
  cases h ▸ exec_effect i s with
  | writes hw => exact .inl hw
  | fault he => exact .inr ⟨_, he, rfl⟩

end Sys2Proof.Machine
end

section
/-! What each event of the port can do to the state, said once, and the state after reset (10_state.md R42,
70_reset_and_hazards.md R330). -/

namespace Sys2Proof.Machine

/-- All a write of a register other than CMD can do (10_state.md R32, R37, 20_memory.md R50, R54). -/
theorem writeReg_cases (s : State) (r : MapReg) (data : Word) :
    s.writeReg r data = s ∨ s.writeReg r data = s.clearFault ∨ (∃ b, s.writeReg r data = s.setF0f b) ∨
      ∃ d v, s.writeReg r data = s.setX d v := by
  cases r with
  | cmd | ecmd | cf | encst | decst | fifolvl | reserved => exact .inl rfl
  | status =>
    simp only [State.writeReg]
    split
    · exact .inr (.inl rfl)
    · exact .inl rfl
  | cfg => exact .inr (.inr (.inl ⟨_, rfl⟩))
  | xWord d k => exact .inr (.inr (.inr ⟨d, _, rfl⟩))

/-- What one event of the port can make of s: accesses and commands are performed only outside reset. -/
inductive EventResult (s : State) : State → Prop
  | ignored : EventResult s s
  | reset : EventResult s s.applyReset
  | release : EventResult s { s with resetAsserted := false }
  | read (w : Word) : s.resetAsserted = false → EventResult s { s with rdata := w }
  | setX (d : XReg) (v : Scalar) : s.resetAsserted = false → EventResult s (s.setX d v)
  | setF0f (b : Bool) : s.resetAsserted = false → EventResult s (s.setF0f b)
  | clearFault : s.resetAsserted = false → EventResult s s.clearFault
  | illegal (w : Word) : s.resetAsserted = false → EventResult s (s.raise .illegal w)
  | command {i : Instr} {t : State} : s.resetAsserted = false → exec i s = .next t → EventResult s t

/-- A write of a command word goes on. -/
theorem command_result {s : State} (hr : s.resetAsserted = false) (w : Word) :
    ∃ t, s.command w = .next t ∧ EventResult s t := by
  rcases command_cases s w with ⟨-, h⟩ | ⟨-, -, h⟩ | ⟨i, -, -, h⟩
  · exact ⟨s, h, .ignored⟩
  · exact ⟨_, h, .illegal w hr⟩
  · obtain ⟨t, ht⟩ := exec_next i s
    exact ⟨t, h.trans ht, .command hr ht⟩

theorem writeReg_result {s : State} (hr : s.resetAsserted = false) (r : MapReg) (data : Word) :
    EventResult s (s.writeReg r data) := by
  rcases writeReg_cases s r data with h | h | ⟨b, h⟩ | ⟨d, v, h⟩ <;> rw [h]
  · exact .ignored
  · exact .clearFault hr
  · exact .setF0f b hr
  · exact .setX d v hr

/-- Every event goes on. -/
theorem perform_result (s : State) (e : HostEvent) : ∃ t, s.perform e = .next t ∧ EventResult s t := by
  cases e with
  | assertReset => exact ⟨_, rfl, .reset⟩
  | releaseReset => exact ⟨_, rfl, .release⟩
  | read addr width =>
    cases hr : s.resetAsserted
    · exact ⟨_, perform_read hr addr width, .read _ hr⟩
    · exact ⟨s, (perform_access_of_reset hr addr width 0).2, .ignored⟩
  | write addr width data =>
    cases hr : s.resetAsserted
    · cases ha : s.accessReg addr width with
      | none => exact ⟨s, perform_write_none ha data, .ignored⟩
      | some r =>
        by_cases hc : r = .cmd
        · simpa [State.perform, hr, ha, hc] using command_result hr data
        · exact ⟨_, perform_write hr ha hc data, writeReg_result hr r data⟩
    · exact ⟨s, (perform_access_of_reset hr addr width data).1, .ignored⟩

/-! The frame of a command (10_state.md R43). -/

/-- What i may have changed between s and t, by its footprint: the clauses of Obligations.CommandFrame. -/
structure Frame (i : Instr) (s t : State) : Prop where
  getX : ∀ r, (footprint i).x ≠ some r → t.getX r = s.getX r
  getP : ∀ r, (footprint i).p ≠ some r → t.getP r = s.getP r
  getT : ∀ r, (footprint i).t ≠ some r → t.getT r = s.getT r
  cf : (footprint i).carry = false → t.cf = s.cf
  enc : (footprint i).encoder = false → t.enc = s.enc
  dec : (footprint i).decoder = false → t.dec = s.dec
  f0f : t.f0f = s.f0f
  params : t.params = s.params
  rdata : t.rdata = s.rdata
  resetAsserted : t.resetAsserted = s.resetAsserted
  port : t.port = s.port

/-- A fault changes the fault record alone (60_exceptions.md R302). -/
theorem frame_raise (i : Instr) (s : State) (e : ErrorCode) (w : Word) : Frame i s (s.raise e w) := by
  constructor <;> intros <;> rfl

/-- A register that is not the destination is not written. -/
theorem ne_of_not_dest {o : Option RegNum} {d r : RegNum} (hd : o = some d) (hr : o ≠ some r) : r ≠ d := by
  rintro rfl
  exact hr hd

theorem Writes.frame {i : Instr} {s t : State} (h : Writes i s t) : Frame i s t := by
  induction h with
  | nothing => constructor <;> intros <;> rfl
  | x hd _ ih =>
    exact { ih with getX := fun r hr => by rw [getX_setX, if_neg (ne_of_not_dest hd hr), ih.getX r hr] }
  | p hd _ _ ih =>
    exact { ih with getP := fun r hr => by rw [getP_setP, if_neg (ne_of_not_dest hd hr), ih.getP r hr] }
  | t hd _ _ ih =>
    exact { ih with getT := fun r hr => by rw [getT_setT, if_neg (ne_of_not_dest hd hr), ih.getT r hr] }
  | carry hd _ _ ih => exact { ih with cf := fun hf => by simp [hd] at hf }
  | encoder hd _ _ ih => exact { ih with enc := fun hf => by simp [hd] at hf }
  | decoder hd _ _ ih => exact { ih with dec := fun hf => by simp [hd] at hf }

theorem exec_frame {i : Instr} {s t : State} (h : exec i s = .next t) : Frame i s t := by
  rcases exec_cases h with hw | ⟨e, -, rfl⟩
  · exact hw.frame
  · exact frame_raise i s e _

/-- No event writes the parameters or the rest of the port (log entries 1 and 3). -/
theorem EventResult.params_port {s t : State} (h : EventResult s t) : t.params = s.params ∧ t.port = s.port := by
  cases h with
  | command _ he => exact ⟨(exec_frame he).params, (exec_frame he).port⟩
  | ignored | reset | release | read | setX | setF0f | clearFault | illegal => exact ⟨rfl, rfl⟩

/-! The invariant, one rule an update. -/

/-- Every fault has a code from 1 to 13 (60_exceptions.md R300). -/
theorem ErrorCode.code_bounds (e : ErrorCode) : 1 ≤ e.code.toNat ∧ e.code.toNat ≤ 13 := by cases e <;> decide

theorem raised_legal (e : ErrorCode) (w : Word) : FaultRecord.Legal ⟨true, e.code, w⟩ :=
  ⟨fun hf => (by cases hf), fun _ => e.code_bounds⟩

namespace State.Inv

/-- With the reset input released nothing is said of the reset values. -/
theorem reset_of_released {s t : State} (hr : s.resetAsserted = false) (ht : t.resetAsserted = s.resetAsserted) :
    t.resetAsserted = true → t = t.applyReset := fun h => by simp [ht, hr] at h

variable {s : State}

theorem setX (h : s.Inv) (hr : s.resetAsserted = false) (d : XReg) (v : Scalar) : (s.setX d v).Inv :=
  { h with reset := reset_of_released hr rfl }

theorem setP (h : s.Inv) (hr : s.resetAsserted = false) (d : PReg) {v : WordPair} (hv : v.Valid) : (s.setP d v).Inv :=
  { h with
    pairs := fun r => by
      rw [getP_setP]
      split
      · exact hv
      · exact h.pairs r
    reset := reset_of_released hr rfl }

theorem setT (h : s.Inv) (hr : s.resetAsserted = false) (d : TReg) {v : TritArray} (hv : v.Fits s.params.maxWords) :
    (s.setT d v).Inv := by
  have hfits : ∀ r, ((s.setT d v).getT r).Fits s.params.maxWords := fun r => by
    rw [getT_setT]
    split
    · exact hv
    · exact h.fits r
  exact { h with
    arrays := fun r => (hfits r).wf
    capacity := fun r => (hfits r).wordCount_le
    reset := reset_of_released hr rfl }

theorem setCF (h : s.Inv) (hr : s.resetAsserted = false) {c : CarryTrit} (hc : c.Valid) : (s.setCF c).Inv :=
  { h with carry := hc, reset := reset_of_released hr rfl }

theorem setEnc (h : s.Inv) (hr : s.resetAsserted = false) {e : Encoder} (he : e.Good s.params.fifoDepth) :
    (s.setEnc e).Inv :=
  { h with
    encoder := he.legal
    bytes := he.bytes
    fifos := ⟨he.level, h.fifos.2⟩
    reset := reset_of_released hr rfl }

theorem setDec (h : s.Inv) (hr : s.resetAsserted = false) {d : Decoder} (hd : d.Good s.params.fifoDepth) :
    (s.setDec d).Inv :=
  { h with
    decoder := hd.legal
    symbols := hd.symbols
    fifos := ⟨h.fifos.1, hd.level⟩
    reset := reset_of_released hr rfl }

theorem setFaultRec (h : s.Inv) (hr : s.resetAsserted = false) {r : FaultRecord} (hl : r.Legal) : (s.setFaultRec r).Inv :=
  { h with record := hl, reset := reset_of_released hr rfl }

theorem setF0f (h : s.Inv) (hr : s.resetAsserted = false) (b : Bool) : (s.setF0f b).Inv :=
  { h with reset := reset_of_released hr rfl }

theorem setRdata (h : s.Inv) (hr : s.resetAsserted = false) (w : Word) : State.Inv { s with rdata := w } :=
  { h with reset := reset_of_released hr rfl }

theorem release (h : s.Inv) : State.Inv { s with resetAsserted := false } :=
  { h with reset := fun hf => by cases hf }

/-- Taking an event from the port, in reset too. -/
theorem setPort (h : s.Inv) (rest : List HostEvent) : State.Inv { s with port := rest } :=
  { h with reset := fun hr => congrArg (fun s => { s with port := rest }) (h.reset hr) }

theorem raise (h : s.Inv) (hr : s.resetAsserted = false) (e : ErrorCode) (w : Word) : (s.raise e w).Inv :=
  h.setFaultRec hr (raised_legal e w)

theorem clearFault (h : s.Inv) (hr : s.resetAsserted = false) : s.clearFault.Inv := h.setFaultRec hr (by decide)

end State.Inv

/-- The engine in reset keeps the invariants, if the parameters are legal (10_state.md R42). -/
theorem applyReset_inv {s : State} (h : s.params.legal = true) : s.applyReset.Inv where
  params := h
  pairs r := by
    rw [show s.applyReset.getP r = State.reset.getP r from rfl, getP_reset]
    exact WordPair.zero_valid
  arrays r := by
    rw [show s.applyReset.getT r = State.reset.getT r from rfl, getT_reset]
    exact TritArray.empty_wf
  capacity r := by
    rw [show s.applyReset.getT r = State.reset.getT r from rfl, getT_reset]
    exact Nat.zero_le _
  carry := by simp [State.applyReset, State.reset]
  record := ⟨fun _ => ⟨rfl, rfl⟩, fun hf => by cases hf⟩
  encoder := (Encoder.empty_good 0).legal
  bytes := (Encoder.empty_good 0).bytes
  decoder := (Decoder.empty_good 0).legal
  symbols := (Decoder.empty_good 0).symbols
  fifos := ⟨Nat.zero_le _, Nat.zero_le _⟩
  reset _ := rfl

/-- The state after reset is the engine in reset, with the reset input released. -/
theorem reset_inv : State.reset.Inv := (applyReset_inv (s := State.reset) (by decide)).release

/-- The writes of a command keep the invariants. -/
theorem Writes.inv {i : Instr} {s t : State} (hs : s.Inv) (hr : s.resetAsserted = false) (h : Writes i s t) : t.Inv := by
  induction h with
  | nothing => exact hs
  | x _ hw ih => exact ih.setX (hw.frame.resetAsserted.trans hr) _ _
  | p _ hv hw ih => exact ih.setP (hw.frame.resetAsserted.trans hr) _ (hv hs)
  | t _ hv hw ih => exact ih.setT (hw.frame.resetAsserted.trans hr) _ (hw.frame.params ▸ hv hs)
  | carry _ hc hw ih => exact ih.setCF (hw.frame.resetAsserted.trans hr) hc
  | encoder _ he hw ih => exact ih.setEnc (hw.frame.resetAsserted.trans hr) (hw.frame.params ▸ he hs)
  | decoder _ hd hw ih => exact ih.setDec (hw.frame.resetAsserted.trans hr) (hw.frame.params ▸ hd hs)

theorem exec_inv {i : Instr} {s t : State} (hs : s.Inv) (hr : s.resetAsserted = false) (h : exec i s = .next t) : t.Inv := by
  rcases exec_cases h with hw | ⟨e, -, rfl⟩
  · exact hw.inv hs hr
  · exact hs.raise hr e _

theorem EventResult.inv {s t : State} (hs : s.Inv) (h : EventResult s t) : t.Inv := by
  cases h with
  | ignored => exact hs
  | reset => exact applyReset_inv hs.params
  | release => exact hs.release
  | read w hr => exact hs.setRdata hr w
  | setX d v hr => exact hs.setX hr d v
  | setF0f b hr => exact hs.setF0f hr b
  | clearFault hr => exact hs.clearFault hr
  | illegal w hr => exact hs.raise hr .illegal w
  | command hr he => exact exec_inv hs hr he

/-- All a step can do: idle, or take the next event from the port and perform it. -/
theorem step_result (s : State) :
    (s.port = [] ∧ step s = .next s) ∨
    ∃ e rest t, s.port = e :: rest ∧ step s = .next t ∧ EventResult { s with port := rest } t := by
  cases hp : s.port with
  | nil => exact .inl ⟨rfl, step_idle hp⟩
  | cons e rest =>
    obtain ⟨t, ht, h⟩ := perform_result { s with port := rest } e
    exact .inr ⟨e, rest, t, rfl, (step_event hp).trans ht, h⟩

theorem step_inv {s t : State} (hs : s.Inv) (h : step s = .next t) : t.Inv := by
  rcases step_result s with ⟨-, hstep⟩ | ⟨e, rest, u, -, hstep, hres⟩
  · obtain rfl : s = t := Host.Outcome.next.inj (hstep.symm.trans h)
    exact hs
  · obtain rfl : u = t := Host.Outcome.next.inj (hstep.symm.trans h)
    exact hres.inv (hs.setPort rest)

end Sys2Proof.Machine
end

section
/-! The words of the control registers, field by field, and what a read or a write of each offset does (10_state.md R32 to
R38, 20_memory.md R50). -/

namespace Sys2Proof.Machine

/-- The word w holds `low` in its lowest k bits and `high` after `gap` reserved ones, and is 0 elsewhere. -/
def Layout {k h : Nat} (w : Word) (low : BitVec k) (gap : Nat) (high : BitVec h) : Prop :=
  ∀ i, w.getLsbD i = if i < k then low.getLsbD i else if i - k < gap then false else high.getLsbD (i - k - gap)

/-- A field of a word is known from the bits there. -/
theorem extractLsb'_eq_of_bits {w : Word} {start n : Nat} {v : BitVec n}
    (h : ∀ i < n, w.getLsbD (start + i) = v.getLsbD i) : w.extractLsb' start n = v :=
  BitVec.eq_of_getLsbD_eq fun i hi => by simp only [BitVec.getLsbD_extractLsb', h i hi, hi, decide_true, Bool.true_and]

section Fields

variable {k h gap : Nat} {w : Word} {low : BitVec k} {high : BitVec h}

theorem Layout.lowField (hl : Layout w low gap high) : w.extractLsb' 0 k = low :=
  extractLsb'_eq_of_bits fun i hi => by rw [hl, Nat.zero_add, if_pos hi]

theorem Layout.highField (hl : Layout w low gap high) : w.extractLsb' (k + gap) h = high :=
  extractLsb'_eq_of_bits fun i _ => by
    rw [hl, if_neg (by omega), if_neg (by omega), show k + gap + i - k - gap = i by omega]

theorem Layout.reserved (hl : Layout w low gap high) {i : Nat} (hi : (k ≤ i ∧ i < k + gap) ∨ k + gap + h ≤ i) :
    w.getLsbD i = false := by
  rw [hl, if_neg (by omega)]
  split
  · rfl
  · exact BitVec.getLsbD_of_ge _ _ (by omega)

/-- A low field of one bit. -/
theorem Layout.lowFlag {b : Bool} (hl : Layout w (BitVec.ofBool b) gap high) : w.getLsbD 0 = b := by
  rw [hl, if_pos one_pos]
  simp

/-- A high field of one bit. -/
theorem Layout.highFlag {b : Bool} (hl : Layout w low gap (BitVec.ofBool b)) : w.getLsbD (k + gap) = b := by
  rw [hl, if_neg (by omega), if_neg (by omega), show k + gap - k - gap = 0 by omega]
  simp

end Fields

theorem getLsbD_zero_append {z h : Nat} (high : BitVec h) (i : Nat) : (0#z ++ high).getLsbD i = high.getLsbD i := by
  rw [BitVec.getLsbD_append, BitVec.getLsbD_zero]
  split
  · rfl
  · exact (BitVec.getLsbD_of_ge high i (by omega)).symm

/-- Two fields with reserved bits between them. -/
theorem getLsbD_spaced {z h m k : Nat} (high : BitVec h) (low : BitVec k) (i : Nat) :
    (0#z ++ high ++ 0#m ++ low).getLsbD i =
      if i < k then low.getLsbD i else if i - k < m then false else high.getLsbD (i - k - m) := by
  rw [BitVec.getLsbD_append, BitVec.getLsbD_append, getLsbD_zero_append, BitVec.getLsbD_zero]

/-- Two fields side by side. -/
theorem getLsbD_adjacent {z h k : Nat} (high : BitVec h) (low : BitVec k) (i : Nat) :
    (0#z ++ high ++ low).getLsbD i =
      if i < k then low.getLsbD i else if i - k < 0 then false else high.getLsbD (i - k - 0) := by
  rw [BitVec.getLsbD_append, getLsbD_zero_append, if_neg (Nat.not_lt_zero _), Nat.sub_zero]

theorem statusWord_layout (s : State) : Layout s.statusWord (BitVec.ofBool s.faultRec.fault) 7 s.faultRec.ecode :=
  getLsbD_spaced _ _

theorem cfWord_layout (s : State) : Layout s.cfWord (BitVec.ofBool s.cf.p) 0 (BitVec.ofBool s.cf.n) := getLsbD_adjacent _ _

theorem encstWord_layout (s : State) : Layout s.encstWord s.enc.off 5 s.enc.acc := getLsbD_spaced _ _

theorem decstWord_layout (s : State) : Layout s.decstWord s.dec.off 6 s.dec.pend := getLsbD_spaced _ _

theorem cfgWord_layout (s : State) : Layout s.cfgWord (BitVec.ofBool s.f0f) 31 0#0 :=
  fun _ => BitVec.getLsbD_append.trans (by simp only [BitVec.getLsbD_zero, ite_self])

theorem fifolvlWord_layout (s : State) :
    Layout s.fifolvlWord (BitVec.ofNat 8 s.enc.fifo.length) 0 (BitVec.ofNat 8 s.dec.fifo.length) := getLsbD_adjacent _ _

/-- A FIFO level of at most 255 is held whole in its eight bits (10_state.md R38). -/
theorem toNat_level {n : Nat} (h : n ≤ 255) : (BitVec.ofNat 8 n).toNat = n := by
  rw [BitVec.toNat_ofNat, Nat.mod_eq_of_lt (by omega)]

/-- A read of an offset of the map returns the register there. -/
theorem hostRead_of_mapReg (s : State) {off : Nat} {r : MapReg} (h : mapRegAt off = some r) :
    s.hostRead (s.params.hostBase + off) 32 = s.readReg r := by
  rw [State.hostRead, accessReg_base, h]

theorem hostRead_layout {s : State} {off k h gap : Nat} {r : MapReg} {low : BitVec k} {high : BitVec h}
    (hm : mapRegAt off = some r) (hl : Layout (s.readReg r) low gap high) :
    Layout (s.hostRead (s.params.hostBase + off) 32) low gap high := by
  rwa [hostRead_of_mapReg s hm]

/-- A step whose event writes the register at an offset of the map. -/
theorem step_write_mapReg {s : State} {off : Nat} {r : MapReg} {data : Word} {rest : List HostEvent}
    (hm : mapRegAt off = some r) (hc : r ≠ .cmd) (hp : s.port = .write (s.params.hostBase + off) 32 data :: rest)
    (hr : s.resetAsserted = false) : step s = .next (State.writeReg { s with port := rest } r data) :=
  step_write hp hr ((accessReg_base s off).trans hm) hc

/-- The offsets of the control registers the host may not write, and of the reserved ones. -/
theorem mapRegAt_readOnly {off : Nat}
    (h : off ∈ [0x008, 0x00C, 0x010, 0x014, 0x01C] ∨ (0x020 ≤ off ∧ off ≤ 0x0FC ∧ off % 4 = 0)) :
    ∃ r ∈ [MapReg.ecmd, .cf, .encst, .decst, .fifolvl, .reserved], mapRegAt off = some r := by
  rcases h with h | ⟨hlow, hhigh, halign⟩
  · revert off
    decide
  · exact ⟨.reserved, by decide, mapRegAt_reserved hlow hhigh halign⟩

/-- A write of a read-only or reserved register is ignored. -/
theorem writeReg_readOnly (s : State) (data : Word) {r : MapReg}
    (h : r ∈ [MapReg.ecmd, .cf, .encst, .decst, .fifolvl, .reserved]) : r ≠ .cmd ∧ s.writeReg r data = s := by
  cases r with
  | ecmd | cf | encst | decst | fifolvl | reserved => exact ⟨by decide, rfl⟩
  | cmd | status | cfg | xWord => simp at h

end Sys2Proof.Machine
end

section
/-! Who reads CF and CFG.F0F: every command but WADDC, CFRD and CFWR, and DECBYTE, runs the same whatever the two hold
(10_state.md R30, R37). -/

namespace Sys2Proof.Machine

/-- Put the states of an outcome through u. -/
def mapState (u : State → State) : Outcome → Outcome
  | .next s => .next (u s)
  | .fault r => .fault r
  | .refused r => .refused r

/-- The commands that read or write CF (10_state.md R30). -/
def usesCarry : Instr → Bool
  | .waddc .. | .cfrd .. | .cfwr .. => true
  | _ => false

theorem usesCarry_eq_false {i : Instr} (hadd : ∀ w d a b, i ≠ .waddc w d a b) (hrd : ∀ d, i ≠ .cfrd d)
    (hwr : ∀ a, i ≠ .cfwr a) : usesCarry i = false := by
  cases i with
  | waddc w d a b => exact absurd rfl (hadd w d a b)
  | cfrd d => exact absurd rfl (hrd d)
  | cfwr a => exact absurd rfl (hwr a)
  | _ => rfl

theorem footprint_carry_of_usesCarry {i : Instr} (h : usesCarry i = false) : (footprint i).carry = false := by
  cases i with
  | waddc | cfwr => cases h
  | _ => rfl

/-- CF and CFG.F0F set to given values. -/
def State.overwrite (c : CarryTrit) (b : Bool) (s : State) : State := { s with cf := c, f0f := b }

theorem overwrite_f0f_self (s : State) (c : CarryTrit) : s.overwrite c s.f0f = s.setCF c := rfl

theorem overwrite_cf_self (s : State) (b : Bool) : s.overwrite s.cf b = s.setF0f b := rfl

/-- An arm that checks something: the outcome goes through u when both branches do. -/
theorem ite_mapState {u : State → State} {c : Prop} [Decidable c] {x y x' y' : Outcome} (hx : x' = mapState u x)
    (hy : y' = mapState u y) : (if c then x' else y') = mapState u (if c then x else y) := by
  split
  · exact hx
  · exact hy

theorem writeT_overwrite (s : State) (i : Instr) (d : TReg) (r : TritArray) (c : CarryTrit) (b : Bool) :
    (s.overwrite c b).writeT i d r = mapState (State.overwrite c b) (s.writeT i d r) := ite_mapState rfl rfl

theorem execBpop_overwrite (d : XReg) (s : State) (c : CarryTrit) (b : Bool) :
    execBpop d (s.overwrite c b) = mapState (State.overwrite c b) (execBpop d s) := by
  unfold execBpop
  rw [show (s.overwrite c b).enc = s.enc from rfl]
  cases s.enc.fifo <;> rfl

theorem execSpop_overwrite (d : XReg) (s : State) (c : CarryTrit) (b : Bool) :
    execSpop d (s.overwrite c b) = mapState (State.overwrite c b) (execSpop d s) := by
  unfold execSpop
  rw [show (s.overwrite c b).dec = s.dec from rfl]
  cases s.dec.fifo <;> rfl

/-- A command that neither reads nor writes CF and does not read CFG.F0F does the same under any values of the two. -/
theorem exec_overwrite {i : Instr} (hcarry : usesCarry i = false) (hdec : ∀ a, i ≠ .decbyte a) (s : State)
    (c : CarryTrit) (b : Bool) : exec i (s.overwrite c b) = mapState (State.overwrite c b) (exec i s) := by
  cases i with
  | waddc | cfrd | cfwr => cases hcarry
  | decbyte a => exact absurd rfl (hdec a)
  -- no check
  | nop | xli | wrdn | wrdp | tlen | tnw | tmov | tfromw | xmov | pmov | wneg | tneg | wadd | wsub | wmul | wshl | wshr
  | wcnt | ttrim | tisz | tcnt | tfromint | encrst | decend | decrst | bcnt | scnt => rfl
  | tadd | tsub | tmul => exact writeT_overwrite s _ _ _ c b
  -- one check
  | wpack | twrw | trdw | wget | tget | wdig | wtoint | wfromint | ttoint | encend | tmap1 | tmap2 =>
    exact ite_mapState rfl rfl
  -- two checks
  | talloc | wset | tset | encsym | enchdr | tsplice => exact ite_mapState rfl (ite_mapState rfl rfl)
  | tshl =>
    exact ite_mapState (ite_mapState rfl (writeT_overwrite s _ _ _ c b)) (writeT_overwrite s _ _ _ c b)
  | tshr =>
    exact ite_mapState (writeT_overwrite s _ _ _ c b) (ite_mapState rfl (writeT_overwrite s _ _ _ c b))
  | bpop d => exact execBpop_overwrite d s c b
  | spop d => exact execSpop_overwrite d s c b

/-- DECBYTE reads CFG.F0F but not CF. -/
theorem execDecbyte_setCF (a : XReg) (s : State) (c : CarryTrit) :
    execDecbyte a (s.setCF c) = mapState (State.setCF · c) (execDecbyte a s) := by
  refine ite_mapState rfl ?_
  rw [setCF_f0f, setCF_dec, show (s.setCF c).sx a = s.sx a from rfl]
  cases decByte s.f0f s.dec.off.toNat s.dec.pend.toNat (s.sx a).toNat with
  | error e => rfl
  | ok r => exact ite_mapState rfl rfl

/-- The three commands of the carry trit do not read CFG.F0F. -/
theorem exec_setF0f_of_usesCarry {i : Instr} (h : usesCarry i = true) (s : State) (b : Bool) :
    exec i (s.setF0f b) = mapState (State.setF0f · b) (exec i s) := by
  cases i with
  | waddc | cfrd => rfl
  | cfwr => exact ite_mapState rfl rfl
  | _ => cases h

/-- A command that does not use CF goes on to the same state whatever CF holds, but for CF. -/
theorem exec_setCF {i : Instr} {s t : State} (hcarry : usesCarry i = false) (h : exec i s = .next t) (c : CarryTrit) :
    exec i (s.setCF c) = .next (t.setCF c) := by
  by_cases hdec : ∃ a, i = .decbyte a
  · obtain ⟨a, rfl⟩ := hdec
    exact (execDecbyte_setCF a s c).trans (congrArg (mapState (State.setCF · c)) h)
  · rw [← overwrite_f0f_self, exec_overwrite hcarry (fun a ha => hdec ⟨a, ha⟩), h, mapState, ← (exec_frame h).f0f,
      overwrite_f0f_self]

/-- A command but DECBYTE goes on to the same state whatever CFG.F0F holds, but for CFG.F0F. -/
theorem exec_setF0f {i : Instr} {s t : State} (hdec : ∀ a, i ≠ .decbyte a) (h : exec i s = .next t) (b : Bool) :
    exec i (s.setF0f b) = .next (t.setF0f b) := by
  cases hcarry : usesCarry i
  · rw [← overwrite_cf_self, exec_overwrite hcarry hdec, h, mapState,
      ← (exec_frame h).cf (footprint_carry_of_usesCarry hcarry), overwrite_cf_self]
  · rw [exec_setF0f_of_usesCarry hcarry, h, mapState]

end Sys2Proof.Machine
end

section
/-! The statements of 10_state.md settled. -/

namespace Sys2Proof.Machine

/-- Settles O17: a step is idle or takes an event from the port, and every result of an event keeps the invariants. -/
theorem stepKeepsInvariant : Obligations.StepKeepsInvariant := fun _ _ hs h => step_inv hs h

/-- Settles O18: the base case of O17. -/
theorem invariantAtReset : Obligations.InvariantAtReset := reset_inv

/-- Settles O10: each register word by its layout. -/
theorem controlRegistersRead : Obligations.ControlRegistersRead := by
  intro s off rest hp hr
  refine ⟨_, step_read hp hr, rfl, ?cmd, ?status, ?ecmd, ?cf, ?encst, ?decst, ?cfg, ?fifolvl, ?reserved⟩
  case cmd =>
    rintro rfl
    exact hostRead_of_mapReg s (r := .cmd) rfl
  case status =>
    rintro rfl
    have hl := hostRead_layout (off := 0x004) (r := .status) rfl (statusWord_layout s)
    exact ⟨hl.lowFlag, hl.highField, fun i hi => hl.reserved (by omega)⟩
  case ecmd =>
    rintro rfl
    exact hostRead_of_mapReg s (r := .ecmd) rfl
  case cf =>
    rintro rfl
    have hl := hostRead_layout (off := 0x00C) (r := .cf) rfl (cfWord_layout s)
    exact ⟨hl.lowFlag, hl.highFlag, fun i hi => hl.reserved (by omega)⟩
  case encst =>
    rintro rfl
    have hl := hostRead_layout (off := 0x010) (r := .encst) rfl (encstWord_layout s)
    exact ⟨hl.lowField, hl.highField, fun i hi => hl.reserved (by omega)⟩
  case decst =>
    rintro rfl
    have hl := hostRead_layout (off := 0x014) (r := .decst) rfl (decstWord_layout s)
    exact ⟨hl.lowField, hl.highField, fun i hi => hl.reserved (by omega)⟩
  case cfg =>
    rintro rfl
    have hl := hostRead_layout (off := 0x018) (r := .cfg) rfl (cfgWord_layout s)
    exact ⟨hl.lowFlag, fun i hi => hl.reserved (by omega)⟩
  case fifolvl =>
    rintro rfl henc hdec
    have hl := hostRead_layout (off := 0x01C) (r := .fifolvl) rfl (fifolvlWord_layout s)
    exact ⟨(congrArg BitVec.toNat hl.lowField).trans (toNat_level henc),
      (congrArg BitVec.toNat hl.highField).trans (toNat_level hdec), fun i hi => hl.reserved (by omega)⟩
  case reserved =>
    intro hlow hhigh halign
    exact hostRead_of_mapReg s (mapRegAt_reserved hlow hhigh halign)

/-- Settles O12: no register of these offsets takes a write, and CFG takes bit 0. -/
theorem otherRegisterWrites : Obligations.OtherRegisterWrites := by
  refine fun s off data rest hp hr => ⟨fun hoff => ?_, ?_⟩
  · obtain ⟨r, hmem, hreg⟩ := mapRegAt_readOnly hoff
    obtain ⟨hcmd, hwrite⟩ := writeReg_readOnly { s with port := rest } data hmem
    rw [step_write_mapReg hreg hcmd hp hr, hwrite]
  · rintro rfl
    exact step_write_mapReg (r := .cfg) rfl (by decide) hp hr

/-- Settles O16: a step is idle or takes one event from the port, and no event writes the parameters or the port. -/
theorem everyStepGoesOn : Obligations.EveryStepGoesOn := by
  intro s
  rcases step_result s with ⟨hp, hstep⟩ | ⟨e, rest, t, hp, hstep, hres⟩
  · exact ⟨s, hstep, by simp [hp], rfl, fun _ => rfl⟩
  · obtain ⟨hparams, hport⟩ := hres.params_port
    exact ⟨t, hstep, by simp [hp, hport], hparams, fun hnil => by simp [hp] at hnil⟩

/-- Settles O21: the frame of the writes of a command, and of a fault. -/
theorem commandFrame : Obligations.CommandFrame := by
  intro i s t h
  obtain ⟨hx, hp, ht, hcf, henc, hdec, hf0f, hparams, hrdata, hreset, hport⟩ := exec_frame h
  exact ⟨hx, hp, ht, hcf, henc, hdec, hf0f, hparams, hrdata, hreset, hport⟩

/-- Settles O22: running a command and overwriting CF or CFG.F0F commute when the command does not use the field. -/
theorem whoReadsCarryAndPolicy : Obligations.WhoReadsCarryAndPolicy :=
  ⟨fun _ _ _ c hadd hrd hwr h => exec_setCF (usesCarry_eq_false hadd hrd hwr) h c,
    fun _ _ _ b hdec h => exec_setF0f hdec h b⟩

/-- Settles O5: with no fault recorded a write of CMD runs what the word decodes to. -/
theorem stepRunsDecodedCommand : Obligations.StepRunsDecodedCommand := by
  intro s w i rest hp hr hf hd
  rw [step_cmdWrite hp hr]
  simp [State.command, hf, hd]

/-- Settles O15: the register files by their reads, the rest by evaluation. -/
theorem resetStateValues : Obligations.ResetStateValues :=
  ⟨getX_reset, getP_reset, fun r => by rw [getT_reset]; exact ⟨rfl, rfl⟩, by decide⟩

end Sys2Proof.Machine
end

section
/-! The words of the X registers as the host writes and reads them, and the accesses that are not performed (20_memory.md
R52 to R54). -/

namespace Sys2Proof.Machine

/-- The address of word k of X_i as HOST_BASE and an offset of the map. -/
theorem xWord_address (base : Nat) (r : XReg) (k : Fin 4) :
    base + 0x100 + 0x10 * r + 4 * k = base + (0x100 + 0x10 * r + 4 * k) := by omega

/-- The word replaced reads back as what was written. -/
theorem scalarWord_setScalarWord_same (v : Scalar) (k : Fin 4) (data : Word) :
    scalarWord (setScalarWord v k data) k = data := by
  apply BitVec.eq_of_getLsbD_eq
  intro i hi
  rw [scalarWord, BitVec.getLsbD_extractLsb', setScalarWord_getLsbD v k data (by omega), if_pos (by omega)]
  simp only [hi, decide_true, Bool.true_and, Nat.add_sub_cancel_left]

/-- The bits outside the word replaced stay, those past the end of the scalar included. -/
theorem setScalarWord_getLsbD_outside (v : Scalar) (k : Fin 4) (data : Word) {i : Nat}
    (h : i < 32 * k.val ∨ 32 * k.val + 32 ≤ i) : (setScalarWord v k data).getLsbD i = v.getLsbD i := by
  by_cases hi : i < 128
  · rw [setScalarWord_getLsbD v k data hi, if_neg (by omega)]
  · rw [BitVec.getLsbD_of_ge _ i (by omega), BitVec.getLsbD_of_ge _ i (by omega)]

/-- A read that is not performed returns 0. -/
theorem hostRead_none {s : State} {addr width : Nat} (h : s.accessReg addr width = none) : s.hostRead addr width = 0 := by
  rw [State.hostRead, h]

/-- A host write of word k of X_i sets that word of the scalar. -/
theorem step_write_xWord {s : State} {r : XReg} {k : Fin 4} {data : Word} {rest : List HostEvent}
    (hp : s.port = .write (s.params.hostBase + 0x100 + 0x10 * r + 4 * k) 32 data :: rest) (hr : s.resetAsserted = false) :
    step s = .next (State.setX { s with port := rest } r (setScalarWord (s.getX r) k data)) :=
  step_write_mapReg (mapRegAt_xWord r k) nofun (xWord_address _ r k ▸ hp) hr

/-- A host read of word k of X_i returns that word of the scalar. -/
theorem step_read_xWord {s : State} {r : XReg} {k : Fin 4} {rest : List HostEvent}
    (hp : s.port = .read (s.params.hostBase + 0x100 + 0x10 * r + 4 * k) 32 :: rest) (hr : s.resetAsserted = false) :
    step s = .next { s with port := rest, rdata := scalarWord (s.getX r) k } := by
  rw [step_read hp hr, xWord_address, hostRead_of_mapReg s (mapRegAt_xWord r k), State.readReg]

end Sys2Proof.Machine
end

section
/-! The statements of 20_memory.md settled. -/

namespace Sys2Proof.Machine

/-- Settles O11: a write sets one word of one X register, whose other bits stay, and a read returns the word. -/
theorem xWordAccess : Obligations.XWordAccess := by
  refine fun s r k data rest hr => ⟨fun hp => ⟨_, step_write_xWord hp hr, rfl, fun q hq => ?other, ?word, ?bits⟩,
    fun hp => step_read_xWord hp hr⟩
  case other =>
    rw [getX_setX, if_neg hq]
    rfl
  case word =>
    rw [getX_setX, if_pos rfl]
    exact scalarWord_setScalarWord_same (s.getX r) k data
  case bits =>
    intro i hi
    rw [getX_setX, if_pos rfl]
    exact setScalarWord_getLsbD_outside (s.getX r) k data hi

/-- Settles O13: no register answers such an access. -/
theorem unperformedAccess : Obligations.UnperformedAccess := by
  intro s addr width data rest hr hbad
  have hnone : s.accessReg addr width = none := accessReg_none hbad
  refine ⟨fun hp => step_write_none hp hnone, fun hp => ?_⟩
  rw [step_read hp hr, hostRead_none hnone]

end Sys2Proof.Machine
end

section
/-! The decoder against the encoder and against the opcode map: what each form of an arm answers, and what a row's mask asks of
the fields (30_encoding.md R73 to R75, R78, R81). -/

namespace Sys2Proof

/-! The modifiers w and n of fields. -/

@[simp] theorem width_fOfW (op : BitVec 8) (d a b c : BitVec 4) (w : Width) : Fields.width ⟨op, d, a, b, c, fOfW w⟩ = w :=
  widthOfBit_fOfW w

@[simp] theorem width_fOfWN (op : BitVec 8) (d a b c : BitVec 4) (w : Width) (n : NativeWidth) :
    Fields.width ⟨op, d, a, b, c, fOfWN w n⟩ = w :=
  widthOfBit_fOfWN w n

theorem onlyW_iff {x : Fields} : x.onlyW = true ↔ x.f.extractLsb' 1 7 = 0 := beq_iff_eq

theorem onlyWN_iff {x : Fields} : x.onlyWN = true ↔ x.f.extractLsb' 3 5 = 0 := beq_iff_eq

theorem onlyN_iff {x : Fields} : x.onlyN = true ↔ x.f.extractLsb' 3 5 = 0 ∧ x.f.getLsbD 0 = false := by
  rw [Fields.onlyN, Bool.and_eq_true, onlyWN_iff, Bool.not_eq_true']

theorem fOfW_width {x : Fields} (h : x.onlyW = true) : fOfW x.width = x.f :=
  fOfW_widthOfBit x.f (onlyW_iff.1 h)

theorem fOfN_native (x : Fields) {n : NativeWidth} (h : x.onlyN = true)
    (hn : nativeOfField (x.f.extractLsb' 1 2) = some n) : fOfN n = x.f :=
  fOfN_of_native x.f (onlyN_iff.1 h).1 (onlyN_iff.1 h).2 n hn

theorem fOfWN_native {x : Fields} {n : NativeWidth} (h : x.onlyWN = true)
    (hn : nativeOfField (x.f.extractLsb' 1 2) = some n) : fOfWN x.width n = x.f :=
  fOfWN_of_native x.f (onlyWN_iff.1 h) n hn

/-- The value 3 alone names no native width (30_encoding.md R74). -/
theorem exists_nativeOfField : ∀ v : BitVec 2, (∃ n, nativeOfField v = some n) ↔ v ≠ 3 := by
  simp only [← Option.isSome_iff_exists]
  decide

/-! What the two forms of an arm of the decoder answer. -/

theorem ifLegal_eq_some {z : Bool} {i j : Instr} : ifLegal z i = some j ↔ z = true ∧ i = j := by
  cases z <;> simp [ifLegal]

theorem ifLegalN_eq_some {z : Bool} {x : Fields} {i : NativeWidth → Instr} {j : Instr} :
    ifLegalN z x i = some j ↔ z = true ∧ ∃ n, nativeOfField (x.f.extractLsb' 1 2) = some n ∧ i n = j := by
  cases z <;> simp [ifLegalN]

theorem exists_ifLegal {z : Bool} {i : Instr} : (∃ j, ifLegal z i = some j) ↔ z = true := by
  simp only [ifLegal_eq_some, exists_and_left, exists_eq', and_true]

theorem exists_ifLegalN {z : Bool} {x : Fields} {i : NativeWidth → Instr} :
    (∃ j, ifLegalN z x i = some j) ↔ z = true ∧ x.f.extractLsb' 1 2 ≠ 3 := by
  rw [← exists_nativeOfField]
  cases z <;> simp [← Option.isSome_iff_exists, ifLegalN]

theorem forall_ifLegal {z : Bool} {i : Instr} {P : Instr → Prop} :
    (∀ j, ifLegal z i = some j → P j) ↔ (z = true → P i) := by
  cases z <;> simp [ifLegal]

theorem forall_ifLegalN {z : Bool} {x : Fields} {i : NativeWidth → Instr} {P : Instr → Prop} :
    (∀ j, ifLegalN z x i = some j → P j) ↔
      (z = true → ∀ n, nativeOfField (x.f.extractLsb' 1 2) = some n → P (i n)) := by
  cases z <;> simp [ifLegalN]

/-! The decoder and the encoder undo each other on fields. -/

theorem Fields.eq_iff {x y : Fields} : x = y ↔
    x.op.toNat = y.op.toNat ∧ x.d = y.d ∧ x.a = y.a ∧ x.b = y.b ∧ x.c = y.c ∧ x.f = y.f := by
  cases x
  cases y
  simp [BitVec.toNat_inj]

/-- Every command's fields pass the checks of its own arm, and the arm reads its operands back. -/
theorem decodeFields_encodeFields (i : Instr) : decodeFields (encodeFields i) = some i := by
  cases i with
  | xli d imm => exact ifLegal_eq_some.2 ⟨rfl, congrArg _ (immOfFields_fields ⟨1, fieldOfReg d, 0, 0, 0, 0⟩ imm)⟩
  | _ => simp [-BitVec.getLsbD_eq_getElem, encodeFields, decodeFields, ifLegal_eq_some, ifLegalN_eq_some, onlyW_iff, onlyWN_iff,
      onlyN_iff]

/-- In each arm of the decoder the checks fix every field the command leaves out, and its operands give the others; the last
arm, an OP value without a row, decodes to nothing. -/
theorem encodeFields_of_decodeFields (x : Fields) : ∀ i, decodeFields x = some i → encodeFields i = x := by
  fun_cases decodeFields x
  case case57 => nofun
  all_goals
    rename_i hop
    simp only [forall_ifLegal, forall_ifLegalN, Bool.and_eq_true, beq_iff_eq]
    simp +contextual only [encodeFields, Fields.eq_iff, hop, fieldOfReg_regOfField, fields_immOfFields, fOfW_width,
      fOfN_native x, fOfWN_native, BitVec.reduceToNat, and_self, implies_true]

/-- A word decodes to a command exactly when it is the command's one word (30_encoding.md R80). -/
theorem decode_eq_some_iff {w : Word} {i : Instr} : decode w = some i ↔ encode i = w := by
  constructor
  · intro h
    rw [encode, encodeFields_of_decodeFields (splitWord w) i h, packFields_splitWord]
  · rintro rfl
    rw [encode, decode_packFields, decodeFields_encodeFields]

/-! What the mask of a row asks of the fields (30_encoding.md R75). -/

theorem packFields_and_eq_iff (x : Fields) (m k : Word) : packFields x &&& m = k ↔
    (x.op &&& (splitWord m).op).toNat = (splitWord k).op.toNat ∧ x.d &&& (splitWord m).d = (splitWord k).d ∧
    x.a &&& (splitWord m).a = (splitWord k).a ∧ x.b &&& (splitWord m).b = (splitWord k).b ∧
    x.c &&& (splitWord m).c = (splitWord k).c ∧ x.f &&& (splitWord m).f = (splitWord k).f := by
  conv_lhs => rw [← packFields_splitWord m, ← packFields_splitWord k]
  rw [packFields_and, packFields_inj, Fields.eq_iff]

theorem and_fullMask_byte (v : BitVec 8) : v &&& 0xFF#8 = v := BitVec.and_allOnes

theorem and_fullMask_reg (v : BitVec 4) : v &&& 0xF#4 = v := BitVec.and_allOnes

theorem and_mask_onlyW {x : Fields} : x.f &&& 0xFE#8 = 0#8 ↔ x.onlyW = true := by
  have hbits : ∀ f : BitVec 8, f &&& 0xFE#8 = 0#8 ↔ f.extractLsb' 1 7 = 0 := by decide
  rw [onlyW_iff, hbits]

theorem and_mask_onlyWN {x : Fields} : x.f &&& 0xF8#8 = 0#8 ↔ x.onlyWN = true := by
  have hbits : ∀ f : BitVec 8, f &&& 0xF8#8 = 0#8 ↔ f.extractLsb' 3 5 = 0 := by decide
  rw [onlyWN_iff, hbits]

theorem and_mask_onlyN {x : Fields} : x.f &&& 0xF9#8 = 0#8 ↔ x.onlyN = true := by
  have hbits : ∀ f : BitVec 8, f &&& 0xF9#8 = 0#8 ↔ f.extractLsb' 3 5 = 0 ∧ f.getLsbD 0 = false := by decide
  rw [onlyN_iff, hbits]

/-! The rows of the opcode map. -/

/-- The word matches the row with legal modifiers (30_encoding.md R75, R78). -/
def OpRow.Legal (r : OpRow) (w : Word) : Prop := w &&& r.mask = r.fixedBits ∧ ¬(r.hasN = true ∧ nField w = 3)

/-- Fields that match a row pass the checks of its arm of the decoder, row by row. -/
theorem exists_decodeFields_of_legal (x : Fields) : ∀ r ∈ opcodeMap, r.Legal (packFields x) →
    ∃ i, decodeFields x = some i := by
  simp only [opcodeMap, registerAccessRows, dualBitvectorRows, fixedWidthRows, arbitraryRows, spliceRows, codecRows,
    tableMapRows, List.cons_append, List.nil_append, List.forall_mem_cons, List.not_mem_nil,
    false_implies, implies_true, and_true]
  and_intros
  all_goals
    rintro ⟨hrow, hn⟩
    simp only [packFields_and_eq_iff, splitWord, BitVec.reduceExtractLsb', BitVec.reduceToNat, and_fullMask_byte,
      and_fullMask_reg, BitVec.and_zero, and_mask_onlyW, and_mask_onlyWN, and_mask_onlyN, true_and, and_true] at hrow
    simp only [nField_packFields, true_and, BitVec.ofNat_eq_ofNat] at hn
    simp only [decodeFields, exists_ifLegal, exists_ifLegalN, hrow, hn, Bool.and_eq_true, beq_iff_eq, ne_eq,
      BitVec.ofNat_eq_ofNat, not_false_eq_true, and_self]

/-- A row fixes the OP field of the words that match it (30_encoding.md R75). -/
theorem opField_of_and_mask {w : Word} {r : OpRow} (hr : r ∈ opcodeMap) (h : w &&& r.mask = r.fixedBits) :
    opField w = opField r.fixedBits := by
  have hmask : ∀ q ∈ opcodeMap, opField q.mask = BitVec.allOnes 8 := by decide
  calc opField w = opField w &&& opField r.mask := by rw [hmask r hr, BitVec.and_allOnes]
    _ = opField (w &&& r.mask) := BitVec.extractLsb'_and.symm
    _ = opField r.fixedBits := by rw [h]

/-- No two rows have one OP value (30_encoding.md R78). -/
theorem eq_of_opField_eq : ∀ r ∈ opcodeMap, ∀ q ∈ opcodeMap, opField r.fixedBits = opField q.fixedBits → r = q :=
  fun _ hr _ hq => List.inj_on_of_nodup_map (f := fun r : OpRow => opField r.fixedBits) (by decide) hr hq

/-- The OP values that 30_encoding.md R79 (a) lists as having no row. -/
abbrev UndefinedOp (op : BitVec 8) : Prop :=
  0x0E ≤ op ∧ op ≤ 0x0F ∨ 0x17 ≤ op ∧ op ≤ 0x1F ∨ 0x2B ≤ op ∧ op ≤ 0x2F ∨ 0x3A ≤ op ∧ op ≤ 0x3F ∨
    0x41 ≤ op ∧ op ≤ 0x4F ∨ 0x5B ≤ op ∧ op ≤ 0x5F ∨ 0x62 ≤ op

theorem not_undefinedOp_of_mem : ∀ r ∈ opcodeMap, ¬UndefinedOp (opField r.fixedBits) := by decide

/-- A well-formed word matches the row of its OP value with legal modifiers (30_encoding.md R79). -/
theorem exists_legal_of_wordWellFormed {w : Word} (h : wordWellFormed w = true) : ∃ r ∈ opcodeMap, r.Legal w := by
  rw [wordWellFormed, illegality] at h
  split at h
  next => cases h
  next r hr =>
    refine ⟨r, List.mem_of_find?_eq_some hr, ?_⟩
    split_ifs at h with hsel hn
    · cases h
    · cases h
    · simpa [OpRow.selects, OpRow.Legal] using And.intro hsel hn

open Laws.EncodesRow in
/-- The family EncodesRow put together: the word of every command is well formed. -/
theorem encode_wellFormed : ∀ i : Instr, wordWellFormed (encode i) = true
  | .nop => nop | .xli d imm => xli d imm | .wpack d a b => wpack d a b | .wrdn d a => wrdn d a | .wrdp d a => wrdp d a
  | .talloc d a => talloc d a | .twrw d a b => twrw d a b | .trdw d a b => trdw d a b | .tlen d a => tlen d a
  | .tnw d a => tnw d a | .tmov d a => tmov d a | .tfromw w d a => tfromw w d a | .xmov d a => xmov d a
  | .pmov d a => pmov d a | .wget w d a b => wget w d a b | .wset w d a b => wset w d a b | .tget d a b => tget d a b
  | .tset d a b => tset d a b | .wdig d a => wdig d a | .wneg w d a => wneg w d a | .tneg d a => tneg d a
  | .wadd w d a b => wadd w d a b | .wsub w d a b => wsub w d a b | .waddc w d a b => waddc w d a b
  | .wmul w d a b => wmul w d a b | .wshl w d a b => wshl w d a b | .wshr w d a b => wshr w d a b
  | .wtoint w n d a => wtoint w n d a | .wfromint w n d a => wfromint w n d a | .wcnt w d a => wcnt w d a | .cfrd d => cfrd d
  | .cfwr a => cfwr a | .tadd d a b => tadd d a b | .tsub d a b => tsub d a b | .tmul d a b => tmul d a b
  | .tshl d a b => tshl d a b | .tshr d a b => tshr d a b | .ttrim d a => ttrim d a | .tisz d a => tisz d a
  | .tcnt d a => tcnt d a | .ttoint n d a => ttoint n d a | .tfromint n d a => tfromint n d a
  | .tsplice d a b c => tsplice d a b c | .encsym a => encsym a | .encend => encend | .enchdr => enchdr | .encrst => encrst
  | .decbyte a => decbyte a | .decend => decend | .decrst => decrst | .bpop d => bpop d | .spop d => spop d
  | .bcnt d => bcnt d | .scnt d => scnt d | .tmap1 d a b => tmap1 d a b | .tmap2 d a b c => tmap2 d a b c

/-- The decoder takes a word exactly when a row matches it with legal modifiers (30_encoding.md R78, R81). -/
theorem exists_decode_iff {w : Word} : (∃ i, decode w = some i) ↔ ∃ r ∈ opcodeMap, r.Legal w := by
  constructor
  · rintro ⟨i, hi⟩
    rw [← decode_eq_some_iff.1 hi]
    exact exists_legal_of_wordWellFormed (encode_wellFormed i)
  · rintro ⟨r, hr, hlegal⟩
    exact exists_decodeFields_of_legal (splitWord w) r hr (by rwa [packFields_splitWord])

/-- A word is refused when the rows that have its OP value, if any, are not met (30_encoding.md R79). -/
theorem decode_eq_none {w : Word} (h : ∀ r ∈ opcodeMap, opField r.fixedBits = opField w → ¬r.Legal w) : decode w = none := by
  rw [Option.eq_none_iff_forall_ne_some]
  intro i hi
  obtain ⟨r, hr, hlegal⟩ := exists_decode_iff.1 ⟨i, hi⟩
  exact h r hr (opField_of_and_mask hr hlegal.1).symm hlegal

end Sys2Proof
end

section
/-! The statements of 30_encoding.md settled. -/

namespace Sys2Proof.Machine

/-- An illegal word written to CMD with no fault recorded raises E_ILLEGAL with the word in ECMD (30_encoding.md R79). -/
theorem step_illegal {s : State} {w : Word} {rest : List HostEvent} (hp : s.port = s.cmdWrite w :: rest)
    (hr : s.resetAsserted = false) (hf : s.faultRec.fault = false) (hd : decode w = none) :
    step s = .next { s with port := rest, faultRec := ⟨true, 1, w⟩ } := by
  rw [step_cmdWrite hp hr]
  rcases command_cases { s with port := rest } w with ⟨hfault, -⟩ | ⟨-, -, hraise⟩ | ⟨i, -, hi, -⟩
  · exact absurd hfault (Bool.eq_false_iff.1 hf)
  · exact hraise
  · cases hd.symm.trans hi

/-- Settles O1: a command's fields pass the checks of its own arm of the decoder, which reads its operands back. -/
theorem decodeEncodeAgree : Obligations.DecodeEncodeAgree := fun _ => decode_eq_some_iff.2 rfl

/-- Settles O2: the checks of an arm of the decoder leave no other fields than the command's. -/
theorem encodeDecodeAgree : Obligations.EncodeDecodeAgree := fun _ _ => decode_eq_some_iff.1

/-- Settles O3: a decoded word is a command's word, which its row admits; two rows of one word have one OP value. -/
theorem decodesExactlyLegalWords : Obligations.DecodesExactlyLegalWords := by
  refine ⟨fun w => exists_decode_iff, fun w r hr q hq hwr hwq => eq_of_opField_eq r hr q hq ?_⟩
  rw [← opField_of_and_mask hr hwr, opField_of_and_mask hq hwq]

/-- Settles O6: in each class no row admits the word, since at most one row has its OP value. -/
theorem illegalWordsFault : Obligations.IllegalWordsFault := by
  intro s w rest hp hr hf hclass
  refine step_illegal hp hr hf (decode_eq_none fun q hq hop hlegal => ?_)
  obtain ⟨hmatch, hn⟩ := hlegal
  rcases hclass with hhole | ⟨r, hrow, hrop, hzero⟩ | ⟨r, hrow, hrop, hhas, h3⟩
  · exact not_undefinedOp_of_mem q hq (hop ▸ hhole)
  · obtain rfl := eq_of_opField_eq r hrow q hq (hrop.trans hop.symm)
    exact hzero hmatch
  · obtain rfl := eq_of_opField_eq r hrow q hq (hrop.trans hop.symm)
    exact hn ⟨hhas, h3⟩

/-- Settles O4: each word is the word of the command given for it. -/
theorem sampleWordsDecode : Obligations.SampleWordsDecode := by
  unfold Obligations.SampleWordsDecode
  simp only [decode_eq_some_iff]
  decide

end Sys2Proof.Machine
end

section
/-! Commands that write one register, checks of an index, and the bits of the word pairs and the form of the arrays that the
register access commands build (40_register_access.md). -/

namespace Sys2Proof.Machine

/-! A command that writes one register gives the result that the statements speak of. -/

theorem exists_setX {i : Instr} {s : State} {d : XReg} {v : Scalar} (h : exec i s = .next (s.setX d v)) :
    ∃ t, exec i s = .next t ∧ XResult s t d v := ⟨_, h, setX_xResult s d v⟩

theorem exists_setP {i : Instr} {s : State} {d : PReg} {v : WordPair} (h : exec i s = .next (s.setP d v)) :
    ∃ t, exec i s = .next t ∧ OnlyP s t d ∧ t.getP d = v :=
  ⟨_, h, setP_onlyP s d v, by rw [getP_setP, if_pos rfl]⟩

theorem exists_setT {i : Instr} {s : State} {d : TReg} {v : TritArray} (h : exec i s = .next (s.setT d v)) :
    ∃ t, exec i s = .next t ∧ OnlyT s t d ∧ t.getT d = v :=
  ⟨_, h, setT_onlyT s d v, by rw [getT_setT, if_pos rfl]⟩

/-! The check of an index against [0, n). -/

/-- An index in range passes the check and is used as it is. -/
theorem ite_index {v : Int} {n j : Nat} (hv : v = j) (hj : j < n) (x : Outcome) (f : Nat → Outcome) :
    (if !inBounds v n then x else f v.toNat) = f j := by
  have hin : inBounds v n = true := inBounds_iff.2 (by omega)
  rw [hin, hv, Int.toNat_natCast]
  rfl

/-- A negative index, or one at or above the bound, fails the check. -/
theorem ite_index_outside {v : Int} {n : Nat} (hv : v < 0 ∨ n ≤ v) (x y : Outcome) :
    (if !inBounds v n then x else y) = x := by
  have hout : inBounds v n = false := Bool.eq_false_iff.2 fun h => by have := inBounds_iff.1 h; omega
  rw [hout]
  rfl

theorem exec_twrw {s : State} {d : TReg} {a : XReg} {b : PReg} {j : Nat} (hv : s.sx a = j)
    (hj : j < (s.getT d).wordCount) : exec (.twrw d a b) s = .next (s.setT d { s.getT d with
      words := (s.getT d).words.set j ((s.getP b).keepLow ((s.getT d).len - 64 * j)) }) :=
  ite_index hv hj _ fun k => .next (s.setT d { s.getT d with
    words := (s.getT d).words.set k ((s.getP b).keepLow ((s.getT d).len - 64 * k)) })

theorem exec_trdw {s : State} {d : PReg} {a : TReg} {b : XReg} {j : Nat} (hv : s.sx b = j)
    (hj : j < (s.getT a).wordCount) : exec (.trdw d a b) s = .next (s.setP d ((s.getT a).word j)) :=
  ite_index hv hj _ fun k => .next (s.setP d ((s.getT a).word k))

theorem exec_wget {s : State} {w : Width} {d : XReg} {a : PReg} {b : XReg} {i : Nat} (hv : s.sx b = i)
    (hi : i < w.trits) : exec (.wget w d a b) s = .next (s.setXInt d ((s.getP a).trit i)) :=
  ite_index hv hi _ fun k => .next (s.setXInt d ((s.getP a).trit k))

theorem exec_tget {s : State} {d : XReg} {a : TReg} {b : XReg} {i : Nat} (hv : s.sx b = i)
    (hi : i < (s.getT a).len) : exec (.tget d a b) s = .next (s.setXInt d ((s.getT a).trit i)) :=
  ite_index hv hi _ fun k => .next (s.setXInt d ((s.getT a).trit k))

/-! Bits and values of word pairs. -/

/-- A raw vector operand is the low half of its register. -/
theorem getLsbD_lowHalf (s : State) (r : XReg) {i : Nat} (hi : i < 64) :
    (s.lowHalf r).getLsbD i = (s.getX r).getLsbD i := by
  simp [-BitVec.getLsbD_eq_getElem, State.lowHalf, hi]

/-- Two raw vectors make a valid pair when no position of the low 64 is set in both. -/
theorem lowHalves_valid_iff (s : State) (a b : XReg) : WordPair.Valid ⟨s.lowHalf a, s.lowHalf b⟩ ↔
    ∀ i < 64, ¬((s.getX a).getLsbD i = true ∧ (s.getX b).getLsbD i = true) := by
  rw [WordPair.valid_iff]
  exact forall₂_congr fun i hi => by rw [getLsbD_lowHalf s a hi, getLsbD_lowHalf s b hi]

theorem WordPair.keepLow_bits (a : WordPair) (k : Nat) {i : Nat} (hi : i < 64) :
    (a.keepLow k).neg.getLsbD i = (decide (i < k) && a.neg.getLsbD i) ∧
      (a.keepLow k).pos.getLsbD i = (decide (i < k) && a.pos.getLsbD i) := by
  simp only [WordPair.keepLow, BitVec.getLsbD_and, getLsbD_lowMask, lt_min_iff, hi, and_true, Bool.and_comm]

/-- The trits that were cleared add nothing to the value. -/
theorem WordPair.keepLow_val_of_le (a : WordPair) {k m : Nat} (h : k ≤ m) : (a.keepLow k).val m = a.val k := by
  rw [← a.keepLow_val k]
  exact tritSum_extend h fun i hi _ => by rw [WordPair.keepLow_trit, if_neg (by omega)]

/-! Arrays of one word, and the words that a length takes. -/

theorem singleWord_tval (len : Nat) (w : WordPair) : TritArray.tval ⟨len, [w]⟩ = w.val 64 := by
  simp [TritArray.tval, wordsVal]

theorem singleWord_trit (len : Nat) (w : WordPair) {i : Nat} (hi : i < 64) : TritArray.trit ⟨len, [w]⟩ i = w.trit i := by
  rw [trit_cons, if_pos hi]

theorem wordsFor_le_iff {len n : Nat} : wordsFor len ≤ n ↔ len ≤ 64 * n := by
  rw [wordsFor]
  omega

end Sys2Proof.Machine
end

section
/-! The statements of 40_register_access.md settled. -/

namespace Sys2Proof.Machine

/-- Settles O24: the check of WPACK is the validity of the pair it builds. -/
theorem wpackPacks : Obligations.WpackPacks := by
  refine fun s d a b => ⟨fun hdisjoint => ?packs, fun hboth => ?invalid⟩
  case packs =>
    have hvalid := (lowHalves_valid_iff s a b).2 hdisjoint
    obtain ⟨t, hexec, honly, hpair⟩ := exists_setP (i := .wpack d a b) (if_neg (not_not_intro hvalid))
    refine ⟨t, hexec, honly, hpair ▸ hvalid, fun i hi => ?_⟩
    rw [hpair]
    exact ⟨getLsbD_lowHalf s a hi, getLsbD_lowHalf s b hi⟩
  case invalid =>
    obtain ⟨i, hi, hset⟩ := hboth
    exact faults_iff.2 (if_pos fun hvalid => (lowHalves_valid_iff s a b).1 hvalid i hi hset)

/-- Settles O25: ceil(L / 64) words are within the capacity exactly when L is at most 64 * MAX_WORDS. -/
theorem tallocAllocates : Obligations.TallocAllocates := by
  refine fun s d a => ⟨fun hnonneg hfits => ?allocates, fun hneg => ?argRange, fun hbig => ?capacity⟩
  case allocates =>
    have hwords : ¬s.params.maxWords < wordsFor (s.sx a).toNat := by rw [not_lt, wordsFor_le_iff]; omega
    obtain ⟨t, hexec, honly, harray⟩ :=
      exists_setT (i := .talloc d a) ((if_neg (not_lt.2 hnonneg)).trans (if_neg hwords))
    refine ⟨t, hexec, honly, ?_⟩
    rw [harray]
    exact ⟨Int.toNat_of_nonneg hnonneg, zeroArray_wf _, List.length_replicate .., fun w => List.eq_of_mem_replicate⟩
  case argRange => exact faults_iff.2 (if_pos hneg)
  case capacity =>
    have hwords : s.params.maxWords < wordsFor (s.sx a).toNat := by rw [← not_le, wordsFor_le_iff]; omega
    exact faults_iff.2 ((if_neg (by omega)).trans (if_pos hwords))

/-- Settles O26: word j is replaced by the operand cut to its L - 64 j valid positions. -/
theorem twrwWritesUnderMask : Obligations.TwrwWritesUnderMask := by
  refine fun s d a b => ⟨fun j hv hj => ?writes, fun hout => faults_iff.2 (ite_index_outside hout _ _)⟩
  obtain ⟨t, hexec, honly, harray⟩ := exists_setT (exec_twrw (b := b) hv hj)
  refine ⟨t, hexec, honly, ?_⟩
  rw [harray]
  refine ⟨rfl, List.length_set .., fun k hk => ?other, fun i hi => ?word⟩
  case other => rw [TritArray.word_set hj, if_neg hk]
  case word =>
    have hmask : decide (64 * j + i < (s.getT d).len) = decide (i < (s.getT d).len - 64 * j) :=
      decide_eq_decide.2 (by omega)
    rw [TritArray.word_set hj, if_pos rfl, hmask]
    exact WordPair.keepLow_bits _ _ hi

/-- Settles O27: each read is checked against its own bound, n, W or L. -/
theorem indexedReads : Obligations.IndexedReads := by
  refine ⟨fun s d a b => ⟨fun j hv hj => ?trdw, fun hout => faults_iff.2 (ite_index_outside hout _ _)⟩,
    fun s w d a b => ⟨fun i hv hi => exists_setX (exec_wget hv hi), fun hout => faults_iff.2 (ite_index_outside hout _ _)⟩,
    fun s d a b => ⟨fun i hv hi => exists_setX (exec_tget hv hi), fun hout => faults_iff.2 (ite_index_outside hout _ _)⟩⟩
  obtain ⟨t, hexec, honly, hpair⟩ := exists_setP (exec_trdw (d := d) hv hj)
  refine ⟨t, hexec, honly, ?_⟩
  rw [hpair, TritArray.word_of_lt hj]
  exact List.getElem?_eq_getElem hj

/-- Settles O28: the one word is the W-trit view, which has the trits below W and no other. -/
theorem tfromwKeepsWidth : Obligations.TfromwKeepsWidth := by
  intro s w d a
  obtain ⟨t, hexec, honly, harray⟩ := exists_setT (i := .tfromw w d a) rfl
  refine ⟨t, hexec, honly, ?_⟩
  rw [harray]
  refine ⟨rfl, rfl, ?value, fun i hi => ?trit, singleWord_wf w⟩
  case value => rw [singleWord_tval, State.view, WordPair.keepLow_val_of_le _ w.trits_le, State.pval]
  case trit => rw [singleWord_trit _ _ (hi.trans_le w.trits_le), State.view, WordPair.keepLow_trit, if_pos hi]

/-- Settles O23: each command but NOP writes one register, with no check. -/
theorem registerMoves : Obligations.RegisterMoves := by
  refine fun s => ⟨rfl, fun d imm => ?xli, fun d a => ?wrdn, fun d a => ?wrdp, fun d a => ?xmov, fun d a => ?pmov,
    fun d a => ?tmov, fun d a => ?tlen, fun d a => ?tnw⟩
  case xli | xmov => exact exists_setX rfl
  case pmov => exact exists_setP rfl
  case tmov => exact exists_setT rfl
  case wrdn | wrdp =>
    rw [BitVec.ofNat_toNat]
    exact exists_setX rfl
  case tlen | tnw =>
    rw [← scalarOfInt_natCast]
    exact exists_setX rfl

end Sys2Proof.Machine
end

section
/-! The check of a trit operand, and what the writes of one trit, the six-trit pattern of an integer and the exchange of the
two vectors do to trits, values and the form of an array (41_dual_bitvector.md). -/

namespace Sys2Proof.Machine

/-! The checks of the writes of one trit: the index, then the value. -/

theorem ite_isTrit {v : Int} (hlow : -1 ≤ v) (hhigh : v ≤ 1) (x y : Outcome) : (if !isTrit v then x else y) = y := by
  rw [isTrit_iff.2 ⟨hlow, hhigh⟩]
  rfl

theorem ite_isTrit_outside {v : Int} (hv : v < -1 ∨ 1 < v) (x y : Outcome) : (if !isTrit v then x else y) = x := by
  have hout : isTrit v = false := Bool.eq_false_iff.2 fun h => by have := isTrit_iff.1 h; omega
  rw [hout]
  rfl

/-- With its index in range, WSET still checks the trit (41_dual_bitvector.md R131). -/
theorem exec_wset {s : State} {w : Width} {d : PReg} {a b : XReg} {i : Nat} (hv : s.sx a = i) (hi : i < w.trits) :
    exec (.wset w d a b) s = if !isTrit (s.sx b) then s.fail (.wset w d a b) .domain
      else .next (s.setP d ((s.view w d).setTrit i (s.sx b))) :=
  ite_index hv hi _ fun k => if !isTrit (s.sx b) then s.fail (.wset w d a b) .domain
    else .next (s.setP d ((s.view w d).setTrit k (s.sx b)))

/-- The array with trit i written, n and L kept (41_dual_bitvector.md R133). -/
def TritArray.setTrit (a : TritArray) (i : Nat) (v : Int) : TritArray :=
  { a with words := a.words.set (i / 64) ((a.word (i / 64)).setTrit (i % 64) v) }

/-- With its index in range, TSET still checks the trit (41_dual_bitvector.md R133). -/
theorem exec_tset {s : State} {d : TReg} {a b : XReg} {i : Nat} (hv : s.sx a = i) (hi : i < (s.getT d).len) :
    exec (.tset d a b) s = if !isTrit (s.sx b) then s.fail (.tset d a b) .domain
      else .next (s.setT d ((s.getT d).setTrit i (s.sx b))) :=
  ite_index hv hi _ fun k => if !isTrit (s.sx b) then s.fail (.tset d a b) .domain
    else .next (s.setT d ((s.getT d).setTrit k (s.sx b)))

/-! Writing one trit of an array. -/

/-- Changing the digit at position i changes the sum by the weight of that position. -/
theorem tritSum_update {f g : Nat → Int} {i m : Nat} {v : Int} (hi : i < m)
    (h : ∀ k, f k = if k = i then v else g k) : tritSum f m = tritSum g m + (v - g i) * pow3 i := by
  induction m with
  | zero => omega
  | succ n ih =>
    rw [tritSum_succ, tritSum_succ]
    rcases Nat.lt_succ_iff_lt_or_eq.1 hi with hlt | rfl
    · rw [ih hlt, h n, if_neg (by omega)]
      ring
    · rw [tritSum_congr fun k hk => (h k).trans (if_neg (by omega)), h i, if_pos rfl]
      ring

/-- In a well-formed array the word of every position below L is there. -/
theorem TritArray.Wf.wordIndex_lt {a : TritArray} (h : a.Wf) {i : Nat} (hi : i < a.len) : i / 64 < a.wordCount := by
  have := wordsFor_le_iff.1 h.wordsFor_le
  omega

section SetTrit
variable {a : TritArray} {i : Nat} {v : Int}

theorem TritArray.setTrit_wordCount (a : TritArray) (i : Nat) (v : Int) : (a.setTrit i v).wordCount = a.wordCount :=
  List.length_set ..

theorem TritArray.setTrit_trit (hj : i / 64 < a.wordCount) (hlow : -1 ≤ v) (hhigh : v ≤ 1) (k : Nat) :
    (a.setTrit i v).trit k = if k = i then v else a.trit k := by
  rw [TritArray.trit, TritArray.setTrit, TritArray.word_set hj]
  by_cases hword : k / 64 = i / 64
  · have hpos : k % 64 = i % 64 ↔ k = i := by omega
    rw [if_pos hword, WordPair.setTrit_trit _ (Nat.mod_lt _ (by norm_num)) (by omega), TritArray.trit, hword]
    simp only [hpos]
  · rw [if_neg hword, if_neg (by rintro rfl; exact hword rfl), TritArray.trit]

theorem TritArray.setTrit_tval (hj : i / 64 < a.wordCount) (hlow : -1 ≤ v) (hhigh : v ≤ 1) :
    (a.setTrit i v).tval = a.tval + (v - a.trit i) * pow3 i := by
  rw [TritArray.tval_eq, TritArray.tval_eq, TritArray.setTrit_wordCount]
  exact tritSum_update (by omega) (TritArray.setTrit_trit hj hlow hhigh)

theorem TritArray.Wf.setTrit (h : a.Wf) (hi : i < a.len) (v : Int) : (a.setTrit i v).Wf :=
  (TritArray.Fits.setTrit ⟨h, le_rfl⟩ hi v).wf

end SetTrit

/-! The pattern of an integer at a wider view. -/

/-- The positions above the k that bt_k(v) uses add nothing to its value. -/
theorem balancedPair_val_of_le {k m : Nat} (hk : k ≤ 64) (h : k ≤ m) (v : Int) :
    (balancedPair k v).val m = balancedResidue k v := by
  rw [← balancedPair_val hk]
  exact tritSum_extend h fun i hi _ => balancedPair_trit_of_ge v hi

theorem balancedPair_zeroFrom (k : Nat) (v : Int) : (balancedPair k v).ZeroFrom k :=
  WordPair.zeroFrom_of_valid (balancedPair_valid k v) fun _ => balancedPair_trit_of_ge v

/-! Negation. -/

theorem WordPair.swap_zeroFrom {a : WordPair} {k : Nat} (h : a.ZeroFrom k) : a.swap.ZeroFrom k :=
  fun i hi hk => (h i hi hk).symm

/-- The array with every word negated, n and L kept (41_dual_bitvector.md R136). -/
def TritArray.neg (a : TritArray) : TritArray := { a with words := a.words.map WordPair.swap }

theorem TritArray.neg_wordCount (a : TritArray) : a.neg.wordCount = a.wordCount := List.length_map ..

theorem TritArray.neg_word (a : TritArray) (j : Nat) : a.neg.word j = (a.word j).swap :=
  List.getD_map a.words WordPair.zero WordPair.swap

theorem TritArray.neg_trit (a : TritArray) (i : Nat) : a.neg.trit i = -a.trit i := by
  rw [TritArray.trit, TritArray.neg_word, WordPair.swap_trit, TritArray.trit]

theorem TritArray.neg_tval (a : TritArray) : a.neg.tval = -a.tval := by
  rw [TritArray.tval_eq, TritArray.tval_eq, TritArray.neg_wordCount, ← tritSum_neg]
  exact tritSum_congr fun i _ => a.neg_trit i

/-- The canonical form asks of the top word only the union of its two vectors, which negation keeps. -/
theorem TritArray.Canonical.neg {a : TritArray} (h : a.Canonical) : a.neg.Canonical := by
  obtain ⟨hlen, htop⟩ := h
  refine ⟨hlen.trans ?_, ?_⟩
  · simp only [lengthOfWords, TritArray.neg, List.getLast?_map, List.length_map]
    cases a.words.getLast? with
    | none => rfl
    | some top => simp only [Option.map_some, WordPair.swap, BitVec.or_comm]
  · simpa only [TritArray.neg, List.getLast?_map, Option.all_map, Function.comp_def, WordPair.swap, BitVec.or_comm]
      using htop

end Sys2Proof.Machine
end

section
/-! The statements of 41_dual_bitvector.md settled. -/

namespace Sys2Proof.Machine

/-- Settles O29: past the check of the index, each command checks the trit and writes it. -/
theorem tritWrites : Obligations.TritWrites := by
  refine ⟨fun s w d a b => ⟨fun i hv hi hlow hhigh => ?wset, fun hout => faults_iff.2 (ite_index_outside hout _ _),
      fun hnonneg hlt hout => ?wsetDomain⟩,
    fun s d a b => ⟨fun i hwf hv hi hlow hhigh => ?tset, fun hout => faults_iff.2 (ite_index_outside hout _ _),
      fun hnonneg hlt hout => ?tsetDomain⟩⟩
  case wset =>
    obtain ⟨t, hexec, honly, hpair⟩ := exists_setP (d := d) ((exec_wset hv hi).trans (ite_isTrit hlow hhigh _ _))
    refine ⟨t, hexec, honly, ?_⟩
    rw [hpair]
    refine ⟨fun k _ => ?trits, WordPair.setTrit_zeroFrom (WordPair.keepLow_zeroFrom _ _) hi _,
      fun hvalid => WordPair.setTrit_valid (WordPair.keepLow_valid hvalid _) _ _⟩
    rw [WordPair.setTrit_trit _ (hi.trans_le w.trits_le) (by omega), State.view, WordPair.keepLow_trit]
  case wsetDomain =>
    obtain ⟨i, hv⟩ := Int.eq_ofNat_of_zero_le hnonneg
    exact faults_iff.2 ((exec_wset hv (by omega)).trans (ite_isTrit_outside hout _ _))
  case tset =>
    obtain ⟨t, hexec, honly, harray⟩ := exists_setT (d := d) ((exec_tset hv hi).trans (ite_isTrit hlow hhigh _ _))
    have hj := hwf.wordIndex_lt hi
    refine ⟨t, hexec, honly, ?_⟩
    rw [harray]
    exact ⟨rfl, TritArray.setTrit_wordCount _ _ _, TritArray.setTrit_trit hj hlow hhigh, hwf.setTrit hi _,
      TritArray.setTrit_tval hj hlow hhigh⟩
  case tsetDomain =>
    obtain ⟨i, hv⟩ := Int.eq_ofNat_of_zero_le hnonneg
    exact faults_iff.2 ((exec_tset hv (by omega)).trans (ite_isTrit_outside hout _ _))

/-- Settles O30: H_6 is 364, so a value in [-364, 364] is its own balanced residue and bt_6 has that value at every width. -/
theorem wdigMakesDigits : Obligations.WdigMakesDigits := by
  refine fun s d a => ⟨fun hlow hhigh => ?digits, fun hout => faults_iff.2 (if_pos hout)⟩
  obtain ⟨t, hexec, honly, hpair⟩ := exists_setP (i := .wdig d a) (if_neg (not_or.2 ⟨not_lt.2 hlow, not_lt.2 hhigh⟩))
  have hresidue : balancedResidue 6 (s.sx a) = s.sx a := balancedResidue_of_bounds (k := 6) ⟨hlow, hhigh⟩
  have hval {m : Nat} (hm : 6 ≤ m) : (t.getP d).val m = s.sx a := by
    rw [hpair, balancedPair_val_of_le (by decide) hm, hresidue]
  exact ⟨t, hexec, honly, hpair ▸ balancedPair_valid _ _, hpair ▸ balancedPair_zeroFrom _ _, hval le_rfl,
    hval (by decide), hval (by decide)⟩

/-- Settles O31: exchanging the two vectors negates every trit, and so every value. -/
theorem negationIsExact : Obligations.NegationIsExact := by
  refine ⟨fun s w d a => ?wneg, fun s d a => ?tneg⟩
  case wneg =>
    obtain ⟨t, hexec, honly, hpair⟩ := exists_setP (i := .wneg w d a) rfl
    refine ⟨t, hexec, honly, ?_⟩
    rw [State.pval, hpair]
    refine ⟨?value, WordPair.swap_zeroFrom (WordPair.keepLow_zeroFrom _ _),
      fun hvalid => WordPair.swap_valid (WordPair.keepLow_valid hvalid _)⟩
    rw [WordPair.swap_val, State.view, WordPair.keepLow_val, State.pval]
  case tneg =>
    obtain ⟨t, hexec, honly, harray⟩ := exists_setT (i := .tneg d a) (v := (s.getT a).neg) rfl
    refine ⟨t, hexec, honly, ?_⟩
    rw [harray]
    exact ⟨TritArray.neg_tval _, rfl, TritArray.neg_wordCount _, TritArray.neg_trit _, TritArray.Canonical.neg⟩

end Sys2Proof.Machine
end

section
/-! Balanced residues as residue classes, the checks of conversions, and what the fixed-width commands do to the value, the
trits and the bits of a word pair (42_fixed_width.md). -/

namespace Sys2Proof.Machine

/-! Balanced residues modulo 3^k (00_scope.md R8). -/

/-- A value and its balanced residue are congruent modulo 3^k. -/
theorem balancedResidue_modEq (k : Nat) (v : Int) : balancedResidue k v ≡ v [ZMOD pow3 k] := by
  obtain ⟨q, hq⟩ := balancedResidue_eq_sub k v
  exact Int.modEq_iff_dvd.2 ⟨q, by linarith⟩

/-- Congruent values have the same balanced residue. -/
theorem balancedResidue_congr {k : Nat} {u v : Int} (h : u ≡ v [ZMOD pow3 k]) :
    balancedResidue k u = balancedResidue k v :=
  congrArg (· - tritMax k) (h.add_right (tritMax k))

/-! The checks of the conversions and of CFWR, and the command that writes CF beside a word pair. -/

/-- A check that holds lets the command go on. -/
theorem ite_check {b : Bool} (h : b = true) (x y : Outcome) : (if !b then x else y) = y := by
  rw [h]
  rfl

theorem ite_check_fails {b : Bool} (h : ¬b = true) (x y : Outcome) : (if !b then x else y) = x := by
  rw [Bool.eq_false_iff.2 h]
  rfl

/-- Writing P[d] and CF leaves everything else as it was. -/
theorem setP_setCF_onlyPCF (s : State) (d : PReg) (v : WordPair) (c : CarryTrit) : OnlyPCF s ((s.setP d v).setCF c) d :=
  ⟨rfl, fun r h => by rw [getP_setCF, getP_setP, if_neg h]⟩

/-! Addition, subtraction and multiplication: each writes the low trits of the exact result (42_fixed_width.md R151). -/

section LowTrits
variable {k : Nat} (hk : k ≤ 64)
include hk

/-- Congruent values have the same low k trits. -/
theorem balancedPair_congr {u v : Int} (h : u ≡ v [ZMOD pow3 k]) : balancedPair k u = balancedPair k v :=
  eq_balancedPair hk (balancedPair_valid k u) (fun _ => balancedPair_trit_of_ge u)
    ((balancedPair_val hk u).trans (balancedResidue_congr h))

theorem addWithCarry_eq (a b : WordPair) {cin : Int} (hc : -1 ≤ cin ∧ cin ≤ 1) :
    (addWithCarry k a b cin).1 = balancedPair k (a.val k + b.val k + cin) := by
  obtain ⟨hvalid, hhigh, -, -⟩ := addWithCarry_spec hk a b hc
  exact eq_balancedPair hk hvalid hhigh (addWithCarry_val hk a b hc)

theorem addWithCarry_zero (a b : WordPair) : (addWithCarry k a b 0).1 = balancedPair k (a.val k + b.val k) := by
  rw [addWithCarry_eq hk a b (by decide), add_zero]

/-- Adding the pair with its vectors swapped subtracts (42_fixed_width.md R155). -/
theorem addWithCarry_swap (a b : WordPair) : (addWithCarry k a b.swap 0).1 = balancedPair k (a.val k - b.val k) := by
  rw [addWithCarry_zero hk, WordPair.swap_val, sub_eq_add_neg]

theorem mulWrapped_eq (a b : WordPair) : mulWrapped k a b = balancedPair k (a.val k * b.val k) :=
  balancedPair_congr hk (balancedResidue_modEq k _)

end LowTrits

theorem pval_setP (s : State) (w : Width) (r : PReg) (v : WordPair) (q : PReg) :
    (s.setP r v).pval w q = if q = r then v.val w.trits else s.pval w q := by
  rw [State.pval, getP_setP, apply_ite (WordPair.val · w.trits)]
  rfl

section Commands
variable (s : State) (w : Width) (d a b : PReg)

theorem exec_wadd : exec (.wadd w d a b) s = .next (s.setP d (balancedPair w.trits (s.pval w a + s.pval w b))) :=
  congrArg (Host.Outcome.next <| s.setP d ·) (addWithCarry_zero w.trits_le (s.getP a) (s.getP b))

/-- WSUB reads the W-trit view of the subtrahend, which has the subtrahend's value. -/
theorem exec_wsub : exec (.wsub w d a b) s = .next (s.setP d (balancedPair w.trits (s.pval w a - s.pval w b))) := by
  have hpair := addWithCarry_swap w.trits_le (s.getP a) (s.view w b)
  rw [State.view, WordPair.keepLow_val] at hpair
  exact congrArg (Host.Outcome.next <| s.setP d ·) hpair

theorem exec_wmul : exec (.wmul w d a b) s = .next (s.setP d (balancedPair w.trits (s.pval w a * s.pval w b))) :=
  congrArg (Host.Outcome.next <| s.setP d ·) (mulWrapped_eq w.trits_le (s.getP a) (s.getP b))

/-- WADDC, all of it: the low trits of the sum with the carry in, and a carry out that makes it exact
(42_fixed_width.md R152, R156). -/
theorem exec_waddc : ∃ t, exec (.waddc w d a b) s = .next t ∧ OnlyPCF s t d ∧
    t.getP d = balancedPair w.trits (s.pval w a + s.pval w b + s.cf.value) ∧ t.cf.Valid ∧
    t.pval w d + t.cf.value * pow3 w.trits = s.pval w a + s.pval w b + s.cf.value := by
  obtain ⟨-, -, hcarry, hsum⟩ := addWithCarry_spec w.trits_le (s.getP a) (s.getP b) s.cf.value_bounds
  have hpair (v : WordPair) (c : CarryTrit) : ((s.setP d v).setCF c).getP d = v := by
    rw [getP_setCF, getP_setP, if_pos rfl]
  refine ⟨_, rfl, setP_setCF_onlyPCF s d _ _,
    (hpair _ _).trans (addWithCarry_eq w.trits_le _ _ s.cf.value_bounds), carryOf_valid _, ?_⟩
  rw [State.pval, hpair, setCF_cf, carryOf_value hcarry]
  exact hsum

end Commands

/-- A command that writes the low W trits of v: they are valid, in the low W positions, and have the wrapped value. -/
theorem exists_setP_balancedPair {i : Instr} {s : State} {d : PReg} {w : Width} {v : Int}
    (h : exec i s = .next (s.setP d (balancedPair w.trits v))) :
    ∃ t, exec i s = .next t ∧ OnlyP s t d ∧ (t.getP d).Valid ∧ (t.getP d).ZeroFrom w.trits ∧
      t.pval w d = balancedResidue w.trits v := by
  obtain ⟨t, hexec, honly, hpair⟩ := exists_setP h
  refine ⟨t, hexec, honly, hpair ▸ balancedPair_valid _ v, hpair ▸ balancedPair_zeroFrom _ v, ?_⟩
  rw [State.pval, hpair, balancedPair_val w.trits_le]

/-! Shifts by a signed amount. -/

theorem WordPair.shiftUp_zeroFrom (a : WordPair) (w k : Nat) : (a.shiftUp w k).ZeroFrom w := by
  rw [WordPair.shiftUp]
  split
  · exact WordPair.zero_zeroFrom w
  · exact WordPair.keepLow_zeroFrom ⟨(a.neg &&& lowMask w) <<< k, (a.pos &&& lowMask w) <<< k⟩ w

theorem WordPair.shiftDown_zeroFrom (a : WordPair) (w k : Nat) : (a.shiftDown w k).ZeroFrom w := by
  rw [WordPair.shiftDown]
  split
  · exact WordPair.zero_zeroFrom w
  · intro i _ hw
    have hout : ¬k + i < w := by omega
    simp only [BitVec.getLsbD_ushiftRight, BitVec.getLsbD_and, getLsbD_lowMask, lt_min_iff, hout, false_and, decide_false,
      Bool.and_false, and_self]

theorem WordPair.shl_zeroFrom (a : WordPair) (w : Nat) (k : Int) : (a.shl w k).ZeroFrom w := by
  rw [WordPair.shl]
  split
  · exact a.shiftDown_zeroFrom w _
  · exact a.shiftUp_zeroFrom w _

/-- A left shift by a signed amount, trit by trit (42_fixed_width.md R161). -/
theorem WordPair.shl_trit (a : WordPair) {w : Nat} (hw : w ≤ 64) (k : Int) {i : Nat} (hi : i < w) :
    (a.shl w k).trit i = if 0 ≤ (i : Int) - k ∧ (i : Int) - k < w then a.trit ((i : Int) - k).toNat else 0 := by
  rw [WordPair.shl]
  split
  case isTrue hneg =>
    have hcond : i + (-k).toNat < w ↔ 0 ≤ (i : Int) - k ∧ (i : Int) - k < w := by omega
    rw [a.shiftDown_trit hw, show ((i : Int) - k).toNat = i + (-k).toNat by omega]
    simp only [hcond]
  case isFalse hnonneg =>
    have hcond : k.toNat ≤ i ∧ i < w ↔ 0 ≤ (i : Int) - k ∧ (i : Int) - k < w := by omega
    rw [a.shiftUp_trit hw, show ((i : Int) - k).toNat = i - k.toNat by omega]
    simp only [hcond]

/-- A right shift by k is a left shift by -k; by 0 both copy the view (42_fixed_width.md R161). -/
theorem WordPair.shr_eq_shl_neg (a : WordPair) (w : Nat) (k : Int) : a.shr w k = a.shl w (-k) := by
  rcases lt_trichotomy k 0 with hneg | rfl | hpos
  · rw [WordPair.shr, WordPair.shl, if_pos hneg, if_neg (by omega)]
  · simp [WordPair.shr, WordPair.shl, WordPair.shiftUp, WordPair.shiftDown, BitVec.and_assoc]
  · rw [WordPair.shr, WordPair.shl, if_neg (by omega), if_pos (by omega), neg_neg]

/-! Counting nonzero trits. -/

/-- Positions above k where p does not hold do not count. -/
theorem countP_range_extend {p : Nat → Bool} {k m : Nat} (h : k ≤ m) (hp : ∀ i, k ≤ i → p i = false) :
    (List.range m).countP p = (List.range k).countP p := by
  obtain ⟨d, rfl⟩ := Nat.exists_eq_add_of_le h
  rw [List.range_add, List.countP_append, List.countP_map, Nat.add_eq_left, List.countP_eq_zero]
  intro i _
  simp [hp (k + i) (Nat.le_add_right k i)]

/-- The population count of the W-trit view is the count of its nonzero trits (42_fixed_width.md R168). -/
theorem popcount_keepLow {a : WordPair} (h : a.Valid) {k : Nat} (hk : k ≤ 64) :
    popcount ((a.keepLow k).neg ||| (a.keepLow k).pos) = (List.range k).countP fun i => decide (a.trit i ≠ 0) := by
  rw [popcount_or (WordPair.keepLow_valid h k), countP_range_extend hk fun i hi => by
    simp [WordPair.keepLow_trit, not_lt.2 hi]]
  exact List.countP_congr fun i hi => by rw [WordPair.keepLow_trit, if_pos (List.mem_range.1 hi)]

/-- The counts of the words add up to the count of all positions (43_arbitrary_precision.md R202). -/
theorem nonzeroTrits_eq_countP (len : Nat) (ws : List WordPair) (h : TritArray.Valid ⟨len, ws⟩) :
    TritArray.nonzeroTrits ⟨len, ws⟩ =
      (List.range (64 * ws.length)).countP fun i => decide (TritArray.trit ⟨len, ws⟩ i ≠ 0) := by
  induction ws with
  | nil => rfl
  | cons w ws ih =>
    have hhead := popcount_or (h w List.mem_cons_self)
    have htail := ih fun v hv => h v (List.mem_cons_of_mem w hv)
    simp only [TritArray.nonzeroTrits] at htail
    rw [TritArray.nonzeroTrits, List.map_cons, List.sum_cons, hhead, htail, List.length_cons, Nat.mul_succ,
      Nat.add_comm _ 64, List.range_add, List.countP_append, List.countP_map]
    refine congrArg₂ (· + ·) ?_ ?_
    · exact List.countP_congr fun i hi => by rw [trit_cons, if_pos (List.mem_range.1 hi)]
    · refine List.countP_congr fun i _ => ?_
      rw [Function.comp_apply, trit_cons, if_neg (by omega), Nat.add_sub_cancel_left]

/-- In a well-formed array the nonzero trits lie below L. -/
theorem TritArray.Wf.nonzeroTrits {a : TritArray} (h : a.Wf) :
    a.nonzeroTrits = (List.range a.len).countP fun i => decide (a.trit i ≠ 0) := by
  have hwords : a.nonzeroTrits = (List.range (64 * a.wordCount)).countP fun i => decide (a.trit i ≠ 0) :=
    nonzeroTrits_eq_countP a.len a.words h.valid
  rw [hwords, ← countP_range_extend (le_max_left _ a.len) fun i hi => by simp [TritArray.trit_of_ge hi],
    countP_range_extend (le_max_right _ a.len) fun i hi => by simp [TritArray.trit_of_len_le h.masked hi]]

/-- An array has the value 0 exactly when it has no nonzero trit, by the uniqueness of balanced digits. -/
theorem TritArray.tval_eq_zero_iff (a : TritArray) : a.tval = 0 ↔ ∀ i, a.trit i = 0 := by
  rw [TritArray.tval_eq]
  refine ⟨fun h i => ?_, fun h => tritSum_eq_zero fun i _ => h i⟩
  by_cases hi : i < 64 * a.wordCount
  · have hzero : tritSum (fun _ => 0) (64 * a.wordCount) = 0 := tritSum_eq_zero fun _ _ => rfl
    exact tritSum_inj (fun j _ => a.trit_bounds j) (fun _ _ => by decide) (h.trans hzero.symm) i hi
  · exact TritArray.trit_of_ge (by omega)

end Sys2Proof.Machine
end

section
/-! The source's add loop and shift-and-add product: what each round keeps, and so what they answer
(42_fixed_width.md R153, R159). -/

namespace Sys2Proof.Machine

/-! One iteration of the add loop. -/

/-- The carries that one iteration makes, each at the position it leaves (42_fixed_width.md R153). -/
def AddLoop.carries (l : AddLoop) : WordPair := ⟨l.x.neg &&& l.y.neg, l.x.pos &&& l.y.pos⟩

/-- The pending carries are the new ones, one position up. -/
theorem AddLoop.iterate_y (l : AddLoop) {width : Nat} (hw : 1 < width) :
    (l.iterate width).y = l.carries.shiftUp width 1 := by
  have hmask (c : TritBits) : (c <<< 1) &&& lowMask width = ((c &&& lowMask width) <<< 1) &&& lowMask width := by
    apply BitVec.eq_of_getLsbD_eq
    intro i hi
    simp only [BitVec.getLsbD_and, BitVec.getLsbD_shiftLeft, getLsbD_lowMask, lt_min_iff]
    by_cases hiw : i < width
    · simp only [show i - 1 < width by omega, show i - 1 < 64 by omega, and_self, decide_true, Bool.and_true]
    · simp only [hiw, false_and, decide_false, Bool.and_false]
  rw [WordPair.shiftUp, if_neg (by omega)]
  exact congrArg₂ WordPair.mk (hmask _) (hmask _)

/-- The carry that leaves the top position is counted. -/
theorem AddLoop.iterate_carryTop (l : AddLoop) (width : Nat) :
    (l.iterate width).carryTop = l.carryTop + l.carries.trit (width - 1) := add_sub_assoc _ _ _

theorem AddLoop.carries_valid {l : AddLoop} (hx : l.x.Valid) : l.carries.Valid := by
  rw [WordPair.valid_iff] at *
  intro i hi hb
  simp only [AddLoop.carries, BitVec.getLsbD_and, Bool.and_eq_true] at hb
  exact hx i hi ⟨hb.1.1, hb.2.1⟩

section Valid
variable {l : AddLoop} (hx : l.x.Valid) (hy : l.y.Valid)
include hx hy

/-- The round at one position: not both bits are set, and the two digits are the new digit and three times the carry
(42_fixed_width.md R153, the nine cases). -/
theorem AddLoop.iterate_x_digit (width : Nat) {i : Nat} (hi : i < 64) :
    ¬((l.iterate width).x.neg.getLsbD i = true ∧ (l.iterate width).x.pos.getLsbD i = true) ∧
      (l.iterate width).x.trit i = l.x.trit i + l.y.trit i - 3 * l.carries.trit i := by
  have hxi := (WordPair.valid_iff _).1 hx i hi
  have hyi := (WordPair.valid_iff _).1 hy i hi
  simp only [WordPair.trit, Machine.trit, AddLoop.carries, AddLoop.iterate, BitVec.getLsbD_or, BitVec.getLsbD_and,
    BitVec.getLsbD_not, hi, decide_true, Bool.true_and]
  generalize l.x.neg.getLsbD i = xn, l.x.pos.getLsbD i = xp, l.y.neg.getLsbD i = yn, l.y.pos.getLsbD i = yp at *
  revert xn xp yn yp
  decide

theorem AddLoop.iterate_x_valid (width : Nat) : (l.iterate width).x.Valid :=
  (WordPair.valid_iff _).2 fun _ hi => (AddLoop.iterate_x_digit hx hy width hi).1

theorem AddLoop.iterate_x_trit (width i : Nat) :
    (l.iterate width).x.trit i = l.x.trit i + l.y.trit i - 3 * l.carries.trit i := by
  rcases lt_or_ge i 64 with hi | hi
  · exact (AddLoop.iterate_x_digit hx hy width hi).2
  · simp only [WordPair.trit_of_ge _ hi]
    rfl

/-- The new pair is the two old ones less three times the carries. -/
theorem AddLoop.iterate_x_val (width k : Nat) :
    (l.iterate width).x.val k = l.x.val k + l.y.val k - 3 * l.carries.val k := by
  induction k with
  | zero => rfl
  | succ n ih =>
    simp only [WordPair.val, tritSum_succ] at ih ⊢
    rw [ih, AddLoop.iterate_x_trit hx hy]
    ring

end Valid

/-- Where nothing is pending no carry is made. -/
theorem AddLoop.carries_trit_of_y {l : AddLoop} (hy : l.y.Valid) {i : Nat} (h : l.y.trit i = 0) : l.carries.trit i = 0 := by
  by_cases hi : i < 64
  · obtain ⟨hneg, hpos⟩ := WordPair.bits_of_valid hy hi
    rw [h] at hneg hpos
    simp only [WordPair.trit, Machine.trit, AddLoop.carries, BitVec.getLsbD_and, hneg, hpos]
    simp
  · exact WordPair.trit_of_ge _ (by omega)

/-- The carries one position up and the carry out of the top weigh three times the carries. -/
theorem WordPair.shiftUp_one_val (c : WordPair) {w : Nat} (hw : w ≤ 64) (hpos : 0 < w) :
    (c.shiftUp w 1).val w + c.trit (w - 1) * pow3 w = 3 * c.val w := by
  obtain ⟨m, rfl⟩ := Nat.exists_eq_add_one.2 hpos
  have hlow : (c.shiftUp (m + 1) 1).val (m + 1) = 3 * tritSum c.trit m := by
    rw [WordPair.val, tritSum_succ_low, c.shiftUp_trit hw, if_neg (by omega), zero_add]
    exact congrArg (3 * ·) (tritSum_congr fun i hi => by rw [c.shiftUp_trit hw, if_pos (by omega), Nat.add_sub_cancel])
  rw [hlow, WordPair.val, tritSum_succ, pow3_succ, Nat.add_sub_cancel]
  ring

/-- Putting the carry in where nothing is pending is writing a trit. -/
theorem AddLoop.placeCarry_y {l : AddLoop} (hy : l.y.Valid) (h : l.y.trit 0 = 0) (cin : Int) :
    (l.placeCarry cin).y = l.y.setTrit 0 cin := by
  obtain ⟨hneg, hpos⟩ := WordPair.bits_of_valid hy (i := 0) (by decide)
  rw [h] at hneg hpos
  have hclear {c : TritBits} (hc : c.getLsbD 0 = false) : c &&& ~~~(1#64 <<< 0) = c := by
    apply BitVec.eq_of_getLsbD_eq
    intro i hi
    rw [BitVec.getLsbD_and, BitVec.getLsbD_not, getLsbD_bit hi]
    by_cases hi0 : i = 0
    · rw [hi0, hc, Bool.false_and]
    · simp only [hi, hi0, decide_true, decide_false, Bool.not_false, Bool.and_self, Bool.and_true]
  rw [WordPair.setTrit, hclear hneg, hclear hpos]
  rfl

/-! What the loop keeps. -/

/-- The add loop after some rounds: both pairs are valid W-trit pairs, no carry is pending below position r, and with the
carries that left the top position they are the total (42_fixed_width.md R153). -/
structure AddLoop.Keeps (width r : Nat) (total : Int) (l : AddLoop) : Prop where
  xValid : l.x.Valid
  yValid : l.y.Valid
  xWidth : ∀ i, width ≤ i → l.x.trit i = 0
  yWidth : ∀ i, width ≤ i → l.y.trit i = 0
  settled : ∀ i < r, l.y.trit i = 0
  sum : l.x.val width + l.y.val width + l.carryTop * pow3 width = total

theorem AddLoop.keeps_start {a b : WordPair} (ha : a.Valid) (hb : b.Valid) (width : Nat) :
    AddLoop.Keeps width 0 (a.val width + b.val width) ⟨a.keepLow width, b.keepLow width, 0⟩ where
  xValid := WordPair.keepLow_valid ha width
  yValid := WordPair.keepLow_valid hb width
  xWidth i hi := by rw [WordPair.keepLow_trit, if_neg (by omega)]
  yWidth i hi := by rw [WordPair.keepLow_trit, if_neg (by omega)]
  settled i hi := absurd hi (Nat.not_lt_zero i)
  sum := by simp

section Rounds
variable {width r : Nat} {total : Int} {l : AddLoop}

/-- A round settles one more position. -/
theorem AddLoop.Keeps.iterate (h : l.Keeps width r total) (hw : width ≤ 64) (hone : 1 < width) :
    (l.iterate width).Keeps width (r + 1) total where
  xValid := AddLoop.iterate_x_valid h.xValid h.yValid width
  yValid := by
    rw [l.iterate_y hone]
    exact WordPair.shiftUp_valid (AddLoop.carries_valid h.xValid) width 1
  xWidth i hi := by
    rw [AddLoop.iterate_x_trit h.xValid h.yValid, h.xWidth i hi, h.yWidth i hi,
      AddLoop.carries_trit_of_y h.yValid (h.yWidth i hi)]
    rfl
  yWidth i hi := by rw [l.iterate_y hone, WordPair.shiftUp_trit _ hw, if_neg (by omega)]
  settled i hi := by
    rw [l.iterate_y hone, WordPair.shiftUp_trit _ hw]
    split
    · exact AddLoop.carries_trit_of_y h.yValid (h.settled (i - 1) (by omega))
    · rfl
  sum := by
    have hcarry := l.carries.shiftUp_one_val hw (by omega)
    rw [AddLoop.iterate_x_val h.xValid h.yValid, l.iterate_y hone, l.iterate_carryTop, ← h.sum]
    linear_combination hcarry

/-- The carry in goes to position 0, where nothing is pending after the first round. -/
theorem AddLoop.Keeps.placeCarry (h : l.Keeps width 1 total) (hpos : 0 < width) {cin : Int} (hc : -1 ≤ cin ∧ cin ≤ 1) :
    (l.placeCarry cin).Keeps width 0 (total + cin) := by
  have hzero := h.settled 0 Nat.zero_lt_one
  have hy := AddLoop.placeCarry_y h.yValid hzero cin
  have htrit := WordPair.setTrit_trit l.y (k := 0) (by decide) (v := cin) (by omega)
  refine ⟨h.xValid, ?yValid, h.xWidth, fun i hi => ?yWidth, fun i hi => absurd hi (Nat.not_lt_zero i), ?sum⟩
  case yValid => exact hy ▸ WordPair.setTrit_valid h.yValid 0 cin
  case yWidth => rw [hy, htrit, if_neg (by omega), h.yWidth i hi]
  case sum =>
    have hval : (l.y.setTrit 0 cin).val width = l.y.val width + (cin - l.y.trit 0) * pow3 0 := tritSum_update hpos htrit
    rw [hy, hval, hzero, ← h.sum, pow3_zero]
    show l.x.val width + _ + l.carryTop * _ = _
    ring

theorem AddLoop.Keeps.run (hw : width ≤ 64) (hone : 1 < width) (n : Nat) (h : l.Keeps width r total) :
    (AddLoop.run width n l).Keeps width (r + n) total := by
  induction n generalizing r l with
  | zero => exact h
  | succ n ih => exact (Nat.add_right_comm r n 1 ▸ ih (h.iterate hw hone) :)

/-- With every position settled nothing is pending. -/
theorem AddLoop.Keeps.y_eq_zero (h : l.Keeps width width total) : l.y = WordPair.zero :=
  WordPair.ext_trit h.yValid WordPair.zero_valid fun i _ => by
    rw [WordPair.zero_trit]
    exact (lt_or_ge i width).elim (h.settled i) (h.yWidth i)

end Rounds

/-- The add loop keeps the sum of the views and the carry in, and in W further rounds settles every position. -/
theorem addLoop_keeps {width : Nat} (hw : width ≤ 64) (hone : 1 < width) {a b : WordPair} (ha : a.Valid) (hb : b.Valid)
    {cin : Int} (hc : -1 ≤ cin ∧ cin ≤ 1) :
    (addLoop width width a b cin).Keeps width width (a.val width + b.val width + cin) := by
  have hfirst := (AddLoop.keeps_start ha hb width).iterate hw hone
  have hrun := (hfirst.placeCarry (by omega) hc).run hw hone width
  rwa [Nat.zero_add] at hrun

/-! The shift-and-add product. -/

/-- After k trits of b the product holds the low trits of a times the value of those trits. -/
theorem mulByShifts_eq {width : Nat} (hw : width ≤ 64) (a b : WordPair) {k : Nat} (hk : k ≤ width) :
    mulByShifts width a b k = balancedPair width (a.val width * b.val k) := by
  induction k with
  | zero =>
    refine eq_balancedPair hw WordPair.zero_valid (fun i _ => WordPair.zero_trit i) ?_
    rw [mulByShifts, WordPair.zero_val, WordPair.val, WordPair.val, tritSum_zero, mul_zero]
    exact (balancedResidue_of_bounds ⟨neg_nonpos.2 (tritMax_nonneg _), tritMax_nonneg _⟩).symm
  | succ n ih =>
    have hrest : (mulByShifts width a b n).val width ≡ a.val width * b.val n [ZMOD pow3 width] := by
      rw [ih (by omega), balancedPair_val hw]
      exact balancedResidue_modEq _ _
    have hcopy : (a.shiftUp width n).val width ≡ a.val width * pow3 n [ZMOD pow3 width] := by
      rw [WordPair.shiftUp_val a hw (by omega)]
      exact balancedResidue_modEq _ _
    have hval : b.val (n + 1) = b.val n + b.trit n * pow3 n := tritSum_succ _ _
    have hbounds := b.trit_bounds n
    rw [mulByShifts, hval]
    split_ifs with hplus hminus
    · rw [addWithCarry_zero hw, hplus, one_mul, mul_add]
      exact balancedPair_congr hw (hrest.add hcopy)
    · rw [addWithCarry_swap hw, hminus, neg_one_mul, ← sub_eq_add_neg, mul_sub]
      exact balancedPair_congr hw (hrest.sub hcopy)
    · rw [ih (by omega), show b.trit n = 0 by omega, zero_mul, add_zero]

end Sys2Proof.Machine
end

section
/-! The statements of 42_fixed_width.md settled. -/

namespace Sys2Proof.Machine

/-- Settles O32: each command writes the low W trits of its exact result. -/
theorem fixedWidthWraps : Obligations.FixedWidthWraps := by
  refine fun s w d a b => ⟨exists_setP_balancedPair (exec_wadd s w d a b), exists_setP_balancedPair (exec_wsub s w d a b),
    exists_setP_balancedPair (exec_wmul s w d a b), ?waddc⟩
  obtain ⟨t, hexec, honly, hpair, hcarry, hsum⟩ := exec_waddc s w d a b
  refine ⟨t, hexec, honly, hpair ▸ balancedPair_valid _ _, hpair ▸ balancedPair_zeroFrom _ _, ?_, hcarry, hsum⟩
  rw [State.pval, hpair, balancedPair_val w.trits_le]

/-- Settles O33: the first command's carry enters the second, whose sum weighs 3^64. -/
theorem waddcChains : Obligations.WaddcChains := by
  intro s t u d0 a0 b0 d1 a1 b1 ha hb hd hlow hhigh
  obtain ⟨t', hlow', ⟨-, hkeepLow⟩, -, -, hsumLow⟩ := exec_waddc s .w64 d0 a0 b0
  obtain ⟨u', hhigh', ⟨-, hkeepHigh⟩, -, -, hsumHigh⟩ := exec_waddc t .w64 d1 a1 b1
  obtain rfl : t' = t := Host.Outcome.next.inj (hlow'.symm.trans hlow)
  obtain rfl : u' = u := Host.Outcome.next.inj (hhigh'.symm.trans hhigh)
  have hd0 : u'.pval .w64 d0 = t'.pval .w64 d0 := congrArg (WordPair.val · 64) (hkeepHigh d0 hd)
  have ha1 : t'.pval .w64 a1 = s.pval .w64 a1 := congrArg (WordPair.val · 64) (hkeepLow a1 ha.symm)
  have hb1 : t'.pval .w64 b1 = s.pval .w64 b1 := congrArg (WordPair.val · 64) (hkeepLow b1 hb.symm)
  rw [ha1, hb1] at hsumHigh
  rw [hd0, show pow3 128 = pow3 64 * pow3 64 from pow3_add 64 64]
  change _ + _ * pow3 64 = _ at hsumLow hsumHigh
  linear_combination hsumLow + pow3 64 * hsumHigh

/-- Settles O34: modulo 3^W the difference is the first operand again, and a valid W-trit pair is known from its value. -/
theorem wsubUndoesWadd : Obligations.WsubUndoesWadd := by
  intro s t w d a b e hvalid hdb hadd
  obtain rfl : s.setP d _ = t := Host.Outcome.next.inj ((exec_wadd s w d a b).symm.trans hadd)
  obtain ⟨u, hsub, -, hpair⟩ := exists_setP (exec_wsub _ w e d b)
  refine ⟨u, hsub, ?_⟩
  rw [hpair, pval_setP, pval_setP, if_pos rfl, if_neg hdb.symm, balancedPair_val w.trits_le]
  refine (eq_balancedPair w.trits_le (WordPair.keepLow_valid hvalid _)
    (fun i hi => by rw [WordPair.keepLow_trit, if_neg (by omega)]) ?_).symm
  have hback := (balancedResidue_modEq w.trits (s.pval w a + s.pval w b)).sub_right (s.pval w b)
  rw [add_sub_cancel_right] at hback
  rw [WordPair.keepLow_val]
  exact ((balancedResidue_congr hback).trans (balancedResidue_of_bounds (WordPair.val_bounds _ _))).symm

/-- Settles O35: CFRD has no check; CFWR checks for a trit. -/
theorem carryAccess : Obligations.CarryAccess := by
  refine ⟨fun s d => exists_setX rfl, fun s a => ⟨fun hv => ?writes, fun hv => faults_iff.2 (ite_isTrit_outside hv _ _)⟩⟩
  exact ite_isTrit (by omega) (by omega) _ _

/-- Settles O36: a right shift is a left shift by the opposite amount. -/
theorem fixedWidthShiftsMoveTrits : Obligations.FixedWidthShiftsMoveTrits := by
  refine fun s w d a b => ⟨?wshl, ?wshr⟩
  case wshl =>
    obtain ⟨t, hexec, honly, hpair⟩ := exists_setP (i := .wshl w d a b) rfl
    refine ⟨t, hexec, honly, ?_⟩
    rw [hpair]
    exact ⟨WordPair.shl_zeroFrom _ _ _, fun h => WordPair.shl_valid h _ _, fun i hi => WordPair.shl_trit _ w.trits_le _ hi⟩
  case wshr =>
    obtain ⟨t, hexec, honly, hpair⟩ := exists_setP (i := .wshr w d a b) rfl
    refine ⟨t, hexec, honly, ?_⟩
    rw [hpair, WordPair.shr_eq_shl_neg]
    refine ⟨WordPair.shl_zeroFrom _ _ _, fun h => WordPair.shl_valid h _ _, fun i hi => ?_⟩
    rw [WordPair.shl_trit _ w.trits_le _ hi, sub_neg_eq_add]

/-- Settles O37: the trits that a right shift drops are worth at most H_k, less than half of 3^k. -/
theorem fixedWidthShiftValues : Obligations.FixedWidthShiftValues := by
  refine fun s w d a b k hv hk => ⟨?wshl, ?wshr⟩
  case wshl =>
    obtain ⟨t, hexec, -, hpair⟩ := exists_setP (i := .wshl w d a b) rfl
    refine ⟨t, hexec, ?_⟩
    rw [State.pval, hpair, hv, WordPair.shl, if_neg (by omega), Int.toNat_natCast]
    exact WordPair.shiftUp_val _ w.trits_le hk.le
  case wshr =>
    obtain ⟨t, hexec, -, hpair⟩ := exists_setP (i := .wshr w d a b) rfl
    refine ⟨t, hexec, ?_⟩
    have hsplit := WordPair.shiftDown_val (s.getP a) w.trits_le hk.le
    have hdropped : t.pval w d * pow3 k - s.pval w a = -(s.getP a).val k := by
      rw [State.pval, hpair, hv, WordPair.shr, if_neg (by omega), Int.toNat_natCast, State.pval, hsplit]
      ring
    have hbounds : |(s.getP a).val k| ≤ tritMax k := abs_le.2 (WordPair.val_bounds _ _)
    have hmax := two_mul_tritMax k
    rw [hdropped, abs_neg]
    omega

/-- Settles O38: past the range check the value is written, and an N-bit integer reads back from 128 bits. -/
theorem wtointConverts : Obligations.WtointConverts := by
  refine fun s w n d a => ⟨fun hlow hhigh => ?fits, fun hout => ?overflow⟩
  case fits =>
    obtain ⟨t, hexec, hx⟩ := exists_setX (i := .wtoint w n d a) (ite_check (fitsNative_iff.2 ⟨hlow, hhigh⟩) _ _)
    refine ⟨t, hexec, hx, ?_⟩
    rw [hx.2 d, if_pos rfl]
    exact toInt_scalarOfInt_of_native hlow hhigh
  case overflow =>
    exact faults_iff.2 (ite_check_fails (fun h => by have := fitsNative_iff.1 h; omega) _ _)

/-- Settles O39: the W trits have the value, and sint_N fits N bits, so WTOINT gives it back. -/
theorem wfromintConverts : Obligations.WfromintConverts := by
  refine fun s w n d a => ⟨fun hlow hhigh => ?fits, fun hout => ?overflow⟩
  case fits =>
    obtain ⟨t, hexec, honly, hvalid, hzero, hval⟩ :=
      exists_setP_balancedPair (i := .wfromint w n d a) (d := d) (ite_check (fitsTrits_iff.2 ⟨hlow, hhigh⟩) _ _)
    rw [balancedResidue_of_bounds ⟨hlow, hhigh⟩] at hval
    refine ⟨t, hexec, honly, hvalid, hzero, hval, fun e => ?_⟩
    obtain ⟨hmin, hmax⟩ := sintN_bounds s n a
    obtain ⟨u, hback, -, hx⟩ := (wtointConverts t w n e d).1 (hval ▸ hmin) (hval ▸ hmax)
    exact ⟨u, hback, hx.trans hval⟩
  case overflow =>
    exact faults_iff.2 (ite_check_fails (fun h => by have := fitsTrits_iff.1 h; omega) _ _)

/-- Settles O40: the counts are population counts of valid pairs, and a value is 0 when no trit is set. -/
theorem countsAndZeroTest : Obligations.CountsAndZeroTest := by
  refine ⟨fun s w d a hvalid => ?wcnt, fun s d a hwf => ?tcnt, fun s d a => ?tisz⟩
  case wcnt =>
    rw [← popcount_keepLow hvalid w.trits_le, ← scalarOfInt_natCast]
    exact exists_setX rfl
  case tcnt =>
    rw [← hwf.nonzeroTrits, ← scalarOfInt_natCast]
    exact exists_setX rfl
  case tisz =>
    obtain ⟨t, hexec, hx⟩ := exists_setX (i := .tisz d a) (s := s) rfl
    have hd := (hx.2 d).trans (if_pos rfl)
    refine ⟨t, hexec, hd ▸ hx, fun hall => ?_, fun ⟨i, hi⟩ => ?_⟩
    · rw [hd, if_pos ((TritArray.tval_eq_zero_iff _).2 hall)]
      rfl
    · rw [hd, if_neg fun h => hi ((TritArray.tval_eq_zero_iff _).1 h i)]
      rfl

/-- Settles O58: with nothing pending, the sum and the carry out are the exact total, which pins both. -/
theorem bitwiseAddLoopAgrees : Obligations.BitwiseAddLoopAgrees := by
  intro s t w d a b ha hb _ hexec
  obtain ⟨t', hexec', -, hpair, -, hsum⟩ := exec_waddc s w d a b
  obtain rfl : t' = t := Host.Outcome.next.inj (hexec'.symm.trans hexec)
  have hloop := addLoop_keeps w.trits_le (by cases w <;> decide) ha hb s.cf.value_bounds
  generalize addLoop w.trits w.trits (s.getP a) (s.getP b) s.cf.value = l at *
  have htotal := hloop.sum
  rw [hloop.y_eq_zero, WordPair.zero_val, add_zero] at htotal
  have hx : l.x = t'.getP d := by
    rw [hpair]
    exact eq_balancedPair w.trits_le hloop.xValid hloop.xWidth
      (balancedResidue_unique (WordPair.val_bounds _ _) htotal.symm).symm
  refine ⟨hloop.y_eq_zero, hx, mul_right_cancel₀ (pow3_pos w.trits).ne' ?_⟩
  rw [hx] at htotal
  exact add_left_cancel (htotal.trans hsum.symm)

/-- Settles O60: all W trits of b give the product of the values, wrapped. -/
theorem mulByShiftsAgrees : Obligations.MulByShiftsAgrees := by
  intro s w d a b
  obtain ⟨t, hexec, -, hpair⟩ := exists_setP (exec_wmul s w d a b)
  exact ⟨t, hexec, hpair.trans (mulByShifts_eq w.trits_le _ _ le_rfl).symm⟩

end Sys2Proof.Machine
end

section
/-! What the value of an array says of its trits and of its length, the source's trimming and word loop of addition, and
the capacity check of canonical results and of shifts (43_arbitrary_precision.md). -/

namespace Sys2Proof.Machine

/-! The value of an array determines its trits (00_scope.md R8, R9). -/

/-- Digits whose sum is the value of an array are its trits. -/
theorem TritArray.trit_eq_of_tval {a : TritArray} {f : Nat → Int} {m : Nat} (hf : ∀ i, -1 ≤ f i ∧ f i ≤ 1)
    (hz : ∀ i, m ≤ i → f i = 0) (h : a.tval = tritSum f m) (i : Nat) : a.trit i = f i := by
  set top := max m (64 * a.wordCount)
  by_cases hi : i < top
  · have hsum : tritSum a.trit top = tritSum f top := by
      rw [← a.tval_eq_of_le (le_max_right _ _), h, tritSum_extend (le_max_left _ _) fun j hj _ => hz j hj]
    exact tritSum_inj (fun j _ => a.trit_bounds j) (fun j _ => hf j) hsum i hi
  · rw [TritArray.trit_of_ge (by omega), hz i (by omega)]

/-- Arrays of the same value have the same trits, whatever their word counts. -/
theorem TritArray.trit_congr {a b : TritArray} (h : a.tval = b.tval) (i : Nat) : a.trit i = b.trit i :=
  TritArray.trit_eq_of_tval b.trit_bounds (fun _ hi => TritArray.trit_of_ge hi) (h.trans b.tval_eq) i

/-- The top trit of an array of canonical form is not 0 (10_state.md R27). -/
theorem TritArray.Canonical.topTrit_ne_zero {a : TritArray} (h : a.Canonical) (hv : a.Valid) (hlen : a.len ≠ 0) :
    a.trit (a.len - 1) ≠ 0 := by
  obtain ⟨hl, htop⟩ := h
  cases hx : a.words.getLast? with
  | none => simp [lengthOfWords, hx, hlen] at hl
  | some x =>
    simp only [hx, Option.all_some, bne_iff_ne] at htop
    obtain ⟨hlz, hbit, -⟩ := lzc64_spec htop
    have hwords : 0 < a.wordCount := List.length_pos_of_mem (List.mem_of_getLast? hx)
    have hindex : a.len - 1 = 64 * (a.wordCount - 1) + (63 - lzc64 (x.neg ||| x.pos)) := by
      simp only [lengthOfWords, hx] at hl
      simp only [TritArray.wordCount] at *
      omega
    have hvalid : x.Valid := TritArray.word_last hx ▸ TritArray.word_valid hv _
    obtain ⟨hneg, hpos⟩ := WordPair.bits_of_valid hvalid (i := 63 - lzc64 (x.neg ||| x.pos)) (by omega)
    rw [hindex, TritArray.trit, Nat.mul_add_div (by decide), Nat.div_eq_of_lt (by omega), add_zero, Nat.mul_add_mod,
      Nat.mod_eq_of_lt (by omega), TritArray.word_last hx]
    intro hzero
    rw [BitVec.getLsbD_or, hneg, hpos, hzero] at hbit
    exact absurd hbit (by decide)

/-- The canonical form is the shortest of its value (43_arbitrary_precision.md R200). -/
theorem TritArray.Canonical.len_le {a b : TritArray} (ha : a.Canonical) (hv : a.Valid) (hb : b.Masked)
    (h : a.tval = b.tval) : a.len ≤ b.len := by
  by_contra hlt
  refine ha.topTrit_ne_zero hv (by omega) ?_
  rw [TritArray.trit_congr h]
  exact TritArray.trit_of_len_le hb (by omega)

/-! The source's trimming (43_arbitrary_precision.md R194). -/

/-- No position of the pair is set in either vector. -/
def WordPair.allZero (w : WordPair) : Bool := w.neg ||| w.pos == 0

theorem WordPair.val_of_allZero {w : WordPair} (h : w.allZero = true) : w.val 64 = 0 := by
  by_contra hval
  exact WordPair.or_ne_zero_of_val hval (by simpa [WordPair.allZero] using h)

theorem dropZeroTop_eq_dropWhile (ws : List WordPair) : dropZeroTop ws = ws.dropWhile WordPair.allZero := by
  induction ws with
  | nil => rfl
  | cons w ws ih => simp only [dropZeroTop, List.dropWhile_cons, WordPair.allZero, beq_iff_eq, ih]

theorem trimLen_words (a : TritArray) : (trimLen a).words = a.words.rdropWhile WordPair.allZero :=
  congrArg List.reverse (dropZeroTop_eq_dropWhile _)

theorem wordsVal_concat (ws : List WordPair) (w : WordPair) :
    wordsVal (ws ++ [w]) = wordsVal ws + pow3 (64 * ws.length) * w.val 64 := by
  induction ws with
  | nil => simp [wordsVal]
  | cons v vs ih =>
    rw [List.cons_append, wordsVal, wordsVal, ih, List.length_cons, Nat.mul_succ, pow3_add]
    ring

/-- All-zero words at the top add nothing to the value. -/
theorem wordsVal_rdropWhile (ws : List WordPair) : wordsVal (ws.rdropWhile WordPair.allZero) = wordsVal ws := by
  induction ws using List.reverseRecOn with
  | nil => rfl
  | append_singleton ws w ih =>
    rw [List.rdropWhile_concat]
    split_ifs with hzero
    · rw [ih, wordsVal_concat, WordPair.val_of_allZero hzero, mul_zero, add_zero]
    · rfl

theorem trimLen_canonical (a : TritArray) : (trimLen a).Canonical := by
  refine ⟨rfl, ?_⟩
  rw [trimLen_words]
  by_cases hnil : a.words.rdropWhile WordPair.allZero = []
  · rw [hnil]
    rfl
  · rw [List.getLast?_eq_some_getLast hnil, Option.all_some]
    simpa [WordPair.allZero] using List.rdropWhile_last_not WordPair.allZero a.words hnil

/-- trim_len of an array of valid words is the canonical form of its value (43_arbitrary_precision.md R194). -/
theorem trimLen_eq_canon {a : TritArray} (h : a.Valid) : trimLen a = canon a.tval := by
  have hvalid : (trimLen a).Valid := fun w hw => h w (by
    rw [← List.rdropWhile_append_rtakeWhile (p := WordPair.allZero) (l := a.words), ← trimLen_words]
    exact List.mem_append_left _ hw)
  have hval : (trimLen a).tval = a.tval := by rw [TritArray.tval, trimLen_words, wordsVal_rdropWhile, TritArray.tval]
  rw [eq_canon (trimLen_canonical a) hvalid, hval]

/-! The source's word loop of addition (43_arbitrary_precision.md R191). -/

/-- The value of the m words of an array from word j on. -/
def TritArray.valFrom (a : TritArray) (j m : Nat) : Int := tritSum (fun i => a.trit (64 * j + i)) (64 * m)

theorem TritArray.valFrom_succ (a : TritArray) (j m : Nat) :
    a.valFrom j (m + 1) = (a.word j).val 64 + pow3 64 * a.valFrom (j + 1) m := by
  rw [TritArray.valFrom, Nat.mul_succ, Nat.add_comm _ 64, tritSum_split, TritArray.valFrom]
  congr 1
  · exact tritSum_congr fun i hi => by
      rw [TritArray.trit, Nat.mul_add_div (by decide), Nat.div_eq_of_lt hi, add_zero, Nat.mul_add_mod, Nat.mod_eq_of_lt hi]
  · simp only [Nat.mul_succ, Nat.add_assoc]

theorem TritArray.valFrom_zero {a : TritArray} {m : Nat} (h : a.wordCount ≤ m) : a.valFrom 0 m = a.tval := by
  simp only [TritArray.valFrom, Nat.mul_zero, Nat.zero_add]
  exact (a.tval_eq_of_le (by omega)).symm

/-- The words that the loop gives are valid, and are worth the words of the two operands and the carry in. -/
theorem addWords_spec (a b : TritArray) (m j : Nat) {c : Int} (hc : -1 ≤ c ∧ c ≤ 1) :
    (∀ w ∈ addWords a b m j c, w.Valid) ∧ wordsVal (addWords a b m j c) = a.valFrom j m + b.valFrom j m + c := by
  induction m generalizing j c with
  | zero =>
    have hmax : 1 ≤ tritMax 64 := tritMax_mono (j := 1) (by decide)
    refine ⟨fun w hw => List.mem_singleton.1 hw ▸ balancedPair_valid 64 c, ?_⟩
    rw [addWords, wordsVal, balancedPair_val le_rfl, balancedResidue_of_bounds (by omega)]
    simp [wordsVal, TritArray.valFrom]
  | succ m ih =>
    obtain ⟨hvalid, -, hcarry, hsum⟩ := addWithCarry_spec (le_refl 64) (a.word j) (b.word j) hc
    obtain ⟨hvalids, hval⟩ := ih (j + 1) hcarry
    refine ⟨List.forall_mem_cons.2 ⟨hvalid, hvalids⟩, ?_⟩
    rw [addWords, wordsVal, hval, a.valFrom_succ, b.valFrom_succ]
    linear_combination hsum

theorem addByWords_eq_canon (a b : TritArray) : addByWords a b = canon (a.tval + b.tval) := by
  obtain ⟨hvalid, hval⟩ := addWords_spec a b (max a.wordCount b.wordCount) 0 (c := 0) (by decide)
  rw [TritArray.valFrom_zero (le_max_left _ _), TritArray.valFrom_zero (le_max_right _ _), add_zero] at hval
  rw [addByWords, trimLen_eq_canon hvalid, TritArray.tval, hval]

/-! Results of arithmetic: the canonical form of an exact value, after the capacity check (43_arbitrary_precision.md R190,
R205). -/

/-- A value that fits is written in canonical form. -/
theorem writeT_canon {s : State} {v : Int} (h : s.FitsCapacity v) (i : Instr) (d : TReg) :
    s.writeT i d (canon v) = .next (s.setT d (canon v)) := writeT_of_le (canon_wordCount_le.2 h)

theorem writeT_canon_capacity {s : State} {v : Int} (h : ¬s.FitsCapacity v) (i : Instr) (d : TReg) :
    s.writeT i d (canon v) = .next (s.raise .capacity (encode i)) :=
  writeT_of_lt (not_le.1 fun hle => h (canon_wordCount_le.1 hle))

/-- Writing a T register leaves the parameters. -/
theorem OnlyT.params_eq {s t : State} {d : TReg} (h : OnlyT s t d) : t.params = s.params := by
  rw [h.1]

/-- A command that writes the canonical form of v. -/
theorem exists_setT_canon {i : Instr} {s : State} {d : TReg} {v : Int} (h : exec i s = .next (s.setT d (canon v))) :
    ∃ t, exec i s = .next t ∧ OnlyT s t d ∧ (t.getT d).tval = v ∧ (t.getT d).Canonical ∧ (t.getT d).Wf := by
  obtain ⟨t, hexec, honly, harray⟩ := exists_setT h
  exact ⟨t, hexec, honly, harray ▸ ⟨canon_tval v, canon_canonical v, canon_wf v⟩⟩

theorem exec_tadd {s : State} {d a b : TReg} (h : s.FitsCapacity ((s.getT a).tval + (s.getT b).tval)) :
    exec (.tadd d a b) s = .next (s.setT d (canon ((s.getT a).tval + (s.getT b).tval))) := writeT_canon h _ d

/-- Adding a zero of any form gives the canonical form of the other operand (43_arbitrary_precision.md R193). -/
theorem exec_tadd_zero {s : State} {d a b : TReg} (hzero : (s.getT b).tval = 0) (h : s.FitsCapacity (s.getT a).tval) :
    exec (.tadd d a b) s = .next (s.setT d (canon (s.getT a).tval)) := by
  rw [exec_tadd (by rwa [hzero, add_zero]), hzero, add_zero]

/-- An array of at most MAX_WORDS word pairs has a value that fits. -/
theorem fitsCapacity_of_wordCount_le {s : State} {a : TritArray} (h : a.wordCount ≤ s.params.maxWords) :
    s.FitsCapacity a.tval := by
  rw [State.FitsCapacity, a.tval_eq_of_le (Nat.mul_le_mul_left 64 h)]
  exact tritSum_bounds fun i _ => a.trit_bounds i

/-! Shifts by a signed amount (43_arbitrary_precision.md R197 to R199). -/

@[simp] theorem canonOrZ1_zero : canonOrZ1 0 = TritArray.z1 := rfl

theorem canonOrZ1_of_ne_zero {v : Int} (h : v ≠ 0) : canonOrZ1 v = canon v := if_neg h

/-- Z1 takes one word, every other shift result the words of its value. -/
theorem canonOrZ1_wordCount_le {v : Int} {m : Nat} (hm : 1 ≤ m) (h : -tritMax (64 * m) ≤ v ∧ v ≤ tritMax (64 * m)) :
    (canonOrZ1 v).wordCount ≤ m := by
  by_cases hv : v = 0
  · rw [hv, canonOrZ1_zero]
    exact hm
  · rw [canonOrZ1_of_ne_zero hv]
    exact canon_wordCount_le.2 h

/-- A left shift, in either spelling: the ceiling, then the capacity (43_arbitrary_precision.md R198, R199). -/
theorem exec_leftShift {s : State} {d a : TReg} {b : XReg} {i : Instr} {k : Nat}
    (h : i = .tshl d a b ∧ s.sx b = k ∨ i = .tshr d a b ∧ s.sx b = -k ∧ 0 < k) :
    exec i s = if s.params.maxShift < k then s.fail i .shift else s.writeT i d ((s.getT a).shiftUp k) := by
  rcases h with ⟨rfl, hk⟩ | ⟨rfl, hk, hpos⟩
  · show execTshl d a b s = _
    simp only [execTshl, hk, Int.natCast_nonneg, if_true, Nat.cast_lt, Int.toNat_natCast]
  · show execTshr d a b s = _
    simp only [execTshr, hk, neg_neg, Nat.cast_lt, Int.toNat_natCast]
    rw [if_neg (by omega)]

/-- A right shift, in either spelling, has no ceiling (43_arbitrary_precision.md R198, R199). -/
theorem exec_rightShift {s : State} {d a : TReg} {b : XReg} {i : Instr} {k : Nat}
    (h : i = .tshr d a b ∧ s.sx b = k ∨ i = .tshl d a b ∧ s.sx b = -k ∧ 0 < k) :
    exec i s = s.writeT i d ((s.getT a).shiftDown k) := by
  rcases h with ⟨rfl, hk⟩ | ⟨rfl, hk, hpos⟩
  · show execTshr d a b s = _
    simp only [execTshr, hk, Int.natCast_nonneg, if_true, Int.toNat_natCast]
  · show execTshl d a b s = _
    simp only [execTshl, hk, neg_neg, Int.toNat_natCast]
    rw [if_neg (by omega)]

/-- The value of the trits from position k on. -/
def TritArray.highVal (a : TritArray) (k : Nat) : Int := tritSum (fun i => a.trit (k + i)) (64 * a.wordCount - k)

theorem TritArray.shiftDown_eq (a : TritArray) (k : Nat) : a.shiftDown k = canonOrZ1 (a.highVal k) := rfl

/-- An array is its low k trits and, 3^k times as heavy, the others. -/
theorem TritArray.tval_eq_low_add_high (a : TritArray) (k : Nat) :
    a.tval = tritSum a.trit k + pow3 k * a.highVal k := by
  rw [a.tval_eq_of_le (m := k + (64 * a.wordCount - k)) (by omega), tritSum_split, TritArray.highVal]

theorem TritArray.highVal_congr {a b : TritArray} (h : a.tval = b.tval) (k : Nat) : a.highVal k = b.highVal k := by
  have ha := a.tval_eq_low_add_high k
  have hlow : tritSum a.trit k = tritSum b.trit k := tritSum_congr fun i _ => TritArray.trit_congr h i
  rw [h, b.tval_eq_low_add_high k, hlow] at ha
  exact (mul_left_cancel₀ (pow3_pos k).ne' (add_left_cancel ha)).symm

theorem TritArray.highVal_bounds {a : TritArray} {m : Nat} (h : a.wordCount ≤ m) (k : Nat) :
    -tritMax (64 * m) ≤ a.highVal k ∧ a.highVal k ≤ tritMax (64 * m) := by
  have hbounds : -tritMax (64 * a.wordCount - k) ≤ a.highVal k ∧ a.highVal k ≤ tritMax (64 * a.wordCount - k) :=
    tritSum_bounds fun i _ => a.trit_bounds (k + i)
  have hmono : tritMax (64 * a.wordCount - k) ≤ tritMax (64 * m) := tritMax_mono (by omega)
  omega

/-- The trits of a right shift are those of the source, k positions down. -/
theorem TritArray.shiftDown_trit (a : TritArray) (k j : Nat) : (a.shiftDown k).trit j = a.trit (j + k) := by
  rw [Nat.add_comm j k]
  exact TritArray.trit_eq_of_tval (f := fun i => a.trit (k + i)) (fun _ => a.trit_bounds _)
    (fun _ hi => TritArray.trit_of_ge (by omega)) (canonOrZ1_spec (a.highVal k)).1 j

/-- The trits that a right shift drops are worth at most H_k, less than half of 3^k. -/
theorem TritArray.highVal_nearest (a : TritArray) (k : Nat) : 2 * |a.highVal k * pow3 k - a.tval| < pow3 k := by
  have hdropped : a.highVal k * pow3 k - a.tval = -tritSum a.trit k := by
    rw [a.tval_eq_low_add_high k]
    ring
  have hbounds : |tritSum a.trit k| ≤ tritMax k := abs_le.2 (tritSum_bounds fun i _ => a.trit_bounds i)
  have hmax := two_mul_tritMax k
  rw [hdropped, abs_neg]
  omega

/-! Conversion to an integer. -/

/-- A value that fits N bits is written, and reads back from 128 bits (43_arbitrary_precision.md R203). -/
theorem exists_ttoint {s : State} {n : NativeWidth} {d : XReg} {a : TReg} (hlow : -(2 ^ (n.bits - 1)) ≤ (s.getT a).tval)
    (hhigh : (s.getT a).tval < 2 ^ (n.bits - 1)) : ∃ t, exec (.ttoint n d a) s = .next t ∧
      XResult s t d (BitVec.ofInt 128 (s.getT a).tval) ∧ (t.getX d).toInt = (s.getT a).tval := by
  obtain ⟨t, hexec, hx⟩ := exists_setX (i := .ttoint n d a) (ite_check (fitsNative_iff.2 ⟨hlow, hhigh⟩) _ _)
  refine ⟨t, hexec, hx, ?_⟩
  rw [hx.2 d, if_pos rfl]
  exact toInt_scalarOfInt_of_native hlow hhigh

/-! Two runs of one command that answer alike. -/

/-- Two outcomes, of s and of s', that write the same array to T[d] or raise the same fault. -/
inductive SameAnswer (d : TReg) (s s' : State) : Outcome → Outcome → Prop
  | write (r : TritArray) : SameAnswer d s s' (.next (s.setT d r)) (.next (s'.setT d r))
  | fault (e : ErrorCode) (w : Word) : SameAnswer d s s' (.next (s.raise e w)) (.next (s'.raise e w))

section SameAnswer
variable {d : TReg} {s s' : State}

theorem SameAnswer.writeT (hparams : s'.params = s.params) {r r' : TritArray} (hr : r' = r) (i : Instr) :
    SameAnswer d s s' (s.writeT i d r) (s'.writeT i d r') := by
  rw [State.writeT, State.writeT, hparams, hr]
  split
  · exact .fault _ _
  · exact .write r

theorem SameAnswer.ite {c : Prop} [Decidable c] {x y x' y' : Outcome} (hx : SameAnswer d s s' x x')
    (hy : SameAnswer d s s' y y') : SameAnswer d s s' (if c then x else y) (if c then x' else y') := by
  split
  · exact hx
  · exact hy

/-- A value command answers alike on two states that differ in the forms of its sources alone, not in their values
(43_arbitrary_precision.md R190). -/
theorem exec_sameAnswer {a b : TReg} {c : XReg} {i : Instr}
    (hi : i ∈ [.tadd d a b, .tsub d a b, .tmul d a b, .tshl d a c, .tshr d a c, .ttrim d a])
    (hparams : s'.params = s.params) (hx : s'.x = s.x) (ha : (s'.getT a).tval = (s.getT a).tval)
    (hb : (s'.getT b).tval = (s.getT b).tval) : SameAnswer d s s' (exec i s) (exec i s') := by
  have hsx : s'.sx c = s.sx c := by rw [State.sx, State.getX, hx, State.sx, State.getX]
  have hup (k : Nat) : (s'.getT a).shiftUp k = (s.getT a).shiftUp k := by rw [TritArray.shiftUp, ha, TritArray.shiftUp]
  have hdown (k : Nat) : (s'.getT a).shiftDown k = (s.getT a).shiftDown k :=
    congrArg canonOrZ1 (TritArray.highVal_congr ha k)
  simp only [List.mem_cons, List.not_mem_nil, or_false] at hi
  rcases hi with rfl | rfl | rfl | rfl | rfl | rfl
  · exact .writeT hparams (by rw [ha, hb]) _
  · exact .writeT hparams (by rw [ha, hb]) _
  · exact .writeT hparams (by rw [ha, hb]) _
  · show SameAnswer d s s' (execTshl d a c s) (execTshl d a c s')
    rw [execTshl, execTshl, hsx, hparams]
    exact .ite (.ite (.fault _ _) (.writeT hparams (hup _) _)) (.writeT hparams (hdown _) _)
  · show SameAnswer d s s' (execTshr d a c s) (execTshr d a c s')
    rw [execTshr, execTshr, hsx, hparams]
    exact .ite (.writeT hparams (hdown _) _) (.ite (.fault _ _) (.writeT hparams (hup _) _))
  · show SameAnswer d s s' (execTtrim d a s) (execTtrim d a s')
    rw [execTtrim, execTtrim, ha]
    exact .write _

end SameAnswer

end Sys2Proof.Machine
end

section
/-! The statements of 43_arbitrary_precision.md settled. -/

namespace Sys2Proof.Machine

/-- Settles O41: each command writes the canonical form of its exact value, which fits exactly when the value does. -/
theorem arbitraryArithmeticIsExact : Obligations.ArbitraryArithmeticIsExact := by
  intro s d a b i v h
  have hexec : exec i s = s.writeT i d (canon v) := by
    rcases h with ⟨rfl, rfl⟩ | ⟨rfl, rfl⟩ | ⟨rfl, rfl⟩
    · rfl
    · rfl
    · rfl
  exact ⟨fun hfits => exists_setT_canon (hexec.trans (writeT_canon hfits i d)),
    fun hout => faults_iff.2 (hexec.trans (writeT_canon_capacity hout i d))⟩

/-- Settles O42: every sum is the canonical form of the sum of the values, and a canonical operand is that of its own. -/
theorem addLaws : Obligations.AddLaws := by
  refine ⟨fun s d a b hcanonical hvalid hwords hzero => ?zero, fun s d a b hzero hfits => ?zeroValue,
    fun s d a b hfits => ?comm, fun s d a b e hcanonical hvalid hwords hfits hdb hde => ?negate,
    fun s d a b hfits => ?canonical⟩
  case zero =>
    obtain ⟨t, hexec, -, harray⟩ := exists_setT (exec_tadd_zero (d := d) hzero (fitsCapacity_of_wordCount_le hwords))
    exact ⟨t, hexec, harray.trans (eq_canon hcanonical hvalid).symm⟩
  case zeroValue =>
    obtain ⟨t, hexec, -, harray⟩ := exists_setT (exec_tadd_zero (d := d) hzero hfits)
    exact ⟨t, hexec, harray ▸ canon_tval _, harray⟩
  case comm =>
    refine ⟨_, exec_tadd hfits, ?_⟩
    rw [add_comm] at hfits ⊢
    exact exec_tadd hfits
  case negate =>
    obtain ⟨t, hadd, honly, hsumT⟩ := exists_setT (exec_tadd (d := d) hfits)
    obtain ⟨u, hneg, honly', hnegT⟩ := exists_setT (i := .tneg e b) (s := t) (v := (t.getT b).neg) rfl
    have hparams : u.params = s.params := honly'.params_eq.trans honly.params_eq
    have hsum : (u.getT d).tval + (u.getT e).tval = (s.getT a).tval := by
      rw [honly'.2 d hde, hsumT, canon_tval, hnegT, TritArray.neg_tval, honly.2 b hdb.symm, add_neg_cancel_right]
    obtain ⟨v, hback, -, harray⟩ := exists_setT (exec_tadd (s := u) (d := d) (a := d) (b := e)
      (hsum ▸ fitsCapacity_of_wordCount_le (hparams ▸ hwords)))
    exact ⟨t, u, v, hadd, hneg, hback, by rw [harray, hsum, ← eq_canon hcanonical hvalid]⟩
  case canonical =>
    obtain ⟨t, hexec, -, -, hform, -⟩ := exists_setT_canon (exec_tadd (d := d) hfits)
    exact ⟨t, hexec, hform⟩

/-- Settles O43: the two runs write the same array or raise the same fault. -/
theorem resultsDependOnValues : Obligations.ResultsDependOnValues := by
  intro s t t' d a b c A B i hab hA hB hi ht ht'
  have hsame := exec_sameAnswer (s := s) (s' := (s.setT a A).setT b B) hi rfl rfl (by simp [hab, hA]) (by simp [hB])
  rw [ht, ht'] at hsame
  cases hsame with
  | write r => exact ⟨rfl, fun _ _ => by simp⟩
  | fault e w => exact ⟨rfl, fun hrec hclear => by simp [← hrec] at hclear⟩

/-- Settles O44: the canonical form of the value is what trimming gives, and no masked array of the value is shorter. -/
theorem ttrimCanonicalizes : Obligations.TtrimCanonicalizes := by
  intro s d a
  obtain ⟨t, hexec, honly, harray⟩ := exists_setT (i := .ttrim d a) (s := s) rfl
  refine ⟨t, hexec, honly, ?_⟩
  rw [harray]
  exact ⟨canon_tval _, canon_canonical _, canon_wf _, fun hwf =>
    ⟨(trimLen_eq_canon hwf.valid).symm, (canon_canonical _).len_le (canon_valid _) hwf.masked (canon_tval _)⟩⟩

/-- Settles O45: past the ceiling, a nonzero product is written in canonical form and zero as Z1. -/
theorem leftShiftOfArrays : Obligations.LeftShiftOfArrays := by
  intro s d a b i k h
  have hexec := exec_leftShift h
  have hprod : (s.getT a).tval ≠ 0 → (s.getT a).tval * pow3 k ≠ 0 := fun hne => mul_ne_zero hne (pow3_pos k).ne'
  refine ⟨fun hbig => faults_iff.2 (hexec.trans (if_pos hbig)), fun hk hne hfits => ?shifts, fun hk hzero hwords => ?zero,
    fun hk hout => ?capacity⟩
  case shifts =>
    rw [if_neg (by omega), TritArray.shiftUp, canonOrZ1_of_ne_zero (hprod hne), writeT_canon hfits] at hexec
    exact exists_setT_canon hexec
  case zero =>
    rw [if_neg (by omega), TritArray.shiftUp, hzero, zero_mul, canonOrZ1_zero, writeT_of_le (r := .z1) hwords] at hexec
    exact exists_setT hexec
  case capacity =>
    have hne : (s.getT a).tval ≠ 0 := fun h0 => hout (by
      have hmax := tritMax_nonneg (64 * s.params.maxWords)
      rw [h0, zero_mul]
      exact ⟨by omega, hmax⟩)
    rw [if_neg (by omega), TritArray.shiftUp, canonOrZ1_of_ne_zero (hprod hne), writeT_canon_capacity hout] at hexec
    exact faults_iff.2 hexec

/-- Settles O46: the result has the trits from position k on, so it never outgrows the source. -/
theorem rightShiftOfArrays : Obligations.RightShiftOfArrays := by
  intro s d a b i k h hone hwords
  obtain ⟨hval, hwf, hz1, hform⟩ := canonOrZ1_spec ((s.getT a).highVal k)
  have hcount : ((s.getT a).shiftDown k).wordCount ≤ s.params.maxWords :=
    canonOrZ1_wordCount_le hone (TritArray.highVal_bounds hwords k)
  obtain ⟨t, hexec, honly, harray⟩ := exists_setT ((exec_rightShift h).trans (writeT_of_le hcount))
  refine ⟨t, hexec, honly, ?_⟩
  rw [harray]
  refine ⟨hwf, (s.getT a).shiftDown_trit k, ?_⟩
  rw [TritArray.shiftDown_eq, hval]
  exact ⟨(s.getT a).highVal_nearest k, hz1, hform⟩

/-- Settles O47: past the range check the value is written, and sint_N fits N bits, so TTOINT gives it back. -/
theorem arbitraryConversions : Obligations.ArbitraryConversions := by
  refine ⟨fun s n d a => ⟨exists_ttoint, fun hout => ?overflow⟩, fun s n d a => ?tfromint⟩
  case overflow =>
    exact faults_iff.2 (ite_check_fails (fun h => by have := fitsNative_iff.1 h; omega) _ _)
  case tfromint =>
    obtain ⟨t, hexec, honly, harray⟩ := exists_setT (i := .tfromint n d a) (s := s) rfl
    have hval : (t.getT d).tval = s.sintN n a := harray ▸ canon_tval _
    refine ⟨t, hexec, honly, hval, harray ▸ canon_canonical _, harray ▸ canon_wf _,
      harray ▸ (canon_sintN_fits s n a le_rfl).wordCount_le, fun e => ?_⟩
    obtain ⟨hmin, hmax⟩ := sintN_bounds s n a
    obtain ⟨u, hback, -, hx⟩ := exists_ttoint (n := n) (d := e) (hval ▸ hmin) (hval ▸ hmax)
    exact ⟨u, hback, hx.trans hval⟩

/-- Settles O59: the word loop gives valid words of the same value, and trimming makes them canonical. -/
theorem addByWordsAgrees : Obligations.AddByWordsAgrees := by
  intro s d a b hfits
  obtain ⟨t, hexec, -, harray⟩ := exists_setT (exec_tadd (d := d) hfits)
  exact ⟨t, hexec, harray.trans (addByWords_eq_canon _ _).symm⟩

end Sys2Proof.Machine
end

section
/-! The slice of an array that TSPLICE writes, the source's two-word merge of it, and the command's check of its range
(44_range_splicer.md R230 to R232). -/

namespace Sys2Proof.Machine

/-! The slice of an array. -/

/-- The `count` trits of an array from position `start` on, not trimmed (44_range_splicer.md R230). -/
def TritArray.slice (a : TritArray) (start count : Nat) : TritArray := arrayOfTrits count fun i => a.trit (start + i)

section Slice
variable (a : TritArray) (start count : Nat)

@[simp] theorem TritArray.slice_len : (a.slice start count).len = count := rfl

@[simp] theorem TritArray.slice_wordCount : (a.slice start count).wordCount = wordsFor count := arrayOfTrits_wordCount ..

theorem TritArray.slice_wf : (a.slice start count).Wf := arrayOfTrits_wf ..

theorem TritArray.slice_trit {i : Nat} (hi : i < count) : (a.slice start count).trit i = a.trit (start + i) :=
  arrayOfTrits_trit (fun _ _ => a.trit_bounds _) hi

@[simp] theorem TritArray.slice_zero : a.slice start 0 = TritArray.empty := rfl

end Slice

/-! The two-word merge of the source. -/

/-- The merge of two neighbouring words, in both vectors (44_range_splicer.md R232). -/
def WordPair.merge (low next : WordPair) (bit : Nat) : WordPair :=
  ⟨mergeWords low.neg next.neg bit, mergeWords low.pos next.pos bit⟩

/-- Bit i of a merge lies in the low word, or in the next one when it runs past the top of the low one. -/
theorem getLsbD_mergeWords (low next : TritBits) {bit i : Nat} (hbit : bit < 64) (hi : i < 64) :
    (mergeWords low next bit).getLsbD i =
      if bit + i < 64 then low.getLsbD (bit + i) else next.getLsbD (bit + i - 64) := by
  rw [mergeWords]
  by_cases h0 : bit = 0
  · simp [-BitVec.getLsbD_eq_getElem, h0, hi]
  · rw [if_neg h0, BitVec.getLsbD_or, BitVec.getLsbD_ushiftRight, BitVec.getLsbD_shiftLeft]
    by_cases hfit : bit + i < 64
    · simp [-BitVec.getLsbD_eq_getElem, hfit, show i < 64 - bit by omega]
    · rw [if_neg hfit, BitVec.getLsbD_of_ge _ _ (by omega), show i - (64 - bit) = bit + i - 64 by omega]
      simp [-BitVec.getLsbD_eq_getElem, hi, show ¬i < 64 - bit by omega]

section Merge
variable {low next : WordPair} {bit : Nat}

theorem WordPair.merge_trit (hbit : bit < 64) {i : Nat} (hi : i < 64) :
    (low.merge next bit).trit i = if bit + i < 64 then low.trit (bit + i) else next.trit (bit + i - 64) := by
  simp only [WordPair.trit, Machine.trit, WordPair.merge, getLsbD_mergeWords _ _ hbit hi]
  split
  · rfl
  · rfl

theorem WordPair.merge_valid (hlow : low.Valid) (hnext : next.Valid) (hbit : bit < 64) : (low.merge next bit).Valid := by
  rw [WordPair.valid_iff] at *
  intro i hi
  simp only [WordPair.merge, getLsbD_mergeWords _ _ hbit hi]
  split
  · exact hlow _ ‹_›
  · exact hnext _ (by omega)

end Merge

/-- The merge at bit s mod 64 of word s / 64 + j and the next holds the trits from position s + 64 j on. -/
theorem TritArray.merge_word_trit (a : TritArray) (s j : Nat) {k : Nat} (hk : k < 64) :
    ((a.word (s / 64 + j)).merge (a.word (s / 64 + j + 1)) (s % 64)).trit k = a.trit (s + (64 * j + k)) := by
  rw [WordPair.merge_trit (Nat.mod_lt _ (by norm_num)) hk, TritArray.trit]
  split
  · next hfit =>
    rw [show (s + (64 * j + k)) / 64 = s / 64 + j by omega, show (s + (64 * j + k)) % 64 = s % 64 + k by omega]
  · next hpast =>
    rw [show (s + (64 * j + k)) / 64 = s / 64 + j + 1 by omega,
      show (s + (64 * j + k)) % 64 = s % 64 + k - 64 by omega]

/-- Under the mask of the positions of its word below `count`, the merge is word j of the slice. -/
theorem TritArray.keepLow_merge_word {a : TritArray} (h : a.Valid) (s count j : Nat) :
    ((a.word (s / 64 + j)).merge (a.word (s / 64 + j + 1)) (s % 64)).keepLow (count - 64 * j) =
      pairOfTrits fun k => if 64 * j + k < count then a.trit (s + (64 * j + k)) else 0 := by
  have hmerge := WordPair.merge_valid (TritArray.word_valid h (s / 64 + j)) (TritArray.word_valid h (s / 64 + j + 1))
    (Nat.mod_lt s (by norm_num : 0 < 64))
  refine WordPair.ext_trit (WordPair.keepLow_valid hmerge _) (pairOfTrits_valid _) fun k hk => ?_
  have hmask : k < count - 64 * j ↔ 64 * j + k < count := by omega
  rw [WordPair.keepLow_trit, a.merge_word_trit s j hk, pairOfTrits_trit (fun i _ => ?digits) hk]
  · simp only [hmask]
  case digits =>
    split
    · exact a.trit_bounds _
    · decide

/-- The source's splice is the slice, word by word (44_range_splicer.md R232). -/
theorem spliceByWords_eq_slice {a : TritArray} (h : a.Valid) (s count : Nat) : spliceByWords a s count = a.slice s count :=
  congrArg (TritArray.mk count) (List.map_congr_left fun j _ => TritArray.keepLow_merge_word h s count j)

/-! The check of the range. -/

/-- A bound that is not negative counts from the start (44_range_splicer.md R231). -/
theorem resolveBound_natCast (n len : Nat) : resolveBound n len = n := if_neg (by omega)

section Range
variable {s : State} {d a : TReg} {b c : XReg} {start stop : Int}
  (hstart : start = resolveBound (s.sx b) (s.getT a).len) (hstop : stop = resolveBound (s.sx c) (s.getT a).len)
include hstart hstop

/-- A legal range is sliced out; the empty one gives EMPTY, which is the slice of no trits. -/
theorem exec_tsplice (h : 0 ≤ start ∧ start ≤ stop ∧ stop ≤ (s.getT a).len) :
    exec (.tsplice d a b c) s = .next (s.setT d ((s.getT a).slice start.toNat (stop - start).toNat)) := by
  subst hstart hstop
  refine (if_neg (not_not_intro h)).trans ?_
  split
  · next hempty => rw [hempty, Int.toNat_zero, TritArray.slice_zero]
  · rfl

theorem exec_tsplice_outside (h : ¬(0 ≤ start ∧ start ≤ stop ∧ stop ≤ (s.getT a).len)) :
    exec (.tsplice d a b c) s = .next (s.raise .bounds (encode (.tsplice d a b c))) := by
  subst hstart hstop
  exact if_pos h

end Range

end Sys2Proof.Machine
end

section
/-! The statements of 44_range_splicer.md settled. -/

namespace Sys2Proof.Machine

/-- Settles O48: past the check of the resolved bounds, the slice of the range is written. -/
theorem spliceIsCorrect : Obligations.SpliceIsCorrect := by
  refine fun s d a b c start stop hstart hstop => ⟨fun h0 hle hlen => ?legal, fun hout => ?bounds⟩
  case legal =>
    obtain ⟨t, hexec, honly, harray⟩ := exists_setT (exec_tsplice (d := d) hstart hstop ⟨h0, hle, hlen⟩)
    refine ⟨t, hexec, honly, ?_⟩
    rw [harray]
    exact ⟨Int.toNat_of_nonneg (by omega), TritArray.slice_wordCount .., TritArray.slice_wf ..,
      fun i hi => TritArray.slice_trit _ _ _ hi⟩
  case bounds => exact faults_iff.2 (exec_tsplice_outside hstart hstop (by omega))

/-- Settles O49: the masked merge of the words is the slice that TSPLICE writes. -/
theorem spliceByWordsAgrees : Obligations.SpliceByWordsAgrees := by
  intro s d a b c start stop hwf hb hc hlt hlen
  have hstart : (start : Int) = resolveBound (s.sx b) (s.getT a).len := by rw [hb, resolveBound_natCast]
  have hstop : (stop : Int) = resolveBound (s.sx c) (s.getT a).len := by rw [hc, resolveBound_natCast]
  obtain ⟨t, hexec, -, harray⟩ := exists_setT (exec_tsplice (d := d) hstart hstop (by omega))
  refine ⟨t, hexec, ?_⟩
  rw [harray, spliceByWords_eq_slice hwf.valid, Int.toNat_natCast, show ((stop : Int) - start).toNat = stop - start by omega]

end Sys2Proof.Machine
end

section
/-! What the codec commands do to the two halves of the codec: the check of the FIFO level, the results of each command, and
the classes of bytes (45_stream_codec.md R252 to R264). -/

namespace Sys2Proof.Machine

/-! Pushing: the check of the level of a FIFO, and the half of the codec afterwards. -/

/-- The check before a push is passed by an empty push, and by one that has room. -/
theorem ite_push {α : Type} {s : State} {held : Nat} {out : List α} (h : out = [] ∨ held + out.length ≤ s.params.fifoDepth)
    (x y : Outcome) : (if out ≠ [] ∧ ¬s.fifoHasRoom held out.length then x else y) = y :=
  if_neg fun ⟨hne, hfull⟩ => hfull (decide_eq_true (h.resolve_left hne))

theorem ite_push_full {α : Type} {s : State} {held : Nat} {out : List α} (hne : out ≠ [])
    (h : s.params.fifoDepth < held + out.length) (x y : Outcome) :
    (if out ≠ [] ∧ ¬s.fifoHasRoom held out.length then x else y) = x :=
  if_pos ⟨hne, by simpa [State.fifoHasRoom] using h⟩

section Halves
variable {i : Instr} {s : State}

theorem exists_setEnc {e : Encoder} (h : exec i s = .next (s.setEnc e)) : ∃ u, exec i s = .next u ∧ OnlyEnc s u ∧ u.enc = e :=
  ⟨_, h, rfl, rfl⟩

theorem exists_setDec {d : Decoder} (h : exec i s = .next (s.setDec d)) : ∃ u, exec i s = .next u ∧ OnlyDec s u ∧ u.dec = d :=
  ⟨_, h, rfl, rfl⟩

/-- Pushing no symbol drops the pending digits alone. -/
theorem exists_setDec_drop (h : exec i s = .next (s.decPush 0 0 [])) :
    ∃ u, exec i s = .next u ∧ OnlyDec s u ∧ u.dec = ⟨0, 0, s.dec.fifo⟩ :=
  ⟨_, h, rfl, congrArg (Decoder.mk 0 0) (List.append_nil _)⟩

/-- Legal pending digits are stored as they are (log entry 8). -/
theorem encPush_fields {p acc : Nat} (hp : p ≤ 4) (ha : acc < 3 ^ p) (s : State) (out : List Nat) :
    (s.encPush p acc out).enc.off.toNat = p ∧ (s.encPush p acc out).enc.acc.toNat = acc := by
  have h81 : 3 ^ p ≤ 81 := Nat.pow_le_pow_right (by norm_num) hp
  exact ⟨(BitVec.toNat_ofNat ..).trans (Nat.mod_eq_of_lt (by omega)),
    (BitVec.toNat_ofNat ..).trans (Nat.mod_eq_of_lt (by omega))⟩

theorem decPush_fields {q pend : Nat} (hq : q ≤ 2) (hp : pend < 3 ^ q) (s : State) (out : List Int) :
    (s.decPush q pend out).dec.off.toNat = q ∧ (s.decPush q pend out).dec.pend.toNat = pend := by
  have h9 : 3 ^ q ≤ 9 := Nat.pow_le_pow_right (by norm_num) hq
  exact ⟨(BitVec.toNat_ofNat ..).trans (Nat.mod_eq_of_lt (by omega)),
    (BitVec.toNat_ofNat ..).trans (Nat.mod_eq_of_lt (by omega))⟩

end Halves

/-! The encoder's commands. -/

section Encoder
variable {s : State} {a : XReg}

theorem exec_encsym_domain (h : s.sx a < -13 ∨ 13 < s.sx a) :
    exec (.encsym a) s = .next (s.raise .domain (encode (.encsym a))) := if_pos h

/-- A symbol makes at most one byte. -/
theorem encStep_length_le (p acc u : Nat) : (encStep p acc u).2.2.length ≤ 1 := by
  by_cases h : p < 2
  · rw [encStep_of_lt h]
    exact Nat.zero_le _
  · rw [encStep_of_ge (by omega)]
    exact le_rfl

section Symbol
variable {u : Nat} {r : Nat × Nat × List Nat} (hu : s.sx a + 13 = u) (hle : u ≤ 26)
  (hr : encStep s.enc.off.toNat s.enc.acc.toNat u = r)
include hu hle hr

/-- The symbol is folded in as its biased value u. -/
theorem exec_encsym (hroom : r.2.2 = [] ∨ s.enc.fifo.length + r.2.2.length ≤ s.params.fifoDepth) :
    exec (.encsym a) s = .next (s.encPush r.1 r.2.1 r.2.2) := by
  subst hr
  refine (if_neg (by omega)).trans ?_
  rw [hu, Int.toNat_natCast]
  exact ite_push hroom _ _

theorem exec_encsym_full (hne : r.2.2 ≠ []) (hfull : s.params.fifoDepth < s.enc.fifo.length + r.2.2.length) :
    exec (.encsym a) s = .next (s.raise .fifoFull (encode (.encsym a))) := by
  subst hr
  refine (if_neg (by omega)).trans ?_
  rw [hu, Int.toNat_natCast]
  exact ite_push_full hne hfull _ _

end Symbol

variable {out : List Nat}

theorem exec_encend (hout : encFlush s.enc.off.toNat s.enc.acc.toNat = out)
    (hroom : out = [] ∨ s.enc.fifo.length + out.length ≤ s.params.fifoDepth) :
    exec .encend s = .next (s.encPush 0 0 out) := by
  subst hout
  exact ite_push hroom _ _

theorem exec_encend_full (hout : encFlush s.enc.off.toNat s.enc.acc.toNat = out) (hne : out ≠ [])
    (hfull : s.params.fifoDepth < s.enc.fifo.length + out.length) :
    exec .encend s = .next (s.raise .fifoFull (encode .encend)) := by
  subst hout
  exact ite_push_full hne hfull _ _

/-- A group that is not empty is closed by one byte. -/
theorem encFlush_length {p : Nat} (h : p ≠ 0) (acc : Nat) : (encFlush p acc).length = 1 := by
  by_cases h3 : 3 ≤ p
  · rw [encFlush_of_ge h3, List.length_singleton]
  · rw [encFlush_of_lt h (by omega), List.length_singleton]

theorem encFlush_length_le (p acc : Nat) : (encFlush p acc).length ≤ 1 := by
  by_cases h : p = 0
  · subst h
    exact Nat.zero_le _
  · exact (encFlush_length h acc).le

/-- What closes a group is a data byte or a terminator of one or two digits. -/
theorem encFlush_unmarked {p acc : Nat} (hp : p ≤ 4) (ha : acc < 3 ^ p) :
    ∀ b ∈ encFlush p acc, b ≤ 255 ∧ (b < 243 ∨ 246 < b) := by
  by_cases h0 : p = 0
  · subst h0
    exact nofun
  · by_cases h3 : 3 ≤ p
    · have h81 : 3 ^ p ≤ 81 := Nat.pow_le_pow_right (n := 3) (by norm_num) hp
      rw [encFlush_of_ge h3, List.forall_mem_singleton]
      omega
    · have h9 : 3 ^ p ≤ 3 ^ 2 := Nat.pow_le_pow_right (by norm_num) (by omega)
      rw [encFlush_of_lt h0 (by omega), List.forall_mem_singleton]
      omega

theorem exec_enchdr (hoff : s.enc.off = 0) (hroom : s.enc.fifo.length + 2 ≤ s.params.fifoDepth) :
    exec .enchdr s = .next (s.setEnc ⟨0, s.enc.acc, s.enc.fifo ++ [245, 244]⟩) := by
  rw [← hoff]
  exact (if_neg (not_not_intro hoff)).trans (if_neg (not_not_intro (decide_eq_true hroom)))

theorem exec_enchdr_full (hoff : s.enc.off = 0) (hfull : s.params.fifoDepth < s.enc.fifo.length + 2) :
    exec .enchdr s = .next (s.raise .fifoFull (encode .enchdr)) :=
  (if_neg (not_not_intro hoff)).trans (if_pos (by simpa [State.fifoHasRoom] using hfull))

theorem exec_enchdr_state (hoff : s.enc.off ≠ 0) : exec .enchdr s = .next (s.raise .state (encode .enchdr)) := if_pos hoff

end Encoder

/-! The classes of bytes (45_stream_codec.md R267). -/

section Classes
variable {f0f : Bool} {q pend b : Nat}

theorem decByte_data (h : b < 243) : decByte f0f q pend b = .ok (decData q pend b) := if_pos h

theorem decByte_unassigned : decByte f0f q pend 243 = .error .codec := rfl

theorem decByte_marker (h : b = 244 ∨ b = 245) : decByte f0f q pend b = .ok (0, 0, []) := by
  rcases h with rfl | rfl
  · rfl
  · rfl

theorem decByte_terminator (h : 246 ≤ b) : decByte f0f q pend b = decTerminator f0f q pend b := by
  rw [decByte, if_neg (by omega), if_neg (by omega), if_neg (by omega)]

theorem decByte_terminator_symbol (h : 246 ≤ b) (hq : q ≠ 0) (ht : 255 - b < 3 ^ (3 - q)) :
    decByte f0f q pend b = .ok (0, 0, [((pend + (255 - b) * 3 ^ q : Nat) : Int) - 13]) := by
  rw [decByte_terminator h, decTerminator, if_neg hq, if_neg (not_le.2 ht)]

theorem decByte_terminator_codec (h : 246 ≤ b) (hq : q ≠ 0) (ht : 3 ^ (3 - q) ≤ 255 - b) :
    decByte f0f q pend b = .error .codec := by
  rw [decByte_terminator h, decTerminator, if_neg hq, if_pos ht]

/-- A data byte with no digits held over makes one symbol and leaves two digits. -/
theorem decData_of_zero (h : q = 0) :
    decData q pend b = (2, (pend + b * 3 ^ q) / 27, [(((pend + b * 3 ^ q) % 27 : Nat) : Int) - 13]) := by
  subst h
  rw [decData_zero, pow_zero, mul_one]

/-- A data byte with digits held over makes two symbols and leaves one digit less. -/
theorem decData_of_ne_zero (h0 : q ≠ 0) (h2 : q ≤ 2) :
    decData q pend b = (q - 1, (pend + b * 3 ^ q) / 729,
      [(((pend + b * 3 ^ q) % 27 : Nat) : Int) - 13, (((pend + b * 3 ^ q) / 27 % 27 : Nat) : Int) - 13]) := by
  obtain rfl | rfl : q = 1 ∨ q = 2 := by omega
  · rw [decData_one, Nat.div_div_eq_div_mul]
    rfl
  · rw [decData_two, Nat.div_div_eq_div_mul]
    rfl

end Classes

/-! The decoder's commands. -/

section Decoder
variable {s : State} {a : XReg}

theorem exec_decbyte_domain (h : s.sx a < 0 ∨ 255 < s.sx a) :
    exec (.decbyte a) s = .next (s.raise .domain (encode (.decbyte a))) := if_pos h

variable {b : Nat} (hb : s.sx a = b) (hle : b ≤ 255)
include hb hle

theorem exec_decbyte_error {e : ErrorCode} (hr : decByte s.f0f s.dec.off.toNat s.dec.pend.toNat b = .error e) :
    exec (.decbyte a) s = .next (s.raise e (encode (.decbyte a))) := by
  refine (if_neg (by omega)).trans ?_
  rw [hb, Int.toNat_natCast, hr]
  rfl

variable {r : Nat × Nat × List Int} (hr : decByte s.f0f s.dec.off.toNat s.dec.pend.toNat b = .ok r)
include hr

theorem exec_decbyte (hroom : s.dec.fifo.length + r.2.2.length ≤ s.params.fifoDepth) :
    exec (.decbyte a) s = .next (s.decPush r.1 r.2.1 r.2.2) := by
  refine (if_neg (by omega)).trans ?_
  rw [hb, Int.toNat_natCast, hr]
  exact if_neg (not_not_intro (decide_eq_true hroom))

theorem exec_decbyte_full (hfull : s.params.fifoDepth < s.dec.fifo.length + r.2.2.length) :
    exec (.decbyte a) s = .next (s.raise .fifoFull (encode (.decbyte a))) := by
  refine (if_neg (by omega)).trans ?_
  rw [hb, Int.toNat_natCast, hr]
  exact if_pos (by simpa [State.fifoHasRoom] using hfull)

end Decoder

/-! Taking the oldest entry of a FIFO. -/

section Pops
variable {s : State} {d : XReg}

theorem exec_bpop {b : Byte} {rest : List Byte} (h : s.enc.fifo = b :: rest) :
    exec (.bpop d) s = .next ((s.setX d (b.setWidth 128)).setEnc { s.enc with fifo := rest }) := by
  change execBpop d s = _
  rw [execBpop, h]

theorem exec_bpop_empty (h : s.enc.fifo = []) : exec (.bpop d) s = .next (s.raise .fifoEmpty (encode (.bpop d))) := by
  change execBpop d s = _
  rw [execBpop, h]
  rfl

theorem exec_spop {v : Int} {rest : List Int} (h : s.dec.fifo = v :: rest) :
    exec (.spop d) s = .next ((s.setXInt d v).setDec { s.dec with fifo := rest }) := by
  change execSpop d s = _
  rw [execSpop, h]

theorem exec_spop_empty (h : s.dec.fifo = []) : exec (.spop d) s = .next (s.raise .fifoEmpty (encode (.spop d))) := by
  change execSpop d s = _
  rw [execSpop, h]
  rfl

end Pops

end Sys2Proof.Machine
end

section
/-! The round trip of the codec: what decoding a stream of bytes leaves, and the digits by which the decoder of the bytes so
far lags behind the symbols so far, which are the pending digits of the encoder (45_stream_codec.md R250, R268). -/

namespace Sys2Proof.Machine

/-! Symbols as digits (45_stream_codec.md R250). -/

/-- What the codec holds of a symbol: three base-3 digits of this value. -/
def biased (v : Int) : Nat := (v + 13).toNat

/-- The value of the digits of symbols, the first symbol lowest. -/
def symbolsVal (vs : List Int) : Nat := Nat.ofDigits 27 (vs.map biased)

theorem symbolsVal_cons (v : Int) (vs : List Int) : symbolsVal (v :: vs) = biased v + 27 * symbolsVal vs :=
  Nat.ofDigits_cons ..

theorem symbolsVal_concat (vs : List Int) (v : Int) :
    symbolsVal (vs ++ [v]) = symbolsVal vs + biased v * 3 ^ (3 * vs.length) := by
  rw [symbolsVal, List.map_append, Nat.ofDigits_append, List.length_map, List.map_singleton, Nat.ofDigits_singleton, pow_mul,
    Nat.mul_comm (biased v)]
  rfl

/-- The decoder's loop takes the first symbols off k digits of value t, when these are the low digits of `lag`. -/
theorem takeSymbols_of_value (fuel : Nat) {k t a : Nat} {lag : List Int} (hlag : ∀ v ∈ lag, -13 ≤ v ∧ v ≤ 13)
    (hlen : k ≤ 3 * lag.length + 2) (hval : symbolsVal lag = t + a * 3 ^ k) :
    ∃ q pend new rest, takeSymbols fuel k t = (q, pend, new) ∧ lag = new ++ rest ∧ 3 * new.length + q = k ∧
      symbolsVal rest = pend + a * 3 ^ q := by
  induction fuel generalizing k t lag with
  | zero => exact ⟨k, t, [], lag, rfl, rfl, by simp, hval⟩
  | succ fuel ih =>
    by_cases hk : 3 ≤ k
    · obtain ⟨k, rfl⟩ : ∃ j, k = j + 3 := ⟨k - 3, by omega⟩
      cases lag with
      | nil =>
        simp only [List.length_nil] at hlen
        omega
      | cons v vs =>
        obtain ⟨hv, hvs⟩ := List.forall_mem_cons.1 hlag
        have hsplit : biased v + 27 * symbolsVal vs = t + 27 * (a * 3 ^ k) := by
          rw [← symbolsVal_cons, hval, pow_add]
          ring
        simp only [List.length_cons] at hlen
        obtain ⟨q, pend, new, rest, htake, happ, hcount, hrest⟩ := ih (k := k) (t := t / 27) hvs (by omega) (by
          simp only [biased] at hsplit
          omega)
        refine ⟨q, pend, v :: new, rest, ?_, congrArg (v :: ·) happ, ?_, hrest⟩
        · have hhead : ((t % 27 : Nat) : Int) - 13 = v := by
            simp only [biased] at hsplit
            omega
          rw [takeSymbols, if_pos hk, Nat.add_sub_cancel, htake, hhead]
        · simp only [List.length_cons]
          omega
    · exact ⟨k, t, [], lag, if_neg hk, rfl, by simp, hval⟩

/-! Decoding a list of bytes. -/

theorem sx_setXInt_same (s : State) (d : XReg) {v : Int} (h1 : -(2 ^ 127) ≤ v) (h2 : v < 2 ^ 127) :
    (s.setXInt d v).sx d = v := by
  rw [State.sx, State.setXInt, getX_setX, if_pos rfl, toInt_scalarOfInt h1 h2]

theorem decodeBytes_cons {b : Byte} {bs : List Byte} {s t : State} (h : exec (.decbyte 0) (s.setXInt 0 b.toNat) = .next t)
    (hf : t.faultRec.fault = false) : decodeBytes (b :: bs) s = decodeBytes bs t := by
  simp [decodeBytes, h, hf]

theorem decodeBytes_append (as bs : List Byte) (s : State) :
    decodeBytes (as ++ bs) s = (decodeBytes as s).bind (decodeBytes bs) := by
  induction as generalizing s with
  | nil => rfl
  | cons a as ih =>
    simp only [List.cons_append, decodeBytes]
    split
    · split
      · rfl
      · exact ih _
    · rfl

/-- From an empty decoder and no fault recorded, decoding the bytes raises no fault and leaves q pending digits of value pend
and the symbols `out`, when these have room. -/
def DecodesTo (bs : List Byte) (q pend : Nat) (out : List Int) : Prop :=
  ∀ s : State, s.dec = ⟨0, 0, []⟩ → s.faultRec.fault = false → out.length ≤ s.params.fifoDepth →
    ∃ t, decodeBytes bs s = some t ∧ t.params = s.params ∧ t.faultRec = s.faultRec ∧ t.dec.off.toNat = q ∧
      t.dec.pend.toNat = pend ∧ t.dec.fifo = out

theorem DecodesTo.nil : DecodesTo [] 0 0 [] :=
  fun s hdec _ _ => ⟨s, rfl, rfl, rfl, by simp [hdec], by simp [hdec], by simp [hdec]⟩

/-- One more byte, which the decoder takes under either offset-0 policy. -/
theorem DecodesTo.concat {bs : List Byte} {b : Byte} {q pend q' pend' : Nat} {out new : List Int} (h : DecodesTo bs q pend out)
    (hq : q ≤ 2) (hp : pend < 3 ^ q) (hb : ∀ f0f, decByte f0f q pend b.toNat = .ok (q', pend', new)) :
    DecodesTo (bs ++ [b]) q' pend' (out ++ new) := by
  intro s hdec hf hroom
  rw [List.length_append] at hroom
  obtain ⟨t, hrun, hparams, hrec, rfl, rfl, rfl⟩ := h s hdec hf (by omega)
  have hbyte : (t.setXInt 0 b.toNat).sx 0 = b.toNat := sx_setXInt_same t 0 (by omega) (by have := b.isLt; omega)
  have hexec : exec (.decbyte 0) (t.setXInt 0 b.toNat) = .next ((t.setXInt 0 b.toNat).decPush q' pend' new) :=
    exec_decbyte hbyte (Nat.le_of_lt_succ b.isLt) (hb t.f0f) (hparams ▸ hroom)
  obtain ⟨hq', hp', -⟩ := decByte_legal hq hp (hb t.f0f)
  obtain ⟨hoff, hpend⟩ := decPush_fields hq' hp' (t.setXInt 0 b.toNat) new
  refine ⟨(t.setXInt 0 b.toNat).decPush q' pend' new, ?_, hparams, hrec, hoff, hpend, rfl⟩
  rw [decodeBytes_append, hrun, Option.bind_some, decodeBytes_cons hexec ((congrArg _ hrec).trans hf), decodeBytes]

/-- The header is two markers, which leave an empty decoder empty (45_stream_codec.md R257). -/
theorem DecodesTo.header : DecodesTo [245, 244] 0 0 [] :=
  (DecodesTo.nil.concat (b := 245) (by decide) (by decide) fun _ => decByte_marker (.inr rfl)).concat (b := 244) (by decide)
    (by decide) fun _ => decByte_marker (.inl rfl)

/-- A data byte whose digits are the next ones of the symbols `lag`: the decoder takes the first of these symbols and holds
the digits left over, below the digits of value a. -/
theorem DecodesTo.data {bs : List Byte} {q pend b a : Nat} {out lag : List Int} (h : DecodesTo bs q pend out) (hq : q ≤ 2)
    (hp : pend < 3 ^ q) (hlag : ∀ v ∈ lag, -13 ≤ v ∧ v ≤ 13) (hb : b < 243) (hlen : q + 5 ≤ 3 * lag.length + 2)
    (hval : symbolsVal lag = pend + (b + 243 * a) * 3 ^ q) :
    ∃ q' pend' new rest, DecodesTo (bs ++ [BitVec.ofNat 8 b]) q' pend' (out ++ new) ∧ q' ≤ 2 ∧ pend' < 3 ^ q' ∧
      lag = new ++ rest ∧ 3 * new.length + q' = q + 5 ∧ symbolsVal rest = pend' + a * 3 ^ q' := by
  obtain ⟨q', pend', new, rest, htake, happ, hcount, hrest⟩ :=
    takeSymbols_of_value 3 (k := q + 5) (t := pend + b * 3 ^ q) (a := a) hlag hlen (by rw [hval, pow_add]; ring)
  have hdata : decData q pend b = (q', pend', new) := htake
  obtain ⟨hq', hp', -⟩ := hdata ▸ decData_legal hq hp hb
  refine ⟨q', pend', new, rest, h.concat hq hp fun f0f => ?_, hq', hp', happ, hcount, hrest⟩
  rw [toNat_level (by omega), decByte_data hb, hdata]

/-! The lag of the decoder behind the encoder. -/

/-- Decoding the bytes bs gives the symbols `out` and q digits of the symbols `lag`; the n digits that are missing have the
value a. -/
structure Lag (bs : List Byte) (n a q pend : Nat) (out lag : List Int) : Prop where
  decodes : DecodesTo bs q pend out
  offset : q ≤ 2
  pending : pend < 3 ^ q
  symbols : ∀ v ∈ lag, -13 ≤ v ∧ v ≤ 13
  count : 3 * lag.length = q + n
  value : symbolsVal lag = pend + a * 3 ^ q

/-- The bytes bs hold the digits of the symbols vs but for the last n, which have the value a. -/
def Leaves (bs : List Byte) (vs : List Int) (n a : Nat) : Prop :=
  ∃ q pend out lag, Lag bs n a q pend out lag ∧ out ++ lag = vs

theorem leaves_of_empty {bs : List Byte} (h : DecodesTo bs 0 0 []) : Leaves bs [] 0 0 :=
  ⟨0, 0, [], [], ⟨h, by decide, by decide, by simp, rfl, rfl⟩, rfl⟩

section Leaves
variable {bs : List Byte} {vs : List Int} {n a : Nat}

/-- One more symbol: its three digits are missing too. -/
theorem Leaves.symbol (h : Leaves bs vs n a) {v : Int} (hv : -13 ≤ v ∧ v ≤ 13) :
    Leaves bs (vs ++ [v]) (n + 3) (a + biased v * 3 ^ n) := by
  obtain ⟨q, pend, out, lag, hl, rfl⟩ := h
  refine ⟨q, pend, out, lag ++ [v], ⟨hl.decodes, hl.offset, hl.pending, ?_, ?_, ?_⟩, (List.append_assoc ..).symm⟩
  · exact List.forall_mem_append.2 ⟨hl.symbols, List.forall_mem_singleton.2 hv⟩
  · rw [List.length_append, List.length_singleton, Nat.mul_add, hl.count, Nat.add_assoc]
  · rw [symbolsVal_concat, hl.count, hl.value, pow_add]
    ring

/-- A data byte of the next five digits: they are no more missing. -/
theorem Leaves.data {b : Nat} (h : Leaves bs vs (n + 5) (b + 243 * a)) (hb : b < 243) :
    Leaves (bs ++ [BitVec.ofNat 8 b]) vs n a := by
  obtain ⟨q, pend, out, lag, hl, rfl⟩ := h
  have hcount := hl.count
  obtain ⟨q', pend', new, rest, hdec, hq', hp', rfl, hnew, hrest⟩ :=
    hl.decodes.data hl.offset hl.pending hl.symbols hb (by omega) hl.value
  rw [List.length_append] at hcount
  exact ⟨q', pend', out ++ new, rest,
    ⟨hdec, hq', hp', (List.forall_mem_append.1 hl.symbols).2, by omega, hrest⟩, List.append_assoc ..⟩

/-- The encoder step keeps the bytes and the pending digits together the digits of the symbols (45_stream_codec.md R251). -/
theorem Leaves.encStep {p acc : Nat} (h : Leaves bs vs p acc) {v : Int} (hv : -13 ≤ v ∧ v ≤ 13) {r : Nat × Nat × List Nat}
    (hr : encStep p acc (biased v) = r) : Leaves (bs ++ r.2.2.map (BitVec.ofNat 8)) (vs ++ [v]) r.1 r.2.1 := by
  have hfold := h.symbol hv
  by_cases hp : p < 2
  · rw [← hr, encStep_of_lt hp]
    simpa using hfold
  · rw [← hr, encStep_of_ge (by omega)]
    rw [show p + 3 = p - 2 + 5 by omega, ← Nat.mod_add_div (acc + biased v * 3 ^ p) 243] at hfold
    exact hfold.data (Nat.mod_lt _ (by norm_num))

/-- The last data byte of a partial group: zeros fill it up, and make no symbol (45_stream_codec.md R253, R261). -/
theorem Leaves.lastData (h : Leaves bs vs n a) (hlow : 3 ≤ n) (hhigh : n ≤ 4) (ha : a < 3 ^ n) :
    ∃ q pend, DecodesTo (bs ++ [BitVec.ofNat 8 a]) q pend vs := by
  obtain ⟨q, pend, out, lag, hl, rfl⟩ := h
  have hcount := hl.count
  have h81 : 3 ^ n ≤ 81 := Nat.pow_le_pow_right (n := 3) (by norm_num) hhigh
  obtain ⟨q', pend', new, rest, hdec, hq', -, rfl, hnew, -⟩ :=
    hl.decodes.data (a := 0) hl.offset hl.pending hl.symbols (by omega) (by omega) hl.value
  rw [List.length_append] at hcount
  obtain rfl : rest = [] := List.eq_nil_of_length_eq_zero (by omega)
  exact ⟨q', pend', by rwa [List.append_nil]⟩

/-- The terminator of a partial group: the missing digits complete the one symbol begun (45_stream_codec.md R253, R258). -/
theorem Leaves.terminator (h : Leaves bs vs n a) (hlow : n ≠ 0) (hhigh : n < 3) (ha : a < 3 ^ n) :
    DecodesTo (bs ++ [BitVec.ofNat 8 (255 - a)]) 0 0 vs := by
  obtain ⟨q, pend, out, lag, hl, rfl⟩ := h
  have hcount := hl.count
  have hq := hl.offset
  have h9 : 3 ^ n ≤ 3 ^ 2 := Nat.pow_le_pow_right (by norm_num) (by omega)
  obtain ⟨v, rfl⟩ : ∃ v, lag = [v] := List.length_eq_one_iff.1 (by omega)
  have hv := List.forall_mem_singleton.1 hl.symbols
  have hvalue : biased v = pend + a * 3 ^ q := by simpa [symbolsVal_cons, symbolsVal] using hl.value
  refine hl.decodes.concat hl.offset hl.pending fun f0f => ?_
  obtain rfl : n = 3 - q := by simp only [List.length_singleton] at hcount; omega
  rw [toNat_level (by omega), decByte_terminator_symbol (by omega) (by omega) (by omega), show 255 - (255 - a) = a by omega,
    ← hvalue, show ((biased v : Nat) : Int) - 13 = v by simp only [biased]; omega]

/-- Closing the group: the decoder of all the bytes has all the symbols (45_stream_codec.md R253). -/
theorem Leaves.encFlush (h : Leaves bs vs n a) (hn : n ≤ 4) (ha : a < 3 ^ n) :
    ∃ q pend, DecodesTo (bs ++ (encFlush n a).map (BitVec.ofNat 8)) q pend vs := by
  by_cases h0 : n = 0
  · subst h0
    obtain ⟨q, pend, out, lag, hl, rfl⟩ := h
    have hcount := hl.count
    have hq := hl.offset
    obtain rfl : lag = [] := List.eq_nil_of_length_eq_zero (by omega)
    exact ⟨q, pend, by simpa [encFlush_zero] using hl.decodes⟩
  · by_cases h3 : 3 ≤ n
    · rw [encFlush_of_ge h3]
      exact h.lastData h3 hn ha
    · rw [encFlush_of_lt h0 (by omega)]
      exact ⟨0, 0, h.terminator h0 (by omega) ha⟩

end Leaves

/-! Encoding a list of symbols. -/

/-- A byte that a group ends in or is made of: no marker, and neither 243 nor 246. -/
def Unmarked (b : Byte) : Prop := b.toNat < 243 ∨ 246 < b.toNat

/-- t is s with at most n bytes more in BF, none of them a marker; the decoder and the fault record are as they were. -/
structure Emits (n : Nat) (s t : State) : Prop where
  params : t.params = s.params
  faultRec : t.faultRec = s.faultRec
  dec : t.dec = s.dec
  bytes : ∃ new, t.enc.fifo = s.enc.fifo ++ new ∧ new.length ≤ n ∧ ∀ b ∈ new, Unmarked b

theorem Emits.refl (s : State) : Emits 0 s s := ⟨rfl, rfl, rfl, [], by simp⟩

theorem Emits.trans {m n : Nat} {s t u : State} (h : Emits m s t) (h' : Emits n t u) : Emits (m + n) s u := by
  obtain ⟨new, hnew, hlen, hun⟩ := h.bytes
  obtain ⟨new', hnew', hlen', hun'⟩ := h'.bytes
  refine ⟨h'.params.trans h.params, h'.faultRec.trans h.faultRec, h'.dec.trans h.dec, new ++ new', ?_, ?_, ?_⟩
  · rw [hnew', hnew, List.append_assoc]
  · rw [List.length_append]
    omega
  · exact List.forall_mem_append.2 ⟨hun, hun'⟩

theorem Emits.length_le {n : Nat} {s t : State} (h : Emits n s t) : t.enc.fifo.length ≤ s.enc.fifo.length + n := by
  obtain ⟨new, hnew, hlen, -⟩ := h.bytes
  rw [hnew, List.length_append]
  omega

/-- The X registers are no part of it. -/
theorem Emits.of_setXInt {n : Nat} {s t : State} {d : XReg} {v : Int} (h : Emits n (s.setXInt d v) t) : Emits n s t :=
  ⟨h.params, h.faultRec, h.dec, h.bytes⟩

theorem emits_encPush (s : State) {n p acc : Nat} {out : List Nat} (hlen : out.length ≤ n)
    (hout : ∀ b ∈ out, b ≤ 255 ∧ (b < 243 ∨ 246 < b)) : Emits n s (s.encPush p acc out) := by
  refine ⟨rfl, rfl, rfl, out.map (BitVec.ofNat 8), rfl, by rwa [List.length_map], ?_⟩
  refine List.forall_mem_map.2 fun b hb => ?_
  obtain ⟨hle, hun⟩ := hout b hb
  rwa [Unmarked, toNat_level hle]

/-- The encoder is legal, and its bytes hold the symbols but for its pending digits. -/
structure Encoder.Holds (e : Encoder) (vs : List Int) : Prop where
  legal : e.Legal
  leaves : Leaves e.fifo vs e.off.toNat e.acc.toNat

/-- ENCSYM of a symbol put into X0. -/
theorem Encoder.Holds.encsym {s : State} {vs : List Int} (h : s.enc.Holds vs) {v : Int} (hv : -13 ≤ v ∧ v ≤ 13)
    (hroom : s.enc.fifo.length + 1 ≤ s.params.fifoDepth) :
    ∃ t, exec (.encsym 0) (s.setXInt 0 v) = .next t ∧ Emits 1 s t ∧ t.enc.Holds (vs ++ [v]) := by
  obtain ⟨hp, hacc⟩ := h.legal
  have hsx : (s.setXInt 0 v).sx 0 = v := sx_setXInt_same s 0 (by omega) (by omega)
  have hu : (s.setXInt 0 v).sx 0 + 13 = biased v := by rw [hsx, biased]; omega
  have hle : biased v ≤ 26 := by rw [biased]; omega
  obtain ⟨r, hr⟩ : ∃ r, encStep s.enc.off.toNat s.enc.acc.toNat (biased v) = r := ⟨_, rfl⟩
  obtain ⟨hp', hacc', hdata⟩ := hr ▸ encStep_legal hp hacc hle
  have hlen : r.2.2.length ≤ 1 := hr ▸ encStep_length_le _ _ _
  obtain ⟨hoff, hval⟩ := encPush_fields hp' hacc' (s.setXInt 0 v) r.2.2
  refine ⟨_, exec_encsym hu hle hr (.inr ((Nat.add_le_add_left hlen _).trans hroom)), ?_, ?_, ?_⟩
  · exact (emits_encPush (s.setXInt 0 v) hlen fun b hb => by have := hdata b hb; omega).of_setXInt
  · rw [Encoder.Legal, hoff, hval]
    exact ⟨hp', hacc'⟩
  · rw [hoff, hval]
    exact h.leaves.encStep hv hr

theorem encodeSymbols_cons {v : Int} {vs : List Int} {s t : State} (h : exec (.encsym 0) (s.setXInt 0 v) = .next t)
    (hf : t.faultRec.fault = false) : encodeSymbols (v :: vs) s = encodeSymbols vs t := by
  simp [encodeSymbols, h, hf]

/-- Encoding symbols, when BF has room for a byte each. -/
theorem Encoder.Holds.encodeSymbols {s : State} {vs rest : List Int} (h : s.enc.Holds vs)
    (hrest : ∀ v ∈ rest, -13 ≤ v ∧ v ≤ 13) (hf : s.faultRec.fault = false)
    (hroom : s.enc.fifo.length + rest.length ≤ s.params.fifoDepth) :
    ∃ t, encodeSymbols rest s = some t ∧ Emits rest.length s t ∧ t.enc.Holds (vs ++ rest) := by
  induction rest generalizing s vs with
  | nil => exact ⟨s, rfl, .refl s, by rwa [List.append_nil]⟩
  | cons v rest ih =>
    obtain ⟨hv, hrest⟩ := List.forall_mem_cons.1 hrest
    rw [List.length_cons] at hroom ⊢
    obtain ⟨t, hexec, hemits, hholds⟩ := h.encsym hv (by omega)
    have hft : t.faultRec.fault = false := hemits.faultRec ▸ hf
    have hlen := hemits.length_le
    obtain ⟨u, hrun, hemits', hholds'⟩ := ih hholds hrest hft (by rw [hemits.params]; omega)
    refine ⟨u, (encodeSymbols_cons hexec hft).trans hrun, ?_, ?_⟩
    · rw [Nat.add_comm]
      exact hemits.trans hemits'
    · rwa [List.append_assoc] at hholds'

/-- ENCEND: the bytes then hold all the symbols. -/
theorem Encoder.Holds.encend {s : State} {vs : List Int} (h : s.enc.Holds vs)
    (hroom : s.enc.fifo.length + 1 ≤ s.params.fifoDepth) :
    ∃ t, exec .encend s = .next t ∧ Emits 1 s t ∧ ∃ q pend, DecodesTo t.enc.fifo q pend vs := by
  obtain ⟨hp, hacc⟩ := h.legal
  have hlen : (encFlush s.enc.off.toNat s.enc.acc.toNat).length ≤ 1 := encFlush_length_le _ _
  exact ⟨_, exec_encend rfl (.inr ((Nat.add_le_add_left hlen _).trans hroom)),
    emits_encPush s hlen (encFlush_unmarked hp hacc), h.leaves.encFlush hp hacc⟩

/-- The start of a stream, with or without the header. -/
theorem exists_streamStart {s : State} (header : Bool) (henc : s.enc = ⟨0, 0, []⟩) (hroom : 2 ≤ s.params.fifoDepth) :
    ∃ t, (if header then exec .enchdr s = .next t else t = s) ∧ t.params = s.params ∧ t.faultRec = s.faultRec ∧
      t.dec = s.dec ∧ t.enc.Holds [] ∧ t.enc.fifo.length ≤ 2 ∧ (header = false → t.enc.fifo = []) := by
  cases header with
  | false =>
    refine ⟨s, rfl, rfl, rfl, rfl, ?_, by simp [henc], fun _ => by rw [henc]⟩
    rw [henc]
    exact ⟨by decide, leaves_of_empty .nil⟩
  | true =>
    have hexec := exec_enchdr (s := s) (by rw [henc]) (by simpa [henc] using hroom)
    rw [henc] at hexec
    exact ⟨_, hexec, rfl, rfl, rfl, ⟨(by decide : Encoder.Legal ⟨0, 0, [245, 244]⟩), leaves_of_empty .header⟩, le_rfl, nofun⟩

end Sys2Proof.Machine
end

section
/-! The statements of 45_stream_codec.md settled. -/

namespace Sys2Proof.Machine

/-- Settles O51: past the check of the symbol, the two cases of the encoder step, and its byte against the level of BF. -/
theorem encsymEncodes : Obligations.EncsymEncodes := by
  refine ⟨fun s a h => faults_iff.2 (exec_encsym_domain h), ?_⟩
  rintro s a p t ⟨hp, hacc⟩ rfl hlow hhigh ht
  set p := s.enc.off.toNat
  obtain ⟨u, hu⟩ : ∃ u : Nat, s.sx a + 13 = u := ⟨(s.sx a + 13).toNat, by omega⟩
  have hle : u ≤ 26 := by omega
  obtain rfl : s.enc.acc.toNat + u * 3 ^ p = t := by rw [hu] at ht; exact_mod_cast ht.symm
  obtain ⟨hp', ha', -⟩ := encStep_legal hp hacc hle
  refine ⟨fun hlt => ?accumulates, fun hge hroom => ?emits, fun hge hfull => ?full⟩
  case accumulates =>
    have hstep := encStep_of_lt hlt s.enc.acc.toNat u
    rw [hstep] at hp' ha'
    obtain ⟨hoff, hval⟩ := encPush_fields hp' ha' s []
    exact ⟨_, exec_encsym hu hle hstep (.inl rfl), rfl, hoff, hval, List.append_nil _⟩
  case emits =>
    have hstep := encStep_of_ge hge s.enc.acc.toNat u
    rw [hstep] at hp' ha'
    obtain ⟨hoff, hval⟩ := encPush_fields hp' ha' s []
    exact ⟨_, exec_encsym hu hle hstep (.inr hroom), rfl, hoff, hval, rfl⟩
  case full =>
    exact faults_iff.2 (exec_encsym_full hu hle (encStep_of_ge hge _ _) (List.cons_ne_nil _ _)
      (by simp only [List.length_singleton]; omega))

/-- A terminator is the accumulator inverted, on bytes as on numbers. -/
theorem ofNat_terminator (acc : Byte) : BitVec.ofNat 8 (255 - acc.toNat) = 255 - acc := by
  bv_omega

/-- Settles O52: the byte of each offset, pushed where it has room; the header behind its two checks. -/
theorem encoderEndAndHeader : Obligations.EncoderEndAndHeader := by
  refine ⟨fun s _ => ⟨fun h0 => ?nothing, fun h3 hroom => ?data, fun h12 hroom => ?terminator, fun h0 hfull => ?full⟩,
    fun s => ⟨fun h0 hroom => exists_setEnc (exec_enchdr h0 hroom),
      fun h0 hfull => faults_iff.2 (exec_enchdr_full h0 hfull), fun h0 => faults_iff.2 (exec_enchdr_state h0)⟩⟩
  case nothing =>
    have hout : encFlush s.enc.off.toNat s.enc.acc.toNat = [] := by rw [h0]; exact encFlush_zero _
    obtain ⟨u, hexec, honly, henc⟩ := exists_setEnc (exec_encend hout (.inl rfl))
    exact ⟨u, hexec, honly, by rw [henc]; simp⟩
  case data =>
    obtain ⟨u, hexec, honly, henc⟩ := exists_setEnc (exec_encend (encFlush_of_ge h3 _) (.inr hroom))
    exact ⟨u, hexec, honly, by rw [henc]; simp⟩
  case terminator =>
    have hoff : s.enc.off.toNat ≠ 0 ∧ s.enc.off.toNat < 3 := by
      rcases h12 with h | h
      · rw [h]; decide
      · rw [h]; decide
    obtain ⟨u, hexec, honly, henc⟩ := exists_setEnc (exec_encend (encFlush_of_lt hoff.1 hoff.2 _) (.inr hroom))
    exact ⟨u, hexec, honly, by rw [henc, List.map_singleton, ofNat_terminator]; rfl⟩
  case full =>
    have hlen := encFlush_length (p := s.enc.off.toNat) (fun h => h0 (BitVec.eq_of_toNat_eq h)) s.enc.acc.toNat
    exact faults_iff.2 (exec_encend_full rfl (List.ne_nil_of_length_eq_add_one hlen) (by omega))

/-- Settles O54: the symbols of a data byte at each offset, against the room in SF. -/
theorem decbyteDecodesData : Obligations.DecbyteDecodesData := by
  rintro s a q b t ⟨hq, hpend⟩ rfl hb hlt rfl
  set q := s.dec.off.toNat
  obtain ⟨hq', hpend', -⟩ := decData_legal hq hpend hlt
  have hbyte : decByte s.f0f q s.dec.pend.toNat b = .ok (decData q s.dec.pend.toNat b) := decByte_data hlt
  have hle : b ≤ 255 := by omega
  refine ⟨fun h0 hroom => ?one, fun h0 hfull => ?oneFull, fun h0 hroom => ?two, fun h0 hfull => ?twoFull⟩
  case one =>
    rw [decData_of_zero h0] at hbyte hq' hpend'
    obtain ⟨-, hval⟩ := decPush_fields hq' hpend' s []
    exact ⟨_, exec_decbyte hb hle hbyte hroom, rfl, rfl, hval, rfl⟩
  case oneFull =>
    rw [decData_of_zero h0] at hbyte
    exact faults_iff.2 (exec_decbyte_full hb hle hbyte hfull)
  case two =>
    rw [decData_of_ne_zero h0 hq] at hbyte hq' hpend'
    obtain ⟨hoff, hval⟩ := decPush_fields hq' hpend' s []
    exact ⟨_, exec_decbyte hb hle hbyte hroom, rfl, hoff, hval, rfl⟩
  case twoFull =>
    rw [decData_of_ne_zero h0 hq] at hbyte
    exact faults_iff.2 (exec_decbyte_full hb hle hbyte hfull)

/-- Settles O55: each class of bytes from 243 on, the terminators by the offset, the policy and their value. -/
theorem decbyteDecodesMarkers : Obligations.DecbyteDecodesMarkers := by
  refine ⟨fun s a h => faults_iff.2 (exec_decbyte_domain h), ?_⟩
  rintro s a q b t - rfl hb hle rfl hlevel
  refine ⟨fun h => ?unassigned, fun h => ?marker, fun h h0 hpolicy => ?dropped, fun h h0 hpolicy => ?refused,
    fun h h0 ht hroom => ?symbol, fun h h0 ht hfull => ?full, fun h h0 ht => ?codec⟩
  case unassigned =>
    subst h
    exact faults_iff.2 (exec_decbyte_error hb hle decByte_unassigned)
  case marker => exact exists_setDec_drop (exec_decbyte hb hle (decByte_marker h) hlevel)
  case dropped =>
    have hbyte : decByte s.f0f s.dec.off.toNat s.dec.pend.toNat b = .ok (0, 0, []) := by
      rw [decByte_terminator h, h0, hpolicy]; rfl
    exact exists_setDec_drop (exec_decbyte hb hle hbyte hlevel)
  case refused =>
    have hbyte : decByte s.f0f s.dec.off.toNat s.dec.pend.toNat b = .error .codec := by
      rw [decByte_terminator h, h0, hpolicy]; rfl
    exact faults_iff.2 (exec_decbyte_error hb hle hbyte)
  case symbol => exact exists_setDec (exec_decbyte hb hle (decByte_terminator_symbol h h0 ht) hroom)
  case full =>
    exact faults_iff.2 (exec_decbyte_full hb hle (decByte_terminator_symbol h h0 ht) (hfull ▸ Nat.lt_succ_self _))
  case codec => exact faults_iff.2 (exec_decbyte_error hb hle (decByte_terminator_codec h h0 ht))

/-- Settles O57: the encoder's pending digits are those by which the decoder of its bytes lags, at the start, after each
symbol and, made up by the last byte, at the end. -/
theorem codecRoundTrip : Obligations.CodecRoundTrip := by
  intro s symbols header hsymbols henc hdec hf hroom
  obtain ⟨s1, hstart, hparams1, hrec1, hdec1, hholds1, hlen1, hempty1⟩ := exists_streamStart header henc (by omega)
  have hf1 : s1.faultRec.fault = false := hrec1 ▸ hf
  obtain ⟨s2, hrun2, hemits2, hholds2⟩ := hholds1.encodeSymbols hsymbols hf1 (by rw [hparams1]; omega)
  have hlen2 := hemits2.length_le
  obtain ⟨s3, hexec3, hemits3, q, pend, hdecodes⟩ := hholds2.encend (by rw [hemits2.params, hparams1]; omega)
  have hemits := hemits2.trans hemits3
  have hf3 : s3.faultRec.fault = false := hemits.faultRec ▸ hf1
  obtain ⟨s4, hrun4, -, hrec4, -, -, hfifo4⟩ := hdecodes s3 (by rw [hemits.dec, hdec1, hdec]) hf3
    (by rw [List.nil_append, hemits.params, hparams1]; omega)
  refine ⟨s1, s2, s3, s4, _, hstart, hrun2, hexec3, hrun4, rfl, congrArg (Decoder.mk 0 0) hfifo4,
    (congrArg _ hrec4).trans hf3, fun hheader => ?_⟩
  obtain ⟨new, hnew, -, hunmarked⟩ := hemits.bytes
  rw [hnew, hempty1 hheader]
  exact hunmarked

/-- Settles O53: each command answers with the half it empties. -/
theorem codecResets : Obligations.CodecResets := fun s =>
  ⟨exists_setEnc (i := .encrst) (s := s) rfl, exists_setDec (i := .decend) (s := s) rfl,
    exists_setDec (i := .decrst) (s := s) rfl⟩

/-- Settles O56: a pop takes the head of its FIFO, and the levels are the lengths. -/
theorem fifoAccess : Obligations.FifoAccess := by
  refine fun s d => ⟨fun b rest h => ⟨_, exec_bpop h, rfl, ?byte⟩, fun h => faults_iff.2 (exec_bpop_empty h),
    fun v rest h => ⟨_, exec_spop h, rfl, xResult_iff.2 rfl⟩, fun h => faults_iff.2 (exec_spop_empty h),
    exists_setX ?bytes, exists_setX ?symbols⟩
  case byte => rw [BitVec.ofNat_toNat]; exact xResult_iff.2 rfl
  case bytes => rw [← scalarOfInt_natCast]; rfl
  case symbols => rw [← scalarOfInt_natCast]; rfl

end Sys2Proof.Machine
end

section
/-! The array that TMAP1 and TMAP2 read out of their table, and the commands' check of the table's length
(46_tritwise_tables.md R240 to R242). -/

namespace Sys2Proof.Machine

/-! The lookup of a table. -/

/-- The `len` trits that a table holds at the entries `entry 0`, `entry 1`, …, not trimmed (46_tritwise_tables.md R240,
R241). -/
def TritArray.lookup (table : TritArray) (len : Nat) (entry : Nat → Int) : TritArray :=
  arrayOfTrits len fun i => table.trit (entry i).toNat

section Lookup
variable (table : TritArray) (len : Nat) (entry : Nat → Int)

@[simp] theorem TritArray.lookup_len : (table.lookup len entry).len = len := rfl

@[simp] theorem TritArray.lookup_wordCount : (table.lookup len entry).wordCount = wordsFor len :=
  arrayOfTrits_wordCount ..

theorem TritArray.lookup_wf : (table.lookup len entry).Wf := arrayOfTrits_wf ..

variable {entry}

theorem TritArray.lookup_trit {i k : Nat} (hi : i < len) (hentry : entry i = k) :
    (table.lookup len entry).trit i = table.trit k := by
  rw [TritArray.lookup, arrayOfTrits_trit (fun _ _ => table.trit_bounds _) hi, hentry, Int.toNat_natCast]

end Lookup

/-! The check of the table. -/

section Check
variable {s : State} {d a b c : TReg}

theorem exec_tmap1 (h : (s.getT b).len = 3) :
    exec (.tmap1 d a b) s = .next (s.setT d ((s.getT b).lookup (s.getT a).len fun i => (s.getT a).trit i + 1)) :=
  if_neg (not_not_intro h)

theorem exec_tmap1_table (h : (s.getT b).len ≠ 3) :
    exec (.tmap1 d a b) s = .next (s.raise .table (encode (.tmap1 d a b))) := if_pos h

theorem exec_tmap2 (h : (s.getT c).len = 9) :
    exec (.tmap2 d a b c) s = .next (s.setT d ((s.getT c).lookup (max (s.getT a).len (s.getT b).len) fun i =>
      3 * ((s.getT a).tritBelowLen i + 1) + ((s.getT b).tritBelowLen i + 1))) := if_neg (not_not_intro h)

theorem exec_tmap2_table (h : (s.getT c).len ≠ 9) :
    exec (.tmap2 d a b c) s = .next (s.raise .table (encode (.tmap2 d a b c))) := if_pos h

end Check

end Sys2Proof.Machine
end

section
/-! The statement of 46_tritwise_tables.md settled. -/

namespace Sys2Proof.Machine

/-- Settles O50: past the check of the table's length, the result is the lookup whose entry is the trit of the source
plus 1, or the row and column of the two trits. -/
theorem tableMaps : Obligations.TableMaps := by
  refine ⟨fun s d a b => ⟨fun h => ?unary, fun h => faults_iff.2 (exec_tmap1_table h)⟩,
    fun s d a b c => ⟨fun h => ?binary, fun h => faults_iff.2 (exec_tmap2_table h)⟩⟩
  case unary =>
    obtain ⟨t, hexec, honly, harray⟩ := exists_setT (exec_tmap1 (d := d) (a := a) h)
    refine ⟨t, hexec, honly, ?_⟩
    rw [harray]
    exact ⟨rfl, TritArray.lookup_wordCount .., TritArray.lookup_wf .., fun i hi =>
      ⟨fun hneg => TritArray.lookup_trit _ _ hi (k := 0) (by rw [hneg]; rfl),
        fun hzero => TritArray.lookup_trit _ _ hi (k := 1) (by rw [hzero]; rfl),
        fun hpos => TritArray.lookup_trit _ _ hi (k := 2) (by rw [hpos]; rfl)⟩⟩
  case binary =>
    obtain ⟨t, hexec, honly, harray⟩ := exists_setT (exec_tmap2 (d := d) (a := a) (b := b) h)
    refine ⟨t, hexec, honly, ?_⟩
    rw [harray]
    exact ⟨rfl, TritArray.lookup_wordCount .., TritArray.lookup_wf .., fun i hi k hentry =>
      TritArray.lookup_trit _ _ hi hentry.symm⟩

end Sys2Proof.Machine
end

section
/-! What a command and a host write of CMD leave in the fault record, and the two registers of the record as a faulted engine
answers a write of them (60_exceptions.md R302, R303, R305). -/

namespace Sys2Proof.Machine

/-- Raising a fault is the only write of the fault record a command can make. -/
theorem Writes.faultRec {i : Instr} {s t : State} (h : Writes i s t) : t.faultRec = s.faultRec := by
  induction h with
  | nothing => rfl
  | x _ _ ih | p _ _ _ ih | t _ _ _ ih | carry _ _ _ ih | encoder _ _ _ ih | decoder _ _ _ ih => exact ih

/-- A command leaves the fault record, or raises a fault of its list and does nothing else. -/
theorem exec_faultRec {i : Instr} {s t : State} (h : exec i s = .next t) :
    t.faultRec = s.faultRec ∨ ∃ e ∈ (footprint i).faults, t = s.raise e (encode i) :=
  (exec_cases h).imp_left Writes.faultRec

/-- A host write of a word to CMD leaves the fault record, or raises a fault with that word and does nothing else. -/
theorem command_faultRec {s t : State} {w : Word} (h : s.command w = .next t) :
    t.faultRec = s.faultRec ∨ s.faultRec.fault = false ∧ ∃ e, t = s.raise e w := by
  rcases command_cases s w with ⟨-, hignored⟩ | ⟨hf, -, hillegal⟩ | ⟨i, hf, hd, hexec⟩
  · obtain rfl : s = t := Host.Outcome.next.inj (hignored.symm.trans h)
    exact .inl rfl
  · exact .inr ⟨hf, .illegal, Host.Outcome.next.inj (h.symm.trans hillegal)⟩
  · rcases exec_faultRec (hexec.symm.trans h) with hkept | ⟨e, -, ht⟩
    · exact .inl hkept
    · exact .inr ⟨hf, e, decode_eq_some_iff.1 hd ▸ ht⟩

/-- While a fault is recorded a write of CMD is ignored, in reset too. -/
theorem step_cmdWrite_of_fault {s : State} {w : Word} {rest : List HostEvent} (hp : s.port = s.cmdWrite w :: rest)
    (hf : s.faultRec.fault = true) : step s = .next { s with port := rest } := by
  rcases Bool.eq_false_or_eq_true s.resetAsserted with hr | hr
  · exact (step_event hp).trans (perform_access_of_reset (s := { s with port := rest }) hr _ _ w).1
  · exact (step_cmdWrite hp hr).trans (if_pos hf)

section Status

variable {s : State} {data : Word} {rest : List HostEvent}

/-- A STATUS write with bit 0 = 1 sets the fault record to 0. -/
theorem step_write_status_clear (hp : s.port = .write (s.params.hostBase + 4) 32 data :: rest) (hr : s.resetAsserted = false)
    (hbit : data.getLsbD 0 = true) : step s = .next { s with port := rest, faultRec := ⟨false, 0, 0⟩ } := by
  rw [step_write_mapReg (r := .status) rfl nofun hp hr, State.writeReg, if_pos hbit]
  rfl

/-- A STATUS write with bit 0 = 0 is ignored. -/
theorem step_write_status_keep (hp : s.port = .write (s.params.hostBase + 4) 32 data :: rest) (hr : s.resetAsserted = false)
    (hbit : data.getLsbD 0 = false) : step s = .next { s with port := rest } := by
  rw [step_write_mapReg (r := .status) rfl nofun hp hr, State.writeReg, if_neg (Bool.eq_false_iff.1 hbit)]

end Status

end Sys2Proof.Machine
end

section
/-! The statements of 60_exceptions.md settled. -/

namespace Sys2Proof.Machine

/-- Settles O7: the check of FAULT stands before the decoder only; the other accesses do not look at the record. -/
theorem faultedEngineIgnoresCommands : Obligations.FaultedEngineIgnoresCommands :=
  ⟨fun _ _ _ => step_cmdWrite_of_fault, fun _ _ _ _ => step_read, fun _ _ _ _ _ => step_write_xWord,
    fun _ _ _ => step_write_mapReg (r := .cfg) rfl nofun, fun _ _ _ => step_write_status_clear⟩

/-- Settles O8: after the clearing write the record holds no fault, so the next command runs (O5). -/
theorem statusWriteClearsRecord : Obligations.StatusWriteClearsRecord :=
  fun _ _ _ hp hr => ⟨fun hbit => ⟨step_write_status_clear hp hr hbit, fun w i more hrest hd =>
    stepRunsDecodedCommand _ w i more hrest hr rfl hd⟩, step_write_status_keep hp hr⟩

/-- Settles O19: the cases of a host write of a word to CMD, where ECMD is the word since a command has one word only (O2). -/
theorem faultMechanism : Obligations.FaultMechanism := fun _ _ _ _ hp hr h =>
  command_faultRec ((step_cmdWrite hp hr).symm.trans h)

/-- Settles O20: the writes of a command leave the record, and it raises no fault but those of its footprint. -/
theorem faultsOfEachCommand : Obligations.FaultsOfEachCommand := ⟨fun _ _ _ => exec_faultRec, rfl⟩

/-- Settles O9: the fault wrote the record alone (O19), which held 0 before and holds 0 again after the clearing write. -/
theorem clearAfterFaultRestoresState : Obligations.ClearAfterFaultRestoresState := by
  intro s t w data rest hp hr hclear hbit hstep hfault
  rcases faultMechanism s t w _ hp hr hstep with hkept | ⟨-, e, ht⟩
  · have hno : t.faultRec.fault = false := by rw [hkept, hclear]; rfl
    cases hno.symm.trans hfault
  · have hport : t.port = .write (t.params.hostBase + 4) 32 data :: rest := by rw [ht]
    have hreleased : t.resetAsserted = false := by rw [ht]; exact hr
    have hrestored : (⟨false, 0, 0⟩ : FaultRecord) = s.faultRec := hclear.symm
    calc step t = .next { t with port := rest, faultRec := ⟨false, 0, 0⟩ } := step_write_status_clear hport hreleased hbit
      _ = .next { s with port := rest } := by rw [ht, hrestored]

end Sys2Proof.Machine
end

section
/-! What an event of the reset input does as a step, and what the reset leaves in the registers (10_state.md R42,
70_reset_and_hazards.md R330). -/

namespace Sys2Proof.Machine

@[simp] theorem getX_applyReset (s : State) (r : XReg) : s.applyReset.getX r = 0 := getX_reset r

@[simp] theorem getP_applyReset (s : State) (r : PReg) : s.applyReset.getP r = WordPair.zero := getP_reset r

@[simp] theorem getT_applyReset (s : State) (r : TReg) : s.applyReset.getT r = TritArray.empty := getT_reset r

section ResetInput

variable {s : State} {rest : List HostEvent}

theorem step_assertReset (hp : s.port = .assertReset :: rest) :
    step s = .next (State.applyReset { s with port := rest }) := by
  rw [step_event hp, State.perform]

theorem step_releaseReset (hp : s.port = .releaseReset :: rest) :
    step s = .next { s with port := rest, resetAsserted := false } := by
  rw [step_event hp, State.perform]

/-- An access made while reset is asserted is taken from the port and does nothing else. -/
theorem step_access_of_reset (hr : s.resetAsserted = true) {addr width : Nat} {data : Word}
    (hp : s.port = .write addr width data :: rest ∨ s.port = .read addr width :: rest) :
    step s = .next { s with port := rest } := by
  have hignored := perform_access_of_reset (s := { s with port := rest }) hr addr width data
  rcases hp with hwrite | hread
  · exact (step_event hwrite).trans hignored.1
  · exact (step_event hread).trans hignored.2

end ResetInput

end Sys2Proof.Machine
end

section
/-! The statement of 70_reset_and_hazards.md settled. -/

namespace Sys2Proof.Machine

/-- Settles O14: each kind of event by its step; the state after the assertion is that of reset, with the parameters and the
rest of the port kept. -/
theorem resetEvent : Obligations.ResetEvent := by
  refine ⟨fun s rest hp => ?asserted, fun _ _ _ _ _ hr hp => step_access_of_reset hr hp, fun _ _ hp => step_releaseReset hp⟩
  case asserted =>
    exact ⟨_, step_assertReset hp, getX_applyReset _, getP_applyReset _, getT_applyReset _,
      rfl, rfl, rfl, rfl, rfl, rfl, rfl, rfl⟩

end Sys2Proof.Machine
end
